-- ==== Sys2Proof/Word.lean ====
section
/-!
DEFINITION. The two word types of the block: a bank register is 32 bits wide, a general or system register as moved
on the port is 64 bits wide (spec 20_memory.md R84).
-/

namespace Sys2Proof

/-- One bank register, and one value on the `MMIO` port (20_memory.md R84). -/
abbrev Word := BitVec 32

/-- One general register, frame slot or system register as moved on `SYSREG` (10_state.md R20, 20_memory.md R84). -/
abbrev DWord := BitVec 64

/-- One byte of a platform bus (20_memory.md R87). -/
abbrev Byte := BitVec 8

end Sys2Proof
end

