-- ==== Sys2Proof/Syntax.lean ====
section
/-!
DEFINITION. The commands of the block: one constructor of `Instr` for each row of spec/opcode_table.json
(30_encoding.md R116), the descriptor that carries a command (R110), and the names its fields select.
-/

namespace Sys2Proof

/-- The two memory-mapped register banks: distributor and redistributor (20_memory.md R80). -/
inductive Bank where
  | D
  | R
  deriving DecidableEq, Repr, Inhabited

/-- The thirteen system registers (20_memory.md R98), in the order of their selectors (30_encoding.md R118). -/
inductive SysReg where
  | vbar
  | iccSre
  | iccIgrpen1
  | iccPmr
  | iccStatus
  | iccBpr
  | cntfrq
  | cntpCtl
  | cntpTval
  | cntpCval
  | cntpct
  | daif
  | currentEL
  deriving DecidableEq, Repr, Inhabited

/-- What port `CMD` presents: a command word and a data operand (30_encoding.md R110). -/
structure Descriptor where
  cw : Word
  data : DWord
  deriving DecidableEq, Repr, Inhabited

/-- The 39 commands with their operands (30_encoding.md R116).
Fields the rules compute with keep the width of their encoding: `wlog` and the group operand `val` are the raw
fields, and `WellFormed` holds the constraints rule R125 puts on them. -/
inductive Instr where
  | rd32 (bank : Bank) (off : BitVec 17)
  | wr32 (bank : Bank) (off : BitVec 17) (value : Word)
  | srrd (reg : SysReg)
  | srwr (reg : SysReg) (value : DWord)
  | frd (bank : Bank) (wlog : BitVec 3) (base : BitVec 17) (index : Word)
  | fwr (bank : Bank) (wlog : BitVec 3) (base : BitVec 17) (index : Word) (value : BitVec 16)
  | dInit
  | dSetGrp (id : BitVec 10) (val : BitVec 8)
  | dSetEn (id : BitVec 10)
  | dClrEn (id : BitVec 10)
  | dSetPri (id : BitVec 10) (pri : BitVec 8)
  | dSetTgt (id : BitVec 10) (cpu : BitVec 8)
  | dSetCfg (id : BitVec 10) (cfg : BitVec 8)
  | dSetPend (id : BitVec 10)
  | dClrPend (id : BitVec 10)
  | dGetPend (id : BitVec 10)
  | rInit (bound : Word)
  | rSetGrp (id : BitVec 10) (val : BitVec 8)
  | rSetEn (id : BitVec 10)
  | rClrEn (id : BitVec 10)
  | rSetPri (id : BitVec 10) (pri : BitVec 8)
  | rGetPri (id : BitVec 10)
  | rSetCfg (id : BitVec 10) (cfg : BitVec 8)
  | rSetPend (id : BitVec 10)
  | rClrPend (id : BitVec 10)
  | rGetPend (id : BitVec 10)
  | cInit
  | cSre
  | cPmr
  | cGrp1en
  | cUnmask
  | cAck
  | cEoi
  | vInstall (addr : DWord)
  | vCurel
  | tArm
  | tHandle
  | oStep
  | oPoll
  deriving DecidableEq, Repr, Inhabited

end Sys2Proof
end

