-- ==== Sys2Proof/WellFormed.lean ====
section
/-!
DEFINITION. The constraints that rule R125 of 30_encoding.md puts on the operand fields of a command word and that the
types of `Instr` do not already hold. (Selectors above 12 are not terms of `SysReg`; `id`, `cpu` and `cfg` out of range
are contract violations of the command, not ill-formed words.)
-/

namespace Sys2Proof

/-- A field width the accessor has: 1, 2, 4, 8 or 16 bits (30_encoding.md R117). -/
def wlogLegal (wlog : BitVec 3) : Bool := decide (wlog.toNat ≤ 4)

/-- A group operand whose bits 7:1 are zero (30_encoding.md R122). -/
def groupLegal (val : BitVec 8) : Bool := decide (val.toNat ≤ 1)

/-- The command is the decoding of some command word (30_encoding.md R125). -/
def Instr.wellFormed : Instr → Bool
  | .rd32 _ _ => true
  | .wr32 _ _ _ => true
  | .srrd _ => true
  | .srwr _ _ => true
  | .frd _ wlog _ _ => wlogLegal wlog
  | .fwr _ wlog _ _ _ => wlogLegal wlog
  | .dInit => true
  | .dSetGrp _ val => groupLegal val
  | .dSetEn _ => true
  | .dClrEn _ => true
  | .dSetPri _ _ => true
  | .dSetTgt _ _ => true
  | .dSetCfg _ _ => true
  | .dSetPend _ => true
  | .dClrPend _ => true
  | .dGetPend _ => true
  | .rInit _ => true
  | .rSetGrp _ val => groupLegal val
  | .rSetEn _ => true
  | .rClrEn _ => true
  | .rSetPri _ _ => true
  | .rGetPri _ => true
  | .rSetCfg _ _ => true
  | .rSetPend _ => true
  | .rClrPend _ => true
  | .rGetPend _ => true
  | .cInit => true
  | .cSre => true
  | .cPmr => true
  | .cGrp1en => true
  | .cUnmask => true
  | .cAck => true
  | .cEoi => true
  | .vInstall _ => true
  | .vCurel => true
  | .tArm => true
  | .tHandle => true
  | .oStep => true
  | .oPoll => true

end Sys2Proof
end

