-- ==== Sys2Proof/Decode.lean ====
section
/-!
DEFINITION. The command decoder, total on any 96 bits (30_encoding.md R130), and the encoder beside it. The decoder's
verdicts are a command or a refusal by name (R125); the block turns every refusal into status `ERR_ILLEGAL`.
-/

namespace Sys2Proof

/-- Why a command word spells no command (30_encoding.md R125). None of these is a fault or a refusal of the model: the
block answers every one with `ERR_ILLEGAL`. -/
inductive DecodeError where
  /-- `op` is not in the table of rule R116 -/
  | reservedOpcode (op : BitVec 8)
  /-- a must-be-zero field of the format is not zero -/
  | mustBeZero
  /-- format `I`, no second operand, `val` not zero -/
  | valNotZero
  /-- `D.SETGRP` or `R.SETGRP` with `val[7:1]` not zero -/
  | groupNotBit
  /-- format `F` with `wlog` above 4 -/
  | reservedWlog
  /-- format `S` with `sel` above 12 -/
  | reservedSel
  deriving DecidableEq, Repr

/-- The selector of a system register (30_encoding.md R118). -/
def SysReg.sel : SysReg → BitVec 5
  | .vbar => 0#5
  | .iccSre => 1#5
  | .iccIgrpen1 => 2#5
  | .iccPmr => 3#5
  | .iccStatus => 4#5
  | .iccBpr => 5#5
  | .cntfrq => 6#5
  | .cntpCtl => 7#5
  | .cntpTval => 8#5
  | .cntpCval => 9#5
  | .cntpct => 10#5
  | .daif => 11#5
  | .currentEL => 12#5

/-- The register a selector names; 13 to 31 are reserved (30_encoding.md R118). -/
def sysRegOfSel (sel : BitVec 5) : Option SysReg :=
  match sel.toNat with
  | 0 => some .vbar
  | 1 => some .iccSre
  | 2 => some .iccIgrpen1
  | 3 => some .iccPmr
  | 4 => some .iccStatus
  | 5 => some .iccBpr
  | 6 => some .cntfrq
  | 7 => some .cntpCtl
  | 8 => some .cntpTval
  | 9 => some .cntpCval
  | 10 => some .cntpct
  | 11 => some .daif
  | 12 => some .currentEL
  | _ => none

/-- Bit `bank` of formats `M` and `F` (30_encoding.md R113): 0 selects bank D, 1 bank R. -/
def Bank.bit : Bank → BitVec 1
  | .D => 0#1
  | .R => 1#1

/-- The bank a bit selects (30_encoding.md R113). -/
def bankOfBit (b : BitVec 1) : Bank := if b = 0#1 then .D else .R

/-! ## The fields of a command word -/

/-- `op = cw[31:24]` (30_encoding.md R110). -/
def Descriptor.op (d : Descriptor) : BitVec 8 := d.cw.extractLsb' 24 8
/-- `val = cw[23:16]` of format `I` (R112). -/
def Descriptor.val (d : Descriptor) : BitVec 8 := d.cw.extractLsb' 16 8
/-- `id = cw[9:0]` of format `I` (R112). -/
def Descriptor.id (d : Descriptor) : BitVec 10 := d.cw.extractLsb' 0 10
/-- `bank = cw[23]` of formats `M` and `F` (R113, R115). -/
def Descriptor.bank (d : Descriptor) : Bank := bankOfBit (d.cw.extractLsb' 23 1)
/-- `off = cw[16:0]` of format `M`, `base = cw[16:0]` of format `F` (R113, R115). -/
def Descriptor.off (d : Descriptor) : BitVec 17 := d.cw.extractLsb' 0 17
/-- `wlog = cw[22:20]` of format `F` (R115). -/
def Descriptor.wlog (d : Descriptor) : BitVec 3 := d.cw.extractLsb' 20 3
/-- `sel = cw[4:0]` of format `S` (R114). -/
def Descriptor.sel (d : Descriptor) : BitVec 5 := d.cw.extractLsb' 0 5
/-- `data[31:0]`: the value of `WR32`, the index of `FRD` and `FWR`, the bound of `R.INIT`. -/
def Descriptor.dataLow (d : Descriptor) : Word := d.data.extractLsb' 0 32
/-- `data[47:32]`: the value of `FWR` (R115). -/
def Descriptor.dataMid (d : Descriptor) : BitVec 16 := d.data.extractLsb' 32 16

/-! ## The five formats -/

/-- Format `N`: bits 23:0 must be zero (R111). -/
def decodeN (d : Descriptor) (i : Instr) : Except DecodeError Instr :=
  if d.cw.extractLsb' 0 24 = 0#24 then .ok i else .error .mustBeZero

/-- Format `I` with a second operand: bits 15:10 must be zero (R112). -/
def decodeIV (d : Descriptor) (k : BitVec 10 → BitVec 8 → Instr) : Except DecodeError Instr :=
  if d.cw.extractLsb' 10 6 = 0#6 then .ok (k d.id d.val) else .error .mustBeZero

/-- Format `I` without a second operand: `val` must be zero too (R112, R125). -/
def decodeI (d : Descriptor) (k : BitVec 10 → Instr) : Except DecodeError Instr :=
  if d.cw.extractLsb' 10 6 = 0#6 then
    if d.val = 0#8 then .ok (k d.id) else .error .valNotZero
  else .error .mustBeZero

/-- Format `I` with a group operand: `val[7:1]` must be zero (R122, R125). -/
def decodeIG (d : Descriptor) (k : BitVec 10 → BitVec 8 → Instr) : Except DecodeError Instr :=
  if d.cw.extractLsb' 10 6 = 0#6 then
    if groupLegal d.val then .ok (k d.id d.val) else .error .groupNotBit
  else .error .mustBeZero

/-- Format `M`: bits 22:17 must be zero (R113). -/
def decodeM (d : Descriptor) (k : Bank → BitVec 17 → Instr) : Except DecodeError Instr :=
  if d.cw.extractLsb' 17 6 = 0#6 then .ok (k d.bank d.off) else .error .mustBeZero

/-- Format `S`: bits 23:5 must be zero, `sel` at most 12 (R114, R125). -/
def decodeS (d : Descriptor) (k : SysReg → Instr) : Except DecodeError Instr :=
  if d.cw.extractLsb' 5 19 = 0#19 then
    match sysRegOfSel d.sel with
    | some r => .ok (k r)
    | none => .error .reservedSel
  else .error .mustBeZero

/-- Format `F`: bits 19:17 must be zero, `wlog` at most 4 (R115, R125). -/
def decodeF (d : Descriptor) (k : Bank → BitVec 3 → BitVec 17 → Instr) : Except DecodeError Instr :=
  if d.cw.extractLsb' 17 3 = 0#3 then
    if wlogLegal d.wlog then .ok (k d.bank d.wlog d.off) else .error .reservedWlog
  else .error .mustBeZero

/-- The decoder (30_encoding.md R130, opcodes R116). -/
def decode (d : Descriptor) : Except DecodeError Instr :=
  match d.op.toNat with
  | 0x01 => decodeM d fun b off => .rd32 b off
  | 0x02 => decodeM d fun b off => .wr32 b off d.dataLow
  | 0x03 => decodeS d fun r => .srrd r
  | 0x04 => decodeS d fun r => .srwr r d.data
  | 0x08 => decodeF d fun b w base => .frd b w base d.dataLow
  | 0x09 => decodeF d fun b w base => .fwr b w base d.dataLow d.dataMid
  | 0x10 => decodeN d .dInit
  | 0x11 => decodeIG d .dSetGrp
  | 0x12 => decodeI d .dSetEn
  | 0x13 => decodeI d .dClrEn
  | 0x14 => decodeIV d .dSetPri
  | 0x15 => decodeIV d .dSetTgt
  | 0x16 => decodeIV d .dSetCfg
  | 0x17 => decodeI d .dSetPend
  | 0x18 => decodeI d .dClrPend
  | 0x19 => decodeI d .dGetPend
  | 0x20 => decodeN d (.rInit d.dataLow)
  | 0x21 => decodeIG d .rSetGrp
  | 0x22 => decodeI d .rSetEn
  | 0x23 => decodeI d .rClrEn
  | 0x24 => decodeIV d .rSetPri
  | 0x25 => decodeI d .rGetPri
  | 0x26 => decodeIV d .rSetCfg
  | 0x27 => decodeI d .rSetPend
  | 0x28 => decodeI d .rClrPend
  | 0x29 => decodeI d .rGetPend
  | 0x30 => decodeN d .cInit
  | 0x31 => decodeN d .cSre
  | 0x32 => decodeN d .cPmr
  | 0x33 => decodeN d .cGrp1en
  | 0x34 => decodeN d .cUnmask
  | 0x35 => decodeN d .cAck
  | 0x36 => decodeN d .cEoi
  | 0x40 => decodeN d (.vInstall d.data)
  | 0x41 => decodeN d .vCurel
  | 0x50 => decodeN d .tArm
  | 0x51 => decodeN d .tHandle
  | 0x60 => decodeN d .oStep
  | 0x61 => decodeN d .oPoll
  | _ => .error (.reservedOpcode d.op)

/-! ## The encoder -/

/-- The word of format `N` (R111). -/
def wordN (op : BitVec 8) : Word := op ++ 0#24
/-- The word of format `I` (R112). -/
def wordI (op : BitVec 8) (val : BitVec 8) (id : BitVec 10) : Word := op ++ val ++ 0#6 ++ id
/-- The word of format `M` (R113). -/
def wordM (op : BitVec 8) (bank : Bank) (off : BitVec 17) : Word := op ++ bank.bit ++ 0#6 ++ off
/-- The word of format `S` (R114). -/
def wordS (op : BitVec 8) (r : SysReg) : Word := op ++ 0#19 ++ r.sel
/-- The word of format `F` (R115). -/
def wordF (op : BitVec 8) (bank : Bank) (wlog : BitVec 3) (base : BitVec 17) : Word :=
  op ++ bank.bit ++ wlog ++ 0#3 ++ base

/-- The descriptor of a command (30_encoding.md R110 to R116); the ignored parts of `data` are zero. -/
def encode : Instr → Descriptor
  | .rd32 b off => ⟨wordM 0x01#8 b off, 0#64⟩
  | .wr32 b off v => ⟨wordM 0x02#8 b off, v.setWidth 64⟩
  | .srrd r => ⟨wordS 0x03#8 r, 0#64⟩
  | .srwr r v => ⟨wordS 0x04#8 r, v⟩
  | .frd b w base index => ⟨wordF 0x08#8 b w base, index.setWidth 64⟩
  | .fwr b w base index v => ⟨wordF 0x09#8 b w base, 0#16 ++ v ++ index⟩
  | .dInit => ⟨wordN 0x10#8, 0#64⟩
  | .dSetGrp id v => ⟨wordI 0x11#8 v id, 0#64⟩
  | .dSetEn id => ⟨wordI 0x12#8 0#8 id, 0#64⟩
  | .dClrEn id => ⟨wordI 0x13#8 0#8 id, 0#64⟩
  | .dSetPri id v => ⟨wordI 0x14#8 v id, 0#64⟩
  | .dSetTgt id v => ⟨wordI 0x15#8 v id, 0#64⟩
  | .dSetCfg id v => ⟨wordI 0x16#8 v id, 0#64⟩
  | .dSetPend id => ⟨wordI 0x17#8 0#8 id, 0#64⟩
  | .dClrPend id => ⟨wordI 0x18#8 0#8 id, 0#64⟩
  | .dGetPend id => ⟨wordI 0x19#8 0#8 id, 0#64⟩
  | .rInit bound => ⟨wordN 0x20#8, bound.setWidth 64⟩
  | .rSetGrp id v => ⟨wordI 0x21#8 v id, 0#64⟩
  | .rSetEn id => ⟨wordI 0x22#8 0#8 id, 0#64⟩
  | .rClrEn id => ⟨wordI 0x23#8 0#8 id, 0#64⟩
  | .rSetPri id v => ⟨wordI 0x24#8 v id, 0#64⟩
  | .rGetPri id => ⟨wordI 0x25#8 0#8 id, 0#64⟩
  | .rSetCfg id v => ⟨wordI 0x26#8 v id, 0#64⟩
  | .rSetPend id => ⟨wordI 0x27#8 0#8 id, 0#64⟩
  | .rClrPend id => ⟨wordI 0x28#8 0#8 id, 0#64⟩
  | .rGetPend id => ⟨wordI 0x29#8 0#8 id, 0#64⟩
  | .cInit => ⟨wordN 0x30#8, 0#64⟩
  | .cSre => ⟨wordN 0x31#8, 0#64⟩
  | .cPmr => ⟨wordN 0x32#8, 0#64⟩
  | .cGrp1en => ⟨wordN 0x33#8, 0#64⟩
  | .cUnmask => ⟨wordN 0x34#8, 0#64⟩
  | .cAck => ⟨wordN 0x35#8, 0#64⟩
  | .cEoi => ⟨wordN 0x36#8, 0#64⟩
  | .vInstall addr => ⟨wordN 0x40#8, addr⟩
  | .vCurel => ⟨wordN 0x41#8, 0#64⟩
  | .tArm => ⟨wordN 0x50#8, 0#64⟩
  | .tHandle => ⟨wordN 0x51#8, 0#64⟩
  | .oStep => ⟨wordN 0x60#8, 0#64⟩
  | .oPoll => ⟨wordN 0x61#8, 0#64⟩

/-! ## The opcode table's numbering -/

/-- The descriptor whose bits, with bit 0 the least significant bit of `cw` and `data` from bit 32 on, are the low
`nbits` bits of `w`; every bit above is 0. A descriptor has 96 bits (30_encoding.md R110). -/
def tableDescriptor (nbits w : Nat) : Descriptor :=
  let bits := w % 2 ^ min nbits 96
  ⟨BitVec.ofNat 32 bits, BitVec.ofNat 64 (bits >>> 32)⟩

/-- The command the decoder reads from a word of spec/opcode_table.json; `none` where it refuses. -/
def decodeTableWord (nbits w : Nat) : Option Instr :=
  match decode (tableDescriptor nbits w) with
  | .ok i => some i
  | .error _ => none

end Sys2Proof
end

