-- ==== Sys2Proof/Config.lean ====
section
/-!
DEFINITION. What one platform or one run fixes and the rules leave open: the OPEN parameters of 00_scope.md section 6,
the UNSPEC reset values of 10_state.md R60, the events an environment chooses, and the opaque draws. The named constants
of 00_scope.md section 6 that the spec does fix (bit positions, `TIMER_ID`, `SGI_OFF`, ...) are here too.
-/

namespace Sys2Proof

/-- The OPEN parameters of 00_scope.md section 6, arguments fixed for one run (R5). They are a field of State that no
step changes, so a claim about every state quantifies over them (entry 4).
`TIMER_DELTA` is a function of the frequency; the block applies it to `TIMER_FREQ` only, and `timerDelta` is its value
there (entry 15). DESIGN CHOICE, safe. -/
structure Config where
  /-- `N_IDS` is `32 * (idBlocks + 1)`: a multiple of 32 from 32 to 1024 (20_memory.md R82). -/
  idBlocks : Fin 32
  dBase : DWord
  rBase : DWord
  timerFreq : Word
  timerDelta : Word
  wakeBound : Word
  vectorBase : DWord
  sreSticks : Bool
  bootEl : BitVec 2
  spSel : Bool
  deriving DecidableEq, Repr, Inhabited

/-- `N_IDS`, the number of interrupt IDs the distributor stores. -/
def Config.nIds (c : Config) : Nat := 32 * (c.idBlocks.val + 1)

/-- The byte length of bank D's map (20_memory.md R81). -/
def bankDSpan : Nat := 0xD00

/-- The byte length of bank R's map (20_memory.md R81). -/
def bankRSpan : Nat := 0x10C08

/-- `SGI_OFF` (00_scope.md section 6): the redistributor's SGI region. -/
def sgiOff : Nat := 0x10000

/-- `TIMER_ID` (00_scope.md section 6). -/
def timerId : Nat := 30

/-- `SPURIOUS_ID` (00_scope.md section 6). -/
def spuriousId : Nat := 1023

/-- `PMR_OPEN` (00_scope.md section 6). -/
def pmrOpen : DWord := 0xFF#64

/-- The constraints 00_scope.md section 6 and 20_memory.md R81 put on the OPEN parameters, and one that no rule puts:
that neither bank's map runs past the top of the 64-bit physical addresses. DESIGN CHOICE (entry 23), unsafe for a claim
that takes this predicate as a premise; no meaning reads it. -/
def Config.legal (c : Config) : Bool :=
  decide (c.timerFreq ≠ 0#32)
    && decide (1 ≤ c.timerDelta.toNat) && decide (c.timerDelta.toNat < 2 ^ 31)
    && decide (1 ≤ c.wakeBound.toNat)
    && decide (1 ≤ c.bootEl.toNat)
    && decide (c.dBase.toNat + bankDSpan ≤ 2 ^ 64) && decide (c.rBase.toNat + bankRSpan ≤ 2 ^ 64)
    && (decide (c.dBase.toNat + bankDSpan ≤ c.rBase.toNat)
      || decide (c.rBase.toNat + bankRSpan ≤ c.dBase.toNat))

/-- The parameter values every vector of 95_test_vectors.md section 0 uses; the two bank bases, which it does not
name, are 0 and 0x10000. DESIGN CHOICE (entry 4), unsafe for a claim about `State.reset` alone. -/
def Config.vectors : Config where
  idBlocks := 1
  dBase := 0x0#64
  rBase := 0x10000#64
  timerFreq := 1000#32
  timerDelta := 1000#32
  wakeBound := 4#32
  vectorBase := 0x80000#64
  sreSticks := true
  bootEl := 1#2
  spSel := true

/-- The per-interrupt arrays a bank stores, as the 32-bit registers of its windows (10_state.md R27 to R30, R32, R34;
40_transactions.md R150): `blocks` registers of 1-bit fields, 8 * `blocks` of 8-bit fields, 2 * `blocks` of 2-bit
fields. -/
structure IrqArrays (blocks : Nat) where
  grp : Vector Word blocks
  en : Vector Word blocks
  platch : Vector Word blocks
  pri : Vector Word (8 * blocks)
  cfg : Vector Word (2 * blocks)
  deriving DecidableEq, Repr, Inhabited

/-- One value for each piece of state whose reset value is UNSPEC (10_state.md R60): the launch parameters a claim
about reset quantifies over. The `en` fields of the two arrays are not UNSPEC and are not read (reset writes 0). -/
structure Unspec where
  x : Vector DWord 31
  pc : DWord
  elr : DWord
  spsr : DWord
  vbar : DWord
  dArr : IrqArrays 32
  dTgt : Vector Word 256
  rArr : IrqArrays 1
  bpr : BitVec 3
  cnt : DWord
  ctx : Vector DWord 33
  deriving DecidableEq, Repr, Inhabited

/-- Arrays of zeros, the start state of the vectors. -/
def IrqArrays.zero (blocks : Nat) : IrqArrays blocks where
  grp := Vector.replicate blocks 0#32
  en := Vector.replicate blocks 0#32
  platch := Vector.replicate blocks 0#32
  pri := Vector.replicate (8 * blocks) 0#32
  cfg := Vector.replicate (2 * blocks) 0#32

/-- `x[k] = 0x1000 + k` (95_test_vectors.md section 0). -/
def vectorRegs : Vector DWord 31 := Vector.ofFn fun k => BitVec.ofNat 64 (0x1000 + k.val)

/-- The choices of 95_test_vectors.md section 0 for what reset leaves UNSPEC; zero where it names none.
DESIGN CHOICE (entry 5), unsafe for a claim about `State.reset` alone. -/
def Unspec.vectors : Unspec where
  x := vectorRegs
  pc := 0x40001000#64
  elr := 0#64
  spsr := 0#64
  vbar := 0#64
  dArr := IrqArrays.zero 32
  dTgt := Vector.replicate 256 0#32
  rArr := IrqArrays.zero 1
  bpr := 0#3
  cnt := 5000#64
  ctx := Vector.replicate 33 0#64

/-- What the processing element's own program may have put into `x` and `pc` by a step of `MAIN`
(60_exceptions.md R324). -/
structure PeRegs where
  x : Vector DWord 31
  pc : DWord
  deriving DecidableEq, Repr, Inhabited

/-- Which agent the environment lets step (00_scope.md R3); for `MAIN` also the register change of
60_exceptions.md R324, if any. -/
inductive Event where
  | main (pe : Option PeRegs)
  | handler
  | dispatch
  | tick
  | wake
  | reset
  deriving DecidableEq, Repr, Inhabited

/-- A free value: what a read of `ICC_STATUS` returns (`draw(64 bits)`, 40_transactions.md R164). Entry 6. -/
opaque Config.drawStatus : Nat → DWord

/-- A free value: bit `ISTATUS` of a read of `CNTP_CTL` while the timer is disabled (`draw(1 bit)`,
40_transactions.md R170). Entry 7. -/
opaque Config.drawIstatus : Nat → Bool

/-- A free value: the UNSPEC values drawn afresh at a later reset (70_reset_and_hazards.md R350). Entry 20. -/
opaque Config.drawUnspec : Nat → Unspec

/-- A free value: the agent that steps when `env.sched` names none. Entry 2. -/
opaque Config.drawEvent : Nat → Event

end Sys2Proof
end

