-- ==== Sys2Proof/Machine/State.lean ====
section
/-!
DEFINITION. The architectural state of the block (10_state.md), as plain data grouped by unit, the reasons a step can
stop, and the state after reset (R60). The last two fields are the model's own: the launch parameters (entry 4) and the
environment's inputs (entries 2, 3, 10).
-/

namespace Sys2Proof.Machine

/-- The faults of 00_scope.md R7, the closed list. A fault stops the machine; it is never a value. Each stands for a
behaviour the source calls unpredictable or gives no meaning, so it is safe: no claim about a next state can be proved
from it. -/
inductive Fault where
  /-- A write to the SGI region or to a CPU-interface register while the redistributor is not awake
  (40_transactions.md R149). Raised by `memWrite` and `sysWrite`. Safe. -/
  | asleep
  /-- A bank offset that is in no window (20_memory.md R86). Raised by `memRead` and `memWrite`. Safe. -/
  | unmapped
  /-- A bank offset that is not a multiple of 4 (20_memory.md R85). Raised by `memRead` and `memWrite`. Safe. -/
  | misaligned
  /-- A trap with no usable vector base (45_vector_dispatch.md R252). Raised by `takeTrap`. Safe. -/
  | noVector
  /-- A Group 0 interrupt in the delivery position after a step (60_exceptions.md R305). Raised by `settle`. Safe. -/
  | group0Delivery
  /-- A write to a read-only system register, or one that puts an awake redistributor back to sleep
  (40_transactions.md R148, R164, R166, R172). Raised by `memWrite` and `sysWrite`. Safe. -/
  | reservedWrite
  /-- A system-register access or `C.UNMASK` at exception level 0 (60_exceptions.md R317). Raised by `sysRead`,
  `sysWrite` and `C.UNMASK`. Safe; no run from reset reaches it when `BOOT_EL` is 1 or more. -/
  | el0
  deriving DecidableEq, Repr, Inhabited

/-- Refusals of the MODEL. Only an arm of `exec` for a command with no meaning yet would answer one, and there is no
such arm. (A word that spells no command is not refused by the model: the block answers it with `ERR_ILLEGAL`.) -/
inductive Refusal where
  /-- The command with this mnemonic has no meaning in the model. Safe. -/
  | notModelled (mnemonic : String)
  deriving DecidableEq, Repr

/-- The classes of the vector table (60_exceptions.md R300, 45_vector_dispatch.md R252). -/
inductive ExcClass where
  | sync
  | irq
  | fiq
  | serror
  deriving DecidableEq, Repr, Inhabited

/-- The status a command returns on `RSP` (30_encoding.md R124). -/
inductive Status where
  | ok
  | errContract
  | errTimeout
  | errPending
  | errSre
  | errState
  | errIllegal
  deriving DecidableEq, Repr, Inhabited

/-- Processor state (10_state.md R22): the four mask bits (1 = masked), exception level, stack-pointer select. -/
structure PState where
  d : Bool
  a : Bool
  i : Bool
  f : Bool
  el : BitVec 2
  spSel : Bool
  deriving DecidableEq, Repr, Inhabited

/-- Processing-element context (10_state.md R20 to R24). -/
structure Pe where
  x : Vector DWord 31
  pc : DWord
  pstate : PState
  elr : DWord
  spsr : DWord
  vbar : DWord
  vbarValid : Bool
  deriving DecidableEq, Repr, Inhabited

/-- `D_CTLR`, its four fields; every other bit is RES0 (10_state.md R26). -/
structure DCtlr where
  enG0 : Bool
  enG1 : Bool
  are : Bool
  ds : Bool
  deriving DecidableEq, Repr, Inhabited

/-- Bank D (10_state.md R26 to R32). The arrays have room for the largest `N_IDS`; only the registers the map of
20_memory.md R82 has are reached (entry 18). -/
structure Distributor where
  ctlr : DCtlr
  arr : IrqArrays 32
  tgt : Vector Word 256
  deriving DecidableEq, Repr, Inhabited

/-- Bank R (10_state.md R33, R34): `R_WAKER.PS`, `R_WAKER.CA` and the arrays of IDs 0 to 31. -/
structure Redistributor where
  ps : Bool
  ca : Bool
  arr : IrqArrays 1
  deriving DecidableEq, Repr, Inhabited

/-- CPU interface (10_state.md R35 to R40). `acked` is `ACKED[id]`, 32 IDs a word. -/
structure CpuInterface where
  sre : Bool
  grp1en : Bool
  pmr : BitVec 8
  bpr : BitVec 3
  acked : Vector Word 32
  curId : Option Nat
  deriving DecidableEq, Repr, Inhabited

/-- Timer (10_state.md R41 to R43). -/
structure Timer where
  cnt : DWord
  cval : DWord
  enable : Bool
  imask : Bool
  deriving DecidableEq, Repr, Inhabited

/-- Why the orchestration sequencer failed (10_state.md R48). -/
inductive FailKind where
  | timeout
  | sre
  | pending
  | contract
  deriving DecidableEq, Repr, Inhabited

/-- The orchestration state (10_state.md R48). -/
inductive Orch where
  | uninitialized
  | vectorInstalled
  | distributorConfigured
  | redistributorAwake
  | cpuInterfaceReady
  | timerInterruptConfigured
  | timerArmed
  | running
  | failed (kind : FailKind)
  deriving DecidableEq, Repr, Inhabited

/-- A command in flight (10_state.md R49): the decoded command, the index of its next transaction, and the value it
holds between transactions. -/
structure InFlight where
  cmd : Instr
  index : Nat
  held : DWord
  deriving DecidableEq, Repr, Inhabited

/-- Where the dispatch router stands (10_state.md R49). -/
inductive Disp where
  | idle
  | entered (c : ExcClass)
  | inRoutine (c : ExcClass) (k : Nat)
  deriving DecidableEq, Repr, Inhabited

/-- Sequencer and dispatch state (10_state.md R46, R48 to R50). -/
structure Sequencer where
  orch : Orch
  mainCmd : Option InFlight
  handlerCmd : Option InFlight
  disp : Disp
  ctx : Vector DWord 33
  frameValid : Bool
  tDelta : Word
  tDiag : DWord
  deriving DecidableEq, Repr, Inhabited

/-- Why the hardware thread halted (10_state.md R51). -/
inductive Halt where
  | syncException
  | unexpectedClass (c : ExcClass)
  deriving DecidableEq, Repr, Inhabited

/-- The response registers (10_state.md R59). -/
structure Rsp where
  status : BitVec 4
  rdata : DWord
  deriving DecidableEq, Repr, Inhabited

/-- The environment's inputs, the MODEL's own fields: the commands it will present on `CMD`, oldest first (entry 3);
the agents it lets step, next first (entry 2); the number of steps taken, the argument of every draw (entry 10). -/
structure Env where
  cmdIn : List Descriptor
  sched : List Event
  clock : Nat
  deriving DecidableEq, Repr, Inhabited

/-- The whole state of the block, plain data. -/
structure State where
  pe : Pe
  dist : Distributor
  redist : Redistributor
  cpu : CpuInterface
  timer : Timer
  seq : Sequencer
  halt : Option Halt
  fault : Option Fault
  rsp : Rsp
  cfg : Config
  env : Env
  deriving DecidableEq, Repr, Inhabited

/-- The state of 10_state.md R60 for the launch parameters `c`, the UNSPEC values `u`, the environment `e` and the
sticky fault `f` (which a reset leaves alone, R52). -/
def State.resetWith (c : Config) (u : Unspec) (e : Env) (f : Option Fault) : State where
  pe :=
    { x := u.x, pc := u.pc
      pstate := { d := true, a := true, i := true, f := true, el := c.bootEl, spSel := c.spSel }
      elr := u.elr, spsr := u.spsr, vbar := u.vbar, vbarValid := false }
  dist :=
    { ctlr := { enG0 := false, enG1 := false, are := false, ds := false }
      arr := { u.dArr with en := Vector.replicate 32 0#32 }
      tgt := u.dTgt }
  redist := { ps := true, ca := true, arr := { u.rArr with en := Vector.replicate 1 0#32 } }
  cpu :=
    { sre := false, grp1en := false, pmr := 0#8, bpr := u.bpr
      acked := Vector.replicate 32 0#32, curId := none }
  timer := { cnt := u.cnt, cval := 0#64, enable := false, imask := false }
  seq :=
    { orch := .uninitialized, mainCmd := none, handlerCmd := none, disp := .idle
      ctx := u.ctx, frameValid := false, tDelta := 0#32, tDiag := 0#64 }
  halt := none
  fault := f
  rsp := { status := 0#4, rdata := 0#64 }
  cfg := c
  env := e

/-- The machine right after the first reset of a run, with the values 95_test_vectors.md section 0 names for what the
spec leaves OPEN or UNSPEC (entries 4 and 5), nothing presented and nothing scheduled. -/
def State.reset : State := State.resetWith Config.vectors Unspec.vectors { cmdIn := [], sched := [], clock := 0 } none

/-- The 4-bit code of a status (30_encoding.md R124). -/
def Status.code : Status → BitVec 4
  | .ok => 0#4
  | .errContract => 1#4
  | .errTimeout => 2#4
  | .errPending => 3#4
  | .errSre => 4#4
  | .errState => 5#4
  | .errIllegal => 15#4

end Sys2Proof.Machine
end

