-- ==== Sys2Proof/Machine/Operands.lean ====
section
/-!
DEFINITION. Operand forms: the register a bank offset selects (30_encoding.md R129), the geometry of a window and of the
field accessor (40_transactions.md R150, 41_field_accessor.md R180), the fields of a register word, and the physical
placement of the banks and of the frame on a platform (20_memory.md R81, R87; 45_vector_dispatch.md R254).
-/

namespace Sys2Proof.Machine

/-- A register of a bank (20_memory.md R82, R83): a control register, or register `n` of a window. -/
inductive BankReg where
  | ctlr
  | waker
  | grp (n : Nat)
  | setEn (n : Nat)
  | clrEn (n : Nat)
  | setPend (n : Nat)
  | clrPend (n : Nat)
  | pri (n : Nat)
  | tgt (n : Nat)
  | cfg (n : Nat)
  deriving DecidableEq, Repr

/-- Blocks of 32 IDs a bank has room for: 1024 IDs in bank D, 32 in bank R. -/
def blocksOf : Bank → Nat
  | .D => 32
  | .R => 1

/-- IDs the arrays of a bank store: `N_IDS` in bank D, `N_RIDS` = 32 in bank R (00_scope.md section 6). -/
def idsOf (nIds : Nat) : Bank → Nat
  | .D => nIds
  | .R => 32

/-- Is `off` the offset of one of the `count` registers of the window at `base`? -/
def inWindow (base count off : Nat) : Bool := decide (base ≤ off) && decide (off < base + 4 * count)

/-- The per-interrupt windows common to both banks, at their sub-offsets (20_memory.md R82, R83), for a bank that
stores `ids` IDs. -/
def windowReg (ids sub : Nat) : Option BankReg :=
  if inWindow 0x080 (ids / 32) sub then some (.grp ((sub - 0x080) / 4))
  else if inWindow 0x100 (ids / 32) sub then some (.setEn ((sub - 0x100) / 4))
  else if inWindow 0x180 (ids / 32) sub then some (.clrEn ((sub - 0x180) / 4))
  else if inWindow 0x200 (ids / 32) sub then some (.setPend ((sub - 0x200) / 4))
  else if inWindow 0x280 (ids / 32) sub then some (.clrPend ((sub - 0x280) / 4))
  else if inWindow 0x400 (ids / 4) sub then some (.pri ((sub - 0x400) / 4))
  else if inWindow 0xC00 (ids / 16) sub then some (.cfg ((sub - 0xC00) / 4))
  else none

/-- The register at byte offset `off` (a multiple of 4) of a bank; `none` is unmapped (20_memory.md R82, R83, R86).
Bank R has its per-interrupt windows at `SGI_OFF` and no target window. -/
def bankReg (nIds : Nat) (b : Bank) (off : Nat) : Option BankReg :=
  match b with
  | .D =>
    if inWindow 0x000 1 off then some .ctlr
    else if inWindow 0x800 (nIds / 4) off then some (.tgt ((off - 0x800) / 4))
    else windowReg nIds off
  | .R =>
    if inWindow 0x014 1 off then some .waker
    else if sgiOff ≤ off then windowReg 32 (off - sgiOff)
    else none

/-! ## Windows of 1-, 2- and 8-bit fields (40_transactions.md R150) -/

/-- Register `n` of a window. -/
def wordAt {k : Nat} (v : Vector Word k) (n : Nat) : Word := v[n]?.getD 0#32

/-- The 1-bit entry of interrupt `id`: bit `id mod 32` of register `id div 32`. -/
def bitAt {k : Nat} (v : Vector Word k) (id : Nat) : Bool := (wordAt v (id / 32)).getLsbD (id % 32)

/-- The 8-bit entry of interrupt `id`: byte `id mod 4` of register `id div 4`. -/
def byteAt {k : Nat} (v : Vector Word k) (id : Nat) : BitVec 8 :=
  (wordAt v (id / 4)).extractLsb' (8 * (id % 4)) 8

/-- The 2-bit entry of interrupt `id`: field `id mod 16` of register `id div 16`. -/
def pairAt {k : Nat} (v : Vector Word k) (id : Nat) : BitVec 2 :=
  (wordAt v (id / 16)).extractLsb' (2 * (id % 16)) 2

/-- A word with bit `k` alone set. -/
def bitMask (k : Nat) : Word := 1#32 <<< k

/-- The 1-bit entry of `id` set or cleared, every other entry kept. -/
def putBit {k : Nat} (v : Vector Word k) (id : Nat) (b : Bool) : Vector Word k :=
  v.setIfInBounds (id / 32)
    (if b then wordAt v (id / 32) ||| bitMask (id % 32) else wordAt v (id / 32) &&& ~~~bitMask (id % 32))

/-- The word whose bit `k`, for every `k` below `n`, is `f k`, and whose other bits are 0. -/
def packBelow (f : Nat → Bool) : Nat → Word
  | 0 => 0#32
  | n + 1 => if f n then packBelow f n ||| bitMask n else packBelow f n

/-- The word whose bit `k`, for every `k` below 32, is `f k`. -/
def packBits (f : Nat → Bool) : Word := packBelow f 32

/-! ## The field accessor (41_field_accessor.md R180) -/

/-- `field_width = 1 << wlog` (30_encoding.md R117). -/
def widthOf (wlog : BitVec 3) : Nat := 2 ^ wlog.toNat

/-- Entries per register, `e = 32 div w`. -/
def entriesOf (wlog : BitVec 3) : Nat := 32 / widthOf wlog

/-- `regoff = base + 4 * (index div e)`, without wrap-around. -/
def fieldOff (wlog : BitVec 3) (base index : Nat) : Nat := base + 4 * (index / entriesOf wlog)

/-- `shift = (index mod e) * w`. -/
def fieldShift (wlog : BitVec 3) (index : Nat) : Nat := index % entriesOf wlog * widthOf wlog

/-- `mask = (1 << w) - 1`, as a 32-bit value. -/
def fieldMask (wlog : BitVec 3) : Word := bitMask (widthOf wlog) - 1#32

/-- The field read out of a register: `(r >> shift) & mask` (R181). -/
def fieldGet (wlog : BitVec 3) (index : Nat) (r : Word) : Word := r >>> fieldShift wlog index &&& fieldMask wlog

/-- The register with the field replaced: `(r & ~(mask << shift)) | ((value & mask) << shift)` (R182). -/
def fieldPut (wlog : BitVec 3) (index : Nat) (r value : Word) : Word :=
  (r &&& ~~~(fieldMask wlog <<< fieldShift wlog index)) |||
    ((value &&& fieldMask wlog) <<< fieldShift wlog index)

/-- The `wlog` codes of the 1-, 2- and 8-bit windows. -/
def wlogBit : BitVec 3 := 0#3
def wlogPair : BitVec 3 := 1#3
def wlogByte : BitVec 3 := 3#3

/-! ## Physical placement (20_memory.md R81, R87) -/

/-- The physical address of an offset of a bank. -/
def busAddr (c : Config) (b : Bank) (off : Nat) : DWord :=
  match b with
  | .D => c.dBase + BitVec.ofNat 64 off
  | .R => c.rBase + BitVec.ofNat 64 off

/-- The bank and offset a physical address falls into, if any. -/
def busTarget (c : Config) (addr : DWord) : Option (Bank × Nat) :=
  if (addr - c.dBase).toNat < bankDSpan then some (.D, (addr - c.dBase).toNat)
  else if (addr - c.rBase).toNat < bankRSpan then some (.R, (addr - c.rBase).toNat)
  else none

/-- Byte `k` of a little-endian word (20_memory.md R87): the byte at the word's lowest address is bits 7:0. -/
def leByte {w : Nat} (v : BitVec w) (k : Nat) : Byte := v.extractLsb' (8 * k) 8

end Sys2Proof.Machine
end

