-- ==== Sys2Proof/Machine/Flags.lean ====
section
/-!
DEFINITION. The derived signals of 10_state.md section 7 (R47, R53 to R58), the register views of the status bits, and the
packing of the saved processor state (45_vector_dispatch.md R256). None is storage; none changes the state.
-/

namespace Sys2Proof.Machine

/-- The per-interrupt arrays of a bank. -/
def State.arrays (s : State) : (b : Bank) → IrqArrays (blocksOf b)
  | .D => s.dist.arr
  | .R => s.redist.arr

/-- `N_IDS` of this run. -/
def State.nIds (s : State) : Nat := s.cfg.nIds

/-! ## Timer (10_state.md R47) -/

/-- `timer_cond`: the counter has reached the compare value, unsigned. -/
def timerCond (s : State) : Bool := decide (s.timer.cval ≤ s.timer.cnt)

/-- `ISTATUS`. -/
def istatus (s : State) : Bool := s.timer.enable && timerCond s

/-- `timer_line`, the wire of interrupt ID 30. -/
def timerLine (s : State) : Bool := s.timer.enable && !s.timer.imask && timerCond s

/-- `line(id)`: only `TIMER_ID` has a wire. -/
def line (s : State) (id : Nat) : Bool := id == timerId && timerLine s

/-! ## Interrupts (10_state.md R53 to R58) -/

/-- The effective bank of an interrupt (R53). -/
def bankOf (s : State) (id : Nat) : Bank := if decide (id < 32) && s.dist.ctlr.are then .R else .D

/-- Edge-triggered by bit `CFG_EDGE_BIT` = 1 of the config entry (R55). -/
def edge (s : State) (b : Bank) (id : Nat) : Bool := (pairAt (s.arrays b).cfg id).getLsbD 1

/-- Level-sensitive (R55). -/
def level (s : State) (b : Bank) (id : Nat) : Bool := !edge s b id

/-- The pending latch of an interrupt in a bank (10_state.md R29, R34). -/
def latch (s : State) (b : Bank) (id : Nat) : Bool := bitAt (s.arrays b).platch id

/-- The pending view of an interrupt in a bank (R54). -/
def pend (s : State) (b : Bank) (id : Nat) : Bool :=
  latch s b id || (decide (b = bankOf s id) && level s b id && line s id)

/-- The enable bit of an interrupt in a bank (10_state.md R28, R34). -/
def enabled (s : State) (b : Bank) (id : Nat) : Bool := bitAt (s.arrays b).en id

/-- The group bit of an interrupt in a bank: 1 is Group 1 (10_state.md R27, R34). -/
def group1 (s : State) (b : Bank) (id : Nat) : Bool := bitAt (s.arrays b).grp id

/-- The priority of an interrupt in a bank (10_state.md R30, R34). -/
def priority (s : State) (b : Bank) (id : Nat) : BitVec 8 := byteAt (s.arrays b).pri id

/-- `ACKED[id]` (10_state.md R40). -/
def acked (s : State) (id : Nat) : Bool := bitAt s.cpu.acked id

/-- The redistributor has completed the wake handshake (R56). -/
def awake (s : State) : Bool := !s.redist.ps && !s.redist.ca

/-- The distributor forwards the group of this interrupt (R56). -/
def grpEn (s : State) (id : Nat) : Bool :=
  s.dist.ctlr.ds && (if group1 s (bankOf s id) id then s.dist.ctlr.enG1 else s.dist.ctlr.enG0)

/-- The interrupt is routed to this processing element (R56): always under affinity routing, else by target bit 0. -/
def routed (s : State) (id : Nat) : Bool := s.dist.ctlr.are || (byteAt s.dist.tgt id).getLsbD 0

/-- `fwd(id)` (R56). -/
def fwd (s : State) (id : Nat) : Bool :=
  enabled s (bankOf s id) id && pend s (bankOf s id) id && !acked s id && grpEn s id && routed s id && awake s

/-- `id` is in `cand`: forwarded, with a priority strictly below the mask (R56, 60_exceptions.md R306). -/
def cand (s : State) (id : Nat) : Bool :=
  fwd s id && decide (priority s (bankOf s id) id < s.cpu.pmr)

/-- Of the candidates below `n`, the one with the smallest priority value, and among equals the smallest ID. -/
def bestBelow (s : State) : Nat → Option Nat
  | 0 => none
  | n + 1 =>
    if cand s n then
      match bestBelow s n with
      | none => some n
      | some b => if priority s (bankOf s n) n < priority s (bankOf s b) b then some n else some b
    else bestBelow s n

/-- `hppi`, the highest-priority pending interrupt (R56, 60_exceptions.md R307). -/
def hppi (s : State) : Option Nat := bestBelow s s.nIds

/-- `irq_signal` (R57). -/
def irqSignal (s : State) : Bool :=
  s.cpu.sre && s.cpu.grp1en &&
    match hppi s with
    | none => false
    | some id => group1 s (bankOf s id) id

/-- `take_irq` (R57). -/
def takeIrq (s : State) : Bool := irqSignal s && !s.pe.pstate.i

/-- A Group 0 interrupt stands in the delivery position (60_exceptions.md R305). -/
def group0InDelivery (s : State) : Bool :=
  match hppi s with
  | none => false
  | some id => !group1 s (bankOf s id) id

/-- The four states of the interrupt lifecycle (10_state.md R58). -/
inductive Lifecycle where
  | configured
  | enabled
  | pending
  | acknowledged
  deriving DecidableEq, Repr

/-- The lifecycle state of an interrupt (R58). -/
def lifecycleOf (s : State) (id : Nat) : Lifecycle :=
  if enabled s (bankOf s id) id then
    if acked s id then .acknowledged
    else if pend s (bankOf s id) id then .pending
    else .enabled
  else .configured

/-! ## Register views -/

/-- A word with the value of a one-bit field at bit `k`. -/
def flagBit {w : Nat} (b : Bool) (k : Nat) : BitVec w := if b then 1#w <<< k else 0#w

/-- `D_CTLR` as read (40_transactions.md R142). -/
def ctlrWord (c : DCtlr) : Word := flagBit c.enG0 0 ||| flagBit c.enG1 1 ||| flagBit c.are 4 ||| flagBit c.ds 6

/-- `R_WAKER` as read (40_transactions.md R148). -/
def wakerWord (r : Redistributor) : Word := flagBit r.ps 1 ||| flagBit r.ca 2

/-- `DAIF` as read (40_transactions.md R171). -/
def daifWord (p : PState) : DWord := flagBit p.d 9 ||| flagBit p.a 8 ||| flagBit p.i 7 ||| flagBit p.f 6

/-- `CurrentEL` as read: the level in bits 3:2 (40_transactions.md R172). -/
def currentElWord (p : PState) : DWord := p.el.setWidth 64 <<< 2

/-- `CNTP_CTL` as read: `ISTATUS` is a free value while the timer is disabled (40_transactions.md R170, entry 7). -/
def timerCtlWord (s : State) : DWord :=
  flagBit s.timer.enable 0 ||| flagBit s.timer.imask 1 |||
    flagBit (if s.timer.enable then istatus s else Config.drawIstatus s.env.clock) 2

/-- `pack(p)` (45_vector_dispatch.md R256). -/
def packPState (p : PState) : DWord := daifWord p ||| currentElWord p ||| flagBit p.spSel 0

/-- `unpack(s)` (45_vector_dispatch.md R256). -/
def unpackPState (v : DWord) : PState where
  d := v.getLsbD 9
  a := v.getLsbD 8
  i := v.getLsbD 7
  f := v.getLsbD 6
  el := v.extractLsb' 2 2
  spSel := v.getLsbD 0

end Sys2Proof.Machine
end

