-- ==== Sys2Proof/Machine/Ops.lean ====
section
/-!
DEFINITION. The named operations over the registers: the four transactions of 40_transactions.md, taking a trap and
returning from one (60_exceptions.md), the acknowledge, edge capture, and the byte view a platform bus has.
-/

namespace Sys2Proof.Machine

/-- The state with the per-interrupt arrays of one bank replaced; the other bank's are separate storage
(10_state.md R62). -/
def State.setArrays (s : State) : (b : Bank) → IrqArrays (blocksOf b) → State
  | .D, a => { s with dist.arr := a }
  | .R, a => { s with redist.arr := a }

/-! ## Bank transactions (40_transactions.md R140 to R149) -/

/-- What a read of a register returns (R142 to R148); no read changes the state (20_memory.md R88). -/
def regRead (s : State) (b : Bank) : BankReg → Word
  | .ctlr => ctlrWord s.dist.ctlr
  | .waker => wakerWord s.redist
  | .grp n => wordAt (s.arrays b).grp n
  | .setEn n => wordAt (s.arrays b).en n
  | .clrEn _ => 0#32
  | .setPend n => packBits fun k => pend s b (32 * n + k)
  | .clrPend _ => 0#32
  | .pri n => wordAt (s.arrays b).pri n
  | .tgt n => wordAt s.dist.tgt n
  | .cfg n => wordAt (s.arrays b).cfg n

/-- A write of `D_CTLR` (R142): `DS` can be set and never cleared; the other three bits take only if `DS` was 1. -/
def ctlrWrite (c : DCtlr) (v : Word) : DCtlr where
  ds := c.ds || v.getLsbD 6
  enG0 := if c.ds then v.getLsbD 0 else c.enG0
  enG1 := if c.ds then v.getLsbD 1 else c.enG1
  are := if c.ds then v.getLsbD 4 else c.are

/-- What a write of `v` to a register does (R142 to R148). -/
def regWrite (s : State) (b : Bank) (r : BankReg) (v : Word) : Except Fault State :=
  match r with
  | .ctlr => .ok { s with dist.ctlr := ctlrWrite s.dist.ctlr v }
  | .waker =>
    if v.getLsbD 1 = false then .ok { s with redist.ps := false }
    else if s.redist.ps then .ok s
    else .error .reservedWrite
  | .grp n => .ok (s.setArrays b { s.arrays b with grp := (s.arrays b).grp.setIfInBounds n v })
  | .setEn n =>
    .ok (s.setArrays b
      { s.arrays b with en := (s.arrays b).en.setIfInBounds n (wordAt (s.arrays b).en n ||| v) })
  | .clrEn n =>
    .ok (s.setArrays b
      { s.arrays b with en := (s.arrays b).en.setIfInBounds n (wordAt (s.arrays b).en n &&& ~~~v) })
  | .setPend n =>
    .ok (s.setArrays b
      { s.arrays b with platch := (s.arrays b).platch.setIfInBounds n (wordAt (s.arrays b).platch n ||| v) })
  | .clrPend n =>
    .ok (s.setArrays b
      { s.arrays b with platch := (s.arrays b).platch.setIfInBounds n (wordAt (s.arrays b).platch n &&& ~~~v) })
  | .pri n => .ok (s.setArrays b { s.arrays b with pri := (s.arrays b).pri.setIfInBounds n v })
  | .tgt n => .ok { s with dist.tgt := s.dist.tgt.setIfInBounds n v }
  | .cfg n => .ok (s.setArrays b { s.arrays b with cfg := (s.arrays b).cfg.setIfInBounds n v })

/-- `MemRead(B:off, 4)` (R140). -/
def memRead (s : State) (b : Bank) (off : Nat) : Except Fault Word :=
  if off % 4 = 0 then
    match bankReg s.nIds b off with
    | none => .error .unmapped
    | some r => .ok (regRead s b r)
  else .error .misaligned

/-- A write to this offset needs an awake redistributor: bank R at `SGI_OFF` and above (R149). -/
def needsAwake (b : Bank) (off : Nat) : Bool := b == .R && decide (sgiOff ≤ off)

/-- `MemWrite(B:off, 4, v)` (R141), its checks in the order written there. -/
def memWrite (s : State) (b : Bank) (off : Nat) (v : Word) : Except Fault State :=
  if off % 4 = 0 then
    match bankReg s.nIds b off with
    | none => .error .unmapped
    | some r => if needsAwake b off && !awake s then .error .asleep else regWrite s b r v
  else .error .misaligned

/-! ## The bus view (20_memory.md R81, R87) -/

/-- The 32-bit value a platform bus reads at a physical address of the block, `none` where no mapped register is. -/
def busRead (s : State) (addr : DWord) : Option Word :=
  match busTarget s.cfg addr with
  | none => none
  | some (b, off) =>
    match memRead s b off with
    | .ok v => some v
    | .error _ => none

/-- The byte at a physical address: byte `off mod 4` of the register at the aligned offset, little-endian. -/
def busReadByte (s : State) (addr : DWord) : Option Byte :=
  match busTarget s.cfg addr with
  | none => none
  | some (b, off) =>
    match memRead s b (off / 4 * 4) with
    | .ok v => some (leByte v (off % 4))
    | .error _ => none

/-! ## System-register transactions (40_transactions.md R160 to R173) -/

/-- What can stop a system-register transaction: a fault, or the synchronous exception `SysRegTrap(name)`. -/
inductive Stop where
  | fault (r : Fault)
  | sysRegTrap (name : SysReg)
  deriving DecidableEq, Repr

/-- The registers whose access raises `SysRegTrap` while `ICC_SRE.SRE` is 0 (R173). -/
def sreGated : SysReg → Bool
  | .iccIgrpen1 | .iccPmr | .iccStatus | .iccBpr => true
  | _ => false

/-- The registers whose write needs an awake redistributor (R149). -/
def wakeGated : SysReg → Bool
  | .iccSre | .iccIgrpen1 | .iccPmr | .iccBpr => true
  | _ => false

/-- The registers a write of which is `fault(ReservedWrite)` (R164, R166, R172). -/
def readOnlySys : SysReg → Bool
  | .iccStatus | .cntfrq | .cntpct | .currentEL => true
  | _ => false

/-- The value a read of a system register returns (R162 to R172), zero-extended to 64 bits. -/
def sysValue (s : State) : SysReg → DWord
  | .vbar => s.pe.vbar
  | .iccSre => flagBit s.cpu.sre 0
  | .iccIgrpen1 => flagBit s.cpu.grp1en 0
  | .iccPmr => s.cpu.pmr.setWidth 64
  | .iccStatus => Config.drawStatus s.env.clock
  | .iccBpr => s.cpu.bpr.setWidth 64
  | .cntfrq => s.cfg.timerFreq.setWidth 64
  | .cntpCtl => timerCtlWord s
  | .cntpTval => ((s.timer.cval - s.timer.cnt).extractLsb' 0 32).setWidth 64
  | .cntpCval => s.timer.cval
  | .cntpct => s.timer.cnt
  | .daif => daifWord s.pe.pstate
  | .currentEL => currentElWord s.pe.pstate

/-- What a write of `v` to a system register that can be written does (R162 to R171); the read-only registers are
turned away before it. -/
def sysStore (s : State) (r : SysReg) (v : DWord) : State :=
  match r with
  | .vbar => { s with pe.vbar := v, pe.vbarValid := true }
  | .iccSre => if s.cfg.sreSticks then { s with cpu.sre := v.getLsbD 0 } else s
  | .iccIgrpen1 => { s with cpu.grp1en := v.getLsbD 0 }
  | .iccPmr => { s with cpu.pmr := v.setWidth 8 }
  | .iccBpr => { s with cpu.bpr := v.setWidth 3 }
  | .cntpCtl => { s with timer.enable := v.getLsbD 0, timer.imask := v.getLsbD 1 }
  | .cntpTval => { s with timer.cval := s.timer.cnt + (v.setWidth 32).signExtend 64 }
  | .cntpCval => { s with timer.cval := v }
  | .daif =>
    { s with pe.pstate :=
        { s.pe.pstate with d := v.getLsbD 9, a := v.getLsbD 8, i := v.getLsbD 7, f := v.getLsbD 6 } }
  | .iccStatus | .cntfrq | .cntpct | .currentEL => s

/-- `SysRead(name)` (R160). -/
def sysRead (s : State) (r : SysReg) : Except Stop DWord :=
  if s.pe.pstate.el = 0#2 then .error (.fault .el0)
  else if sreGated r && !s.cpu.sre then .error (.sysRegTrap r)
  else .ok (sysValue s r)

/-- `SysWrite(name, v)` (R161), its checks in the order written there. -/
def sysWrite (s : State) (r : SysReg) (v : DWord) : Except Stop State :=
  if s.pe.pstate.el = 0#2 then .error (.fault .el0)
  else if wakeGated r && !awake s then .error (.fault .asleep)
  else if sreGated r && !s.cpu.sre then .error (.sysRegTrap r)
  else if readOnlySys r then .error (.fault .reservedWrite)
  else .ok (sysStore s r v)

/-! ## Taking a trap and returning from one (60_exceptions.md R308 to R313) -/

/-- The offset of a class in its vector group (45_vector_dispatch.md R252). -/
def classOffset : ExcClass → DWord
  | .sync => 0x000#64
  | .irq => 0x080#64
  | .fiq => 0x100#64
  | .serror => 0x180#64

/-- The vector base was written and is aligned to `0x800` (45_vector_dispatch.md R252). -/
def vectorUsable (s : State) : Bool := s.pe.vbarValid && decide (s.pe.vbar.extractLsb' 0 11 = 0#11)

/-- `vector(class)` where the base is usable (45_vector_dispatch.md R252): the group of the current level by
`SP_SEL`, plus the class. -/
def vectorAddr (s : State) (c : ExcClass) : DWord :=
  s.pe.vbar + (if s.cfg.spSel then 0x200#64 else 0x000#64) + classOffset c

/-- What every trap entry does to the processing element (60_exceptions.md R308, R313): `elr` takes `pc`, `spsr` the
packed `pstate`, all four masks are set, `pc` goes to the vector; level and stack select stay (R316). -/
def takeTrap (s : State) (c : ExcClass) : Except Fault State :=
  if vectorUsable s then
    .ok { s with pe :=
      { s.pe with
        elr := s.pe.pc
        spsr := packPState s.pe.pstate
        pstate := { s.pe.pstate with d := true, a := true, i := true, f := true }
        pc := vectorAddr s c } }
  else .error .noVector

/-- The halt reason of the fatal routine of a class (45_vector_dispatch.md R253). -/
def haltOf : ExcClass → Halt
  | .sync => .syncException
  | c => .unexpectedClass c

/-- A trap to a class whose routine is fatal (60_exceptions.md R313): the trap is taken, the command in flight is
abandoned with no response, the thread halts. -/
def fatalEnter (s : State) (c : ExcClass) : Except Fault State :=
  match takeTrap s c with
  | .ok t => .ok { t with seq.mainCmd := none, halt := some (haltOf c) }
  | .error r => .error r

/-- `SYNC-ENTER`, what the transaction that raises `SysRegTrap` does (60_exceptions.md R313). -/
def syncEnter (s : State) : Except Fault State := fatalEnter s .sync

/-- `IRQ-ENTER`, step `e1` (60_exceptions.md R308). -/
def irqEnter (s : State) : Except Fault State :=
  match takeTrap s .irq with
  | .ok t => .ok { t with cpu.curId := hppi s, seq.disp := .entered .irq }
  | .error r => .error r

/-- The frame of the context a trap left: `x[0..30]`, then `elr`, then `spsr` (45_vector_dispatch.md R254). -/
def frameOf (p : Pe) : Vector DWord 33 := p.x ++ #v[p.elr, p.spsr]

/-- `FRAME-SAVE`, step `e2` (60_exceptions.md R309). -/
def frameSave (s : State) : State :=
  { s with seq.ctx := frameOf s.pe, seq.frameValid := true, seq.disp := .inRoutine .irq 3 }

/-- Slots 0 to 30 of the frame. -/
def frameRegs (ctx : Vector DWord 33) : Vector DWord 31 := ctx.take 31

/-- Slot 31 of the frame. -/
def frameElr (ctx : Vector DWord 33) : DWord := ctx[31]

/-- Slot 32 of the frame. -/
def frameSpsr (ctx : Vector DWord 33) : DWord := ctx[32]

/-- `C.EOI`: the handling of the current interrupt ends (44_cpu_interface.md R236). -/
def endOfInterrupt (s : State) : State :=
  match s.cpu.curId with
  | none => s
  | some id => { s with cpu.acked := putBit s.cpu.acked id false }

/-- `C.ACK` for interrupt `id` (44_cpu_interface.md R235): its pending latch in the effective bank is consumed, and it
is acknowledged. -/
def acknowledge (s : State) (id : Nat) : State :=
  let b := bankOf s id
  let t := s.setArrays b { s.arrays b with platch := putBit (s.arrays b).platch id false }
  { t with cpu.acked := putBit s.cpu.acked id true }

/-- `IRQ-RETURN`, step `e5` (60_exceptions.md R312). -/
def irqReturn (s : State) : State :=
  let t := endOfInterrupt s
  { t with
    pe :=
      { t.pe with
        x := frameRegs s.seq.ctx
        elr := frameElr s.seq.ctx
        spsr := frameSpsr s.seq.ctx
        pc := frameElr s.seq.ctx
        pstate := unpackPState (frameSpsr s.seq.ctx) }
    cpu := { t.cpu with curId := none }
    seq := { t.seq with frameValid := false, disp := .idle } }

/-- The frame as a platform that keeps it in memory lays it out: slot `k` at byte `8 * k`, little-endian
(45_vector_dispatch.md R254). -/
def frameByte (s : State) (k : Nat) : Byte := leByte (s.seq.ctx[k / 8]?.getD 0#64) (k % 8)

/-! ## After every step -/

/-- Edge capture (60_exceptions.md R303): a rising wire latches an edge-triggered timer interrupt in its effective
bank, `before` and `after` being the state around a step. -/
def edgeCapture (before after : State) : State :=
  let b := bankOf after timerId
  if !timerLine before && timerLine after && edge after b timerId then
    after.setArrays b { after.arrays b with platch := putBit (after.arrays b).platch timerId true }
  else after

end Sys2Proof.Machine
end

