-- ==== Sys2Proof/Machine/Commands.lean ====
section
/-!
DEFINITION. How a command runs: a sequence of transactions with pure computation between them (00_scope.md R6). Each
transaction is a function of the value the command holds and of the state; `main_cmd` says which one is next
(10_state.md R49). The meaning of a command is its sequence, run by `runMain` one transaction a step.
-/

namespace Sys2Proof.Machine

/-- What one transaction of a command ends in. -/
inductive TxOut where
  /-- the command goes on, holding a value -/
  | hold (v : DWord) (s : State)
  /-- `return (st, v)`: the command ends -/
  | ret (st : Status) (v : DWord) (s : State)
  /-- a synchronous exception was taken in the transaction's place -/
  | trap (s : State)
  /-- a fault -/
  | fault (r : Fault)

/-- One transaction: the value held and the state before it, to its outcome. -/
abbrev Tx := DWord → State → TxOut

/-- A command as its transactions by index. -/
abbrev Prog := Nat → Tx

/-- Past the last transaction there is nothing left to do: the command ends with `(OK, 0)`. No reachable `main_cmd`
stands there (entry 11). -/
def endTx : Tx := fun _ s => .ret .ok 0#64 s

/-- The command whose transactions are the members of a list. -/
def progOf (l : List Tx) : Prog := fun k => l.getD k endTx

/-- A command that issues no transaction: one step that returns a status (42_distributor.md R190, R201). -/
def returnTxs (st : Status) : List Tx := [fun _ s => .ret st 0#64 s]

/-! ## One transaction with its continuation -/

/-- One bank read; the computation after it gets the value. -/
def bankReadTx (b : Bank) (off : Nat) (next : Word → State → TxOut) (s : State) : TxOut :=
  match memRead s b off with
  | .ok v => next v s
  | .error r => .fault r

/-- One bank write. -/
def bankWriteTx (b : Bank) (off : Nat) (v : Word) (next : State → TxOut) (s : State) : TxOut :=
  match memWrite s b off v with
  | .ok t => next t
  | .error r => .fault r

/-- The transaction takes the synchronous exception in place of its access (60_exceptions.md R301, R313). -/
def trapTx (s : State) : TxOut :=
  match syncEnter s with
  | .ok t => .trap t
  | .error r => .fault r

/-- One system-register read. -/
def sysReadTx (r : SysReg) (next : DWord → State → TxOut) (s : State) : TxOut :=
  match sysRead s r with
  | .ok v => next v s
  | .error (.fault f) => .fault f
  | .error (.sysRegTrap _) => trapTx s

/-- One system-register write. -/
def sysWriteTx (r : SysReg) (v : DWord) (next : State → TxOut) (s : State) : TxOut :=
  match sysWrite s r v with
  | .ok t => next t
  | .error (.fault f) => .fault f
  | .error (.sysRegTrap _) => trapTx s

/-! ## Read-modify-write of a bank register (00_scope.md R6: two transactions) -/

/-- `t1`: read a register and hold its value. -/
def readHoldTx (b : Bank) (off : Nat) : Tx := fun _ s =>
  bankReadTx b off (fun v t => .hold (v.setWidth 64) t) s

/-- `t2`: write back what `t1` read, changed by `f`. -/
def writeHeldTx (b : Bank) (off : Nat) (f : Word → Word) (next : State → TxOut) : Tx := fun h s =>
  bankWriteTx b off (f (h.setWidth 32)) next s

/-- `return (OK, 0)`. -/
def returnOk (s : State) : TxOut := .ret .ok 0#64 s

/-- Go on, holding nothing. -/
def goOn (s : State) : TxOut := .hold 0#64 s

/-- The two transactions of a read-modify-write that is the whole of a command. -/
def rmwTxs (b : Bank) (off : Nat) (f : Word → Word) : List Tx :=
  [readHoldTx b off, writeHeldTx b off f returnOk]

/-- `FWR(bank, base, w, index, value)` (41_field_accessor.md R182). -/
def fieldWriteTxs (b : Bank) (base : Nat) (wlog : BitVec 3) (index : Nat) (value : Word) : List Tx :=
  rmwTxs b (fieldOff wlog base index) fun r => fieldPut wlog index r value

/-- `FRD(bank, base, w, index)` (41_field_accessor.md R181). -/
def fieldReadTxs (b : Bank) (base : Nat) (wlog : BitVec 3) (index : Nat) : List Tx :=
  [fun _ s => bankReadTx b (fieldOff wlog base index)
    (fun r t => .ret .ok ((fieldGet wlog index r).setWidth 64) t) s]

/-! ## Commands inside commands -/

/-- The outcome of a transaction with what the command returns passed on to `g`. -/
def mapReturn (g : Status → DWord → State → TxOut) (o : TxOut) : TxOut :=
  match o with
  | .hold v s => .hold v s
  | .ret st v s => g st v s
  | .trap s => .trap s
  | .fault r => .fault r

/-- The same for one transaction of a command. -/
def mapReturnTx (g : Status → DWord → State → TxOut) (t : Tx) : Tx := fun h s => mapReturn g (t h s)

/-- After a command that returned `OK` the sequence goes on with the next one; any other status ends it. -/
def goOnAfterOk (st : Status) (v : DWord) (s : State) : TxOut :=
  if st = .ok then goOn s else .ret st v s

/-- The commands of a sequence run in line, one after the other (42_distributor.md, 46_timer_orchestration.md R268):
the transactions of the sequence are theirs, in order. -/
def inLine (p q : List Tx) : List Tx := p.map (mapReturnTx goOnAfterOk) ++ q

/-! ## The runner -/

/-- The position of `MAIN` in its command: index of the next transaction and value held (10_state.md R49). -/
def mainIndex (s : State) : Nat :=
  match s.seq.mainCmd with
  | some m => m.index
  | none => 0

/-- The value the command in flight holds. -/
def mainHeld (s : State) : DWord :=
  match s.seq.mainCmd with
  | some m => m.held
  | none => 0#64

/-- The command ends: `RSP` takes its status and result, and `MAIN` is idle (30_encoding.md R124). -/
def respond (s : State) (st : Status) (v : DWord) : State :=
  { s with rsp := { status := st.code, rdata := v }, seq.mainCmd := none }

/-- The command goes on: its next transaction has index `k` and it holds `v`. -/
def inFlight (s : State) (i : Instr) (k : Nat) (v : DWord) : State :=
  { s with seq.mainCmd := some { cmd := i, index := k, held := v } }

/-- One step of `MAIN`: the next transaction of command `i` (00_scope.md R3, R6). -/
def runMain (i : Instr) (p : Prog) (s : State) : Host.Outcome State Fault Refusal :=
  match p (mainIndex s) (mainHeld s) s with
  | .hold v t => .next (inFlight t i (mainIndex s + 1) v)
  | .ret st v t => .next (respond t st v)
  | .trap t => .next t
  | .fault r => .fault r

end Sys2Proof.Machine
end

