-- ==== Sys2Proof/Machine/CpuInterfaceCommands.lean ====
section
/-!
DEFINITION. The seven CPU-interface commands (44_cpu_interface.md) and the two vector commands (45_vector_dispatch.md).
-/

namespace Sys2Proof.Machine

/-- C.SRE: read `ICC_SRE`, write it with the enable bit OR-ed in, read it back (R230). -/
def cSreTxs : List Tx :=
  [fun _ => sysReadTx .iccSre fun v t => .hold v t,
   fun h => sysWriteTx .iccSre (h ||| 0x1#64) goOn,
   fun _ => sysReadTx .iccSre fun v t => .ret (if v.getLsbD 0 then .ok else .errSre) 0#64 t]

/-- C.SRE (R230). -/
def execCSre (s : State) : Host.Outcome State Fault Refusal := runMain .cSre (progOf cSreTxs) s

/-- C.PMR: the priority mask opened to `PMR_OPEN` (R231). -/
def cPmrTxs : List Tx := [fun _ => sysWriteTx .iccPmr pmrOpen returnOk]

/-- C.PMR (R231). -/
def execCPmr (s : State) : Host.Outcome State Fault Refusal := runMain .cPmr (progOf cPmrTxs) s

/-- C.GRP1EN: a plain write of 1 (R232). -/
def cGrp1enTxs : List Tx := [fun _ => sysWriteTx .iccIgrpen1 0x1#64 returnOk]

/-- C.GRP1EN (R232). -/
def execCGrp1en (s : State) : Host.Outcome State Fault Refusal := runMain .cGrp1en (progOf cGrp1enTxs) s

/-- C.UNMASK: one atomic step that clears `pstate.I` alone (R233). -/
def cUnmaskTxs : List Tx :=
  [fun _ s => if s.pe.pstate.el = 0#2 then .fault .el0 else returnOk { s with pe.pstate.i := false }]

/-- C.UNMASK (R233). -/
def execCUnmask (s : State) : Host.Outcome State Fault Refusal := runMain .cUnmask (progOf cUnmaskTxs) s

/-- C.INIT: the four steps in order; a failing C.SRE ends it (R234). -/
def cInitTxs : List Tx := inLine cSreTxs (inLine cPmrTxs (inLine cGrp1enTxs cUnmaskTxs))

/-- C.INIT (R234). -/
def execCInit (s : State) : Host.Outcome State Fault Refusal := runMain .cInit (progOf cInitTxs) s

/-- C.ACK: acknowledge the interrupt the current trap was taken for; `SPURIOUS_ID` when there is none (R235,
60_exceptions.md R325). -/
def cAckTxs : List Tx :=
  [fun _ s =>
    match s.cpu.curId with
    | none => .ret .ok (BitVec.ofNat 64 spuriousId) s
    | some id => .ret .ok (BitVec.ofNat 64 id) (acknowledge s id)]

/-- C.ACK (R235). -/
def execCAck (s : State) : Host.Outcome State Fault Refusal := runMain .cAck (progOf cAckTxs) s

/-- C.EOI: end the handling of the current interrupt (R236). -/
def cEoiTxs : List Tx := [fun _ s => returnOk (endOfInterrupt s)]

/-- C.EOI (R236). -/
def execCEoi (s : State) : Host.Outcome State Fault Refusal := runMain .cEoi (progOf cEoiTxs) s

/-- V.INSTALL: one write of the vector base, not validated (45_vector_dispatch.md R250). -/
def vInstallTxs (addr : DWord) : List Tx := [fun _ => sysWriteTx .vbar addr returnOk]

/-- V.INSTALL (45_vector_dispatch.md R250). -/
def execVInstall (addr : DWord) (s : State) : Host.Outcome State Fault Refusal :=
  runMain (.vInstall addr) (progOf (vInstallTxs addr)) s

/-- V.CUREL: bits 3:2 of `CurrentEL` (45_vector_dispatch.md R251). -/
def vCurelTxs : List Tx :=
  [fun _ => sysReadTx .currentEL fun v t => .ret .ok ((v.extractLsb' 2 2).setWidth 64) t]

/-- V.CUREL (45_vector_dispatch.md R251). -/
def execVCurel (s : State) : Host.Outcome State Fault Refusal := runMain .vCurel (progOf vCurelTxs) s

end Sys2Proof.Machine
end

