-- ==== Sys2Proof/Machine/Distributor.lean ====
section
/-!
DEFINITION. The ten distributor commands (42_distributor.md), each with the sequence of its transactions, which the
orchestration sequencer runs in line too.
-/

namespace Sys2Proof.Machine

/-- Range check of the `D.*` commands: an ID the distributor does not store is a contract violation, and no transaction
is issued (R190). -/
def dChecked (c : Config) (id : BitVec 10) (l : List Tx) : List Tx :=
  if id.toNat < c.nIds then l else returnTxs .errContract

/-- D.INIT: three read-modify-writes of `D_CTLR`, in order (R191). -/
def dInitTxs : List Tx :=
  [readHoldTx .D 0x000, writeHeldTx .D 0x000 (fun r => r ||| 0x00000040#32) goOn,
   readHoldTx .D 0x000, writeHeldTx .D 0x000 (fun r => r ||| 0x00000003#32) goOn,
   readHoldTx .D 0x000, writeHeldTx .D 0x000 (fun r => r ||| 0x00000010#32) returnOk]

/-- D.INIT (R191). -/
def execDInit (s : State) : Host.Outcome State Fault Refusal := runMain .dInit (progOf dInitTxs) s

/-- D.SETGRP: the 1-bit field at 0x080 (R192); a `val` no word encodes is answered as an illegal command (entry 12). -/
def dSetGrpTxs (c : Config) (id : BitVec 10) (val : BitVec 8) : List Tx :=
  if groupLegal val then dChecked c id (fieldWriteTxs .D 0x080 wlogBit id.toNat (val.setWidth 32))
  else returnTxs .errIllegal

/-- D.SETGRP (R192). -/
def execDSetGrp (id : BitVec 10) (val : BitVec 8) (s : State) : Host.Outcome State Fault Refusal :=
  runMain (.dSetGrp id val) (progOf (dSetGrpTxs s.cfg id val)) s

/-- D.SETEN: a 1 into the field of the set-enable window at 0x100 (R193). -/
def dSetEnTxs (c : Config) (id : BitVec 10) : List Tx :=
  dChecked c id (fieldWriteTxs .D 0x100 wlogBit id.toNat 1#32)

/-- D.SETEN (R193). -/
def execDSetEn (id : BitVec 10) (s : State) : Host.Outcome State Fault Refusal :=
  runMain (.dSetEn id) (progOf (dSetEnTxs s.cfg id)) s

/-- D.CLREN: a 1 into the field of the clear-enable window at 0x180 (R194). -/
def dClrEnTxs (c : Config) (id : BitVec 10) : List Tx :=
  dChecked c id (fieldWriteTxs .D 0x180 wlogBit id.toNat 1#32)

/-- D.CLREN (R194). -/
def execDClrEn (id : BitVec 10) (s : State) : Host.Outcome State Fault Refusal :=
  runMain (.dClrEn id) (progOf (dClrEnTxs s.cfg id)) s

/-- D.SETPRI: the 8-bit field at 0x400 (R195). -/
def dSetPriTxs (c : Config) (id : BitVec 10) (pri : BitVec 8) : List Tx :=
  dChecked c id (fieldWriteTxs .D 0x400 wlogByte id.toNat (pri.setWidth 32))

/-- D.SETPRI (R195). -/
def execDSetPri (id : BitVec 10) (pri : BitVec 8) (s : State) : Host.Outcome State Fault Refusal :=
  runMain (.dSetPri id pri) (progOf (dSetPriTxs s.cfg id pri)) s

/-- D.SETTGT: bit `cpu` OR-ed into the 8-bit field at 0x800; the check of `cpu` comes before that of `id` (R196,
R201). -/
def dSetTgtTxs (c : Config) (id : BitVec 10) (cpu : BitVec 8) : List Tx :=
  if cpu.toNat ≤ 7 then
    dChecked c id
      (rmwTxs .D (fieldOff wlogByte 0x800 id.toNat) fun r =>
        r ||| bitMask (fieldShift wlogByte id.toNat + cpu.toNat))
  else returnTxs .errContract

/-- D.SETTGT (R196). -/
def execDSetTgt (id : BitVec 10) (cpu : BitVec 8) (s : State) : Host.Outcome State Fault Refusal :=
  runMain (.dSetTgt id cpu) (progOf (dSetTgtTxs s.cfg id cpu)) s

/-- D.SETCFG: the 2-bit field at 0xC00; the check of `cfg` comes before that of `id` (R197, R201). -/
def dSetCfgTxs (c : Config) (id : BitVec 10) (cfg : BitVec 8) : List Tx :=
  if cfg.toNat ≤ 3 then dChecked c id (fieldWriteTxs .D 0xC00 wlogPair id.toNat (cfg.setWidth 32))
  else returnTxs .errContract

/-- D.SETCFG (R197). -/
def execDSetCfg (id : BitVec 10) (cfg : BitVec 8) (s : State) : Host.Outcome State Fault Refusal :=
  runMain (.dSetCfg id cfg) (progOf (dSetCfgTxs s.cfg id cfg)) s

/-- D.SETPEND: a 1 into the field of the set-pending window at 0x200 (R198). -/
def dSetPendTxs (c : Config) (id : BitVec 10) : List Tx :=
  dChecked c id (fieldWriteTxs .D 0x200 wlogBit id.toNat 1#32)

/-- D.SETPEND (R198). -/
def execDSetPend (id : BitVec 10) (s : State) : Host.Outcome State Fault Refusal :=
  runMain (.dSetPend id) (progOf (dSetPendTxs s.cfg id)) s

/-- D.CLRPEND: a 1 into the field of the clear-pending window at 0x280 (R199). -/
def dClrPendTxs (c : Config) (id : BitVec 10) : List Tx :=
  dChecked c id (fieldWriteTxs .D 0x280 wlogBit id.toNat 1#32)

/-- D.CLRPEND (R199). -/
def execDClrPend (id : BitVec 10) (s : State) : Host.Outcome State Fault Refusal :=
  runMain (.dClrPend id) (progOf (dClrPendTxs s.cfg id)) s

/-- D.GETPEND: the field of the set-pending window (R200). -/
def dGetPendTxs (c : Config) (id : BitVec 10) : List Tx :=
  dChecked c id (fieldReadTxs .D 0x200 wlogBit id.toNat)

/-- D.GETPEND (R200). -/
def execDGetPend (id : BitVec 10) (s : State) : Host.Outcome State Fault Refusal :=
  runMain (.dGetPend id) (progOf (dGetPendTxs s.cfg id)) s

end Sys2Proof.Machine
end

