-- ==== Sys2Proof/Machine/Redistributor.lean ====
section
/-!
DEFINITION. The ten redistributor commands (43_redistributor.md): the wake sequence and the nine mirrors of the
distributor's per-interrupt operations, in bank R at `SGI_OFF` plus the sub-offset.
-/

namespace Sys2Proof.Machine

/-- Range check of the `R.*` commands: bank R stores IDs 0 to 31 (R210). -/
def rChecked (id : BitVec 10) (l : List Tx) : List Tx :=
  if id.toNat < 32 then l else returnTxs .errContract

/-- One poll of R.INIT, `n` polls before it having read "children asleep" = 1 (R211). The value held is `n`. -/
def wakePollTx (bound : Word) : Tx := fun n s =>
  bankReadTx .R 0x00014
    (fun v t =>
      if v.getLsbD 2 then
        if n + 1#64 = bound.setWidth 64 then .ret .errTimeout (n + 1#64) t else .hold (n + 1#64) t
      else .ret .ok n t) s

/-- R.INIT by transaction: the read, the write that clears `PS` (a bound of 0 ends the command there), then polls
(R211). -/
def rInitProg (bound : Word) : Prog
  | 0 => readHoldTx .R 0x00014
  | 1 =>
    writeHeldTx .R 0x00014 (fun r => r &&& ~~~0x00000002#32) fun t =>
      if bound = 0#32 then .ret .errTimeout 0#64 t else goOn t
  | _ + 2 => wakePollTx bound

/-- R.INIT (R211). -/
def execRInit (bound : Word) (s : State) : Host.Outcome State Fault Refusal :=
  runMain (.rInit bound) (rInitProg bound) s

/-- R.SETGRP: the 1-bit field at 0x10080 (R212); a `val` no word encodes as for D.SETGRP (entry 12). -/
def rSetGrpTxs (id : BitVec 10) (val : BitVec 8) : List Tx :=
  if groupLegal val then rChecked id (fieldWriteTxs .R 0x10080 wlogBit id.toNat (val.setWidth 32))
  else returnTxs .errIllegal

/-- R.SETGRP (R212). -/
def execRSetGrp (id : BitVec 10) (val : BitVec 8) (s : State) : Host.Outcome State Fault Refusal :=
  runMain (.rSetGrp id val) (progOf (rSetGrpTxs id val)) s

/-- R.SETEN: a 1 into the field of the set-enable window at 0x10100 (R213). -/
def rSetEnTxs (id : BitVec 10) : List Tx := rChecked id (fieldWriteTxs .R 0x10100 wlogBit id.toNat 1#32)

/-- R.SETEN (R213). -/
def execRSetEn (id : BitVec 10) (s : State) : Host.Outcome State Fault Refusal :=
  runMain (.rSetEn id) (progOf (rSetEnTxs id)) s

/-- R.CLREN: a 1 into the field of the clear-enable window at 0x10180 (R214). -/
def rClrEnTxs (id : BitVec 10) : List Tx := rChecked id (fieldWriteTxs .R 0x10180 wlogBit id.toNat 1#32)

/-- R.CLREN (R214). -/
def execRClrEn (id : BitVec 10) (s : State) : Host.Outcome State Fault Refusal :=
  runMain (.rClrEn id) (progOf (rClrEnTxs id)) s

/-- R.SETPRI: the 8-bit field at 0x10400 (R215). -/
def rSetPriTxs (id : BitVec 10) (pri : BitVec 8) : List Tx :=
  rChecked id (fieldWriteTxs .R 0x10400 wlogByte id.toNat (pri.setWidth 32))

/-- R.SETPRI (R215). -/
def execRSetPri (id : BitVec 10) (pri : BitVec 8) (s : State) : Host.Outcome State Fault Refusal :=
  runMain (.rSetPri id pri) (progOf (rSetPriTxs id pri)) s

/-- R.GETPRI: the 8-bit field at 0x10400, read (R216). -/
def rGetPriTxs (id : BitVec 10) : List Tx := rChecked id (fieldReadTxs .R 0x10400 wlogByte id.toNat)

/-- R.GETPRI (R216). -/
def execRGetPri (id : BitVec 10) (s : State) : Host.Outcome State Fault Refusal :=
  runMain (.rGetPri id) (progOf (rGetPriTxs id)) s

/-- R.SETCFG: the 2-bit field at 0x10C00; the check of `cfg` comes before that of `id` (R217). -/
def rSetCfgTxs (id : BitVec 10) (cfg : BitVec 8) : List Tx :=
  if cfg.toNat ≤ 3 then rChecked id (fieldWriteTxs .R 0x10C00 wlogPair id.toNat (cfg.setWidth 32))
  else returnTxs .errContract

/-- R.SETCFG (R217). -/
def execRSetCfg (id : BitVec 10) (cfg : BitVec 8) (s : State) : Host.Outcome State Fault Refusal :=
  runMain (.rSetCfg id cfg) (progOf (rSetCfgTxs id cfg)) s

/-- R.SETPEND: a 1 into the field of the set-pending window at 0x10200 (R218). -/
def rSetPendTxs (id : BitVec 10) : List Tx := rChecked id (fieldWriteTxs .R 0x10200 wlogBit id.toNat 1#32)

/-- R.SETPEND (R218). -/
def execRSetPend (id : BitVec 10) (s : State) : Host.Outcome State Fault Refusal :=
  runMain (.rSetPend id) (progOf (rSetPendTxs id)) s

/-- R.CLRPEND: a 1 into the field of the clear-pending window at 0x10280 (R219). -/
def rClrPendTxs (id : BitVec 10) : List Tx := rChecked id (fieldWriteTxs .R 0x10280 wlogBit id.toNat 1#32)

/-- R.CLRPEND (R219). -/
def execRClrPend (id : BitVec 10) (s : State) : Host.Outcome State Fault Refusal :=
  runMain (.rClrPend id) (progOf (rClrPendTxs id)) s

/-- R.GETPEND: the field of the set-pending window (R220). -/
def rGetPendTxs (id : BitVec 10) : List Tx := rChecked id (fieldReadTxs .R 0x10200 wlogBit id.toNat)

/-- R.GETPEND (R220). -/
def execRGetPend (id : BitVec 10) (s : State) : Host.Outcome State Fault Refusal :=
  runMain (.rGetPend id) (progOf (rGetPendTxs id)) s

end Sys2Proof.Machine
end

