-- ==== Sys2Proof/Machine/TimerCommands.lean ====
section
/-!
DEFINITION. The timer commands and the orchestration sequencer (46_timer_orchestration.md): T.ARM, T.HANDLE, O.STEP,
O.POLL.
-/

namespace Sys2Proof.Machine

/-- T.ARM: frequency, delta, compare read-back, enable, in that order (R265). The value held is the delta after `t1` and
the compare value after `t3`. -/
def tArmTxs : List Tx :=
  [fun _ => sysReadTx .cntfrq fun _ t =>
     .hold (t.cfg.timerDelta.setWidth 64) { t with seq.tDelta := t.cfg.timerDelta },
   fun h => sysWriteTx .cntpTval h goOn,
   fun _ => sysReadTx .cntpCval fun c t => .hold c { t with seq.tDiag := c },
   fun h => sysWriteTx .cntpCtl 0x1#64 fun t => .ret .ok h t]

/-- T.ARM (R265). -/
def execTArm (s : State) : Host.Outcome State Fault Refusal := runMain .tArm (progOf tArmTxs) s

/-- T.HANDLE: the next compare point, then its read-back (R266). -/
def tHandleTxs : List Tx :=
  [fun _ s => sysWriteTx .cntpTval (s.seq.tDelta.setWidth 64) goOn s,
   fun _ => sysReadTx .cntpCval fun c t => .ret .ok c { t with seq.tDiag := c }]

/-- T.HANDLE (R266). -/
def execTHandle (s : State) : Host.Outcome State Fault Refusal := runMain .tHandle (progOf tHandleTxs) s

/-! ## Orchestration -/

/-- The number of a state of the sequencer, which a successful O.STEP returns (R267, R268). -/
def orchNumber : Orch → DWord
  | .uninitialized => 0#64
  | .vectorInstalled => 1#64
  | .distributorConfigured => 2#64
  | .redistributorAwake => 3#64
  | .cpuInterfaceReady => 4#64
  | .timerInterruptConfigured => 5#64
  | .timerArmed => 6#64
  | .running => 7#64
  | .failed _ => 0#64

/-- The kind a failing transition leaves in `Failed(kind)` (R267, R271 to R273). -/
def failKindOf : Status → FailKind
  | .errTimeout => .timeout
  | .errSre => .sre
  | .errPending => .pending
  | _ => .contract

/-- The end of a transition to `o`: the write of `orch` belongs to the step of the last transaction (R268); a status
other than `OK` is fatal to the bring-up (R276). -/
def reach (o : Orch) (st : Status) (v : DWord) (s : State) : TxOut :=
  if st = .ok then .ret .ok (orchNumber o) { s with seq.orch := o }
  else .ret st v { s with seq.orch := .failed (failKindOf st) }

/-- A command run as a transition to `o`. -/
def transition (o : Orch) (p : Prog) : Prog := fun k => mapReturnTx (reach o) (p k)

/-- The eleven commands of transition 4, for interrupt 30, in order (R273). -/
def timerIrqTxs (c : Config) : List Tx :=
  inLine (dSetGrpTxs c 30#10 1#8) <|
  inLine (rSetGrpTxs 30#10 1#8) <|
  inLine (dSetPriTxs c 30#10 0#8) <|
  inLine (rSetPriTxs 30#10 0#8) <|
  inLine (dSetTgtTxs c 30#10 0#8) <|
  inLine (dSetCfgTxs c 30#10 0#8) <|
  inLine (rSetCfgTxs 30#10 0#8) <|
  inLine (dClrPendTxs c 30#10) <|
  inLine (rClrPendTxs 30#10) <|
  inLine (dSetEnTxs c 30#10) <|
  rSetEnTxs 30#10

/-- O.STEP: the transition out of the current state (R267 to R276). -/
def oStepProg (s : State) : Prog :=
  match s.seq.orch with
  | .uninitialized => transition .vectorInstalled (progOf (vInstallTxs s.cfg.vectorBase))
  | .vectorInstalled => transition .distributorConfigured (progOf dInitTxs)
  | .distributorConfigured => transition .redistributorAwake (rInitProg s.cfg.wakeBound)
  | .redistributorAwake => transition .cpuInterfaceReady (progOf cInitTxs)
  | .cpuInterfaceReady => transition .timerInterruptConfigured (progOf (timerIrqTxs s.cfg))
  | .timerInterruptConfigured => transition .timerArmed (progOf tArmTxs)
  | .timerArmed => transition .running (progOf (returnTxs .ok))
  | .running => progOf (returnTxs .errState)
  | .failed _ => progOf (returnTxs .errState)

/-- O.STEP (R268). -/
def execOStep (s : State) : Host.Outcome State Fault Refusal := runMain .oStep (oStepProg s) s

/-- The answer of O.POLL to its query (R278): a set pending bit is reported and is terminal. -/
def pollAnswer (st : Status) (v : DWord) (s : State) : TxOut :=
  if st = .ok ∧ v = 1#64 then .ret .errPending 1#64 { s with seq.orch := .failed .pending }
  else .ret st 0#64 s

/-- O.POLL: one query of interrupt 30 in bank R, in state `Running` only (R278). -/
def oPollTxs (s : State) : List Tx :=
  if s.seq.orch = .running then (rGetPendTxs 30#10).map (mapReturnTx pollAnswer) else returnTxs .errState

/-- O.POLL (R278). -/
def execOPoll (s : State) : Host.Outcome State Fault Refusal := runMain .oPoll (progOf (oPollTxs s)) s

end Sys2Proof.Machine
end

