-- ==== Sys2Proof/Machine/Transactions.lean ====
section
/-!
DEFINITION. The four transactions as commands: RD32, WR32, SRRD, SRWR (40_transactions.md), and the two commands of the
field accessor: FRD, FWR (41_field_accessor.md).
-/

namespace Sys2Proof.Machine

/-- RD32 (R140): one bank read. -/
def execRd32 (b : Bank) (off : BitVec 17) (s : State) : Host.Outcome State Fault Refusal :=
  runMain (.rd32 b off)
    (progOf [fun _ => bankReadTx b off.toNat fun v t => .ret .ok (v.setWidth 64) t]) s

/-- WR32 (R141): one bank write. -/
def execWr32 (b : Bank) (off : BitVec 17) (value : Word) (s : State) : Host.Outcome State Fault Refusal :=
  runMain (.wr32 b off value) (progOf [fun _ => bankWriteTx b off.toNat value returnOk]) s

/-- SRRD (R160): one system-register read. -/
def execSrrd (r : SysReg) (s : State) : Host.Outcome State Fault Refusal :=
  runMain (.srrd r) (progOf [fun _ => sysReadTx r fun v t => .ret .ok v t]) s

/-- SRWR (R161): one system-register write. -/
def execSrwr (r : SysReg) (value : DWord) (s : State) : Host.Outcome State Fault Refusal :=
  runMain (.srwr r value) (progOf [fun _ => sysWriteTx r value returnOk]) s

/-- The transactions of FRD (R181); a `wlog` no word encodes is answered as an illegal command (30_encoding.md R125,
entry 12). -/
def frdTxs (b : Bank) (wlog : BitVec 3) (base : BitVec 17) (index : Word) : List Tx :=
  if wlogLegal wlog then fieldReadTxs b base.toNat wlog index.toNat else returnTxs .errIllegal

/-- FRD (R181). -/
def execFrd (b : Bank) (wlog : BitVec 3) (base : BitVec 17) (index : Word) (s : State) :
    Host.Outcome State Fault Refusal :=
  runMain (.frd b wlog base index) (progOf (frdTxs b wlog base index)) s

/-- The transactions of FWR (R182); a `wlog` no word encodes as for FRD. -/
def fwrTxs (b : Bank) (wlog : BitVec 3) (base : BitVec 17) (index : Word) (value : BitVec 16) : List Tx :=
  if wlogLegal wlog then fieldWriteTxs b base.toNat wlog index.toNat (value.setWidth 32)
  else returnTxs .errIllegal

/-- FWR (R182). -/
def execFwr (b : Bank) (wlog : BitVec 3) (base : BitVec 17) (index : Word) (value : BitVec 16) (s : State) :
    Host.Outcome State Fault Refusal :=
  runMain (.fwr b wlog base index value) (progOf (fwrTxs b wlog base index value)) s

end Sys2Proof.Machine
end

