-- ==== Sys2Proof/Machine/Dispatch.lean ====
section
/-!
DEFINITION. The dispatch: one arm per command, each one direct call of its meaning. `exec i s` is the step of agent
`MAIN` that performs the next transaction of command `i` (00_scope.md R3, R6; 10_state.md R49): the first one when no
command is in flight. Step.lean takes it only where `MAIN` may step.
-/

namespace Sys2Proof.Machine

/-- One step of `MAIN` for a command. -/
def exec (i : Instr) (s : State) : Host.Outcome State Fault Refusal :=
  match i with
  | .rd32 bank off => Sys2Proof.Machine.execRd32 bank off s
  | .wr32 bank off value => Sys2Proof.Machine.execWr32 bank off value s
  | .srrd reg => Sys2Proof.Machine.execSrrd reg s
  | .srwr reg value => Sys2Proof.Machine.execSrwr reg value s
  | .frd bank wlog base index => Sys2Proof.Machine.execFrd bank wlog base index s
  | .fwr bank wlog base index value => Sys2Proof.Machine.execFwr bank wlog base index value s
  | .dInit => Sys2Proof.Machine.execDInit s
  | .dSetGrp id val => Sys2Proof.Machine.execDSetGrp id val s
  | .dSetEn id => Sys2Proof.Machine.execDSetEn id s
  | .dClrEn id => Sys2Proof.Machine.execDClrEn id s
  | .dSetPri id pri => Sys2Proof.Machine.execDSetPri id pri s
  | .dSetTgt id cpu => Sys2Proof.Machine.execDSetTgt id cpu s
  | .dSetCfg id cfg => Sys2Proof.Machine.execDSetCfg id cfg s
  | .dSetPend id => Sys2Proof.Machine.execDSetPend id s
  | .dClrPend id => Sys2Proof.Machine.execDClrPend id s
  | .dGetPend id => Sys2Proof.Machine.execDGetPend id s
  | .rInit bound => Sys2Proof.Machine.execRInit bound s
  | .rSetGrp id val => Sys2Proof.Machine.execRSetGrp id val s
  | .rSetEn id => Sys2Proof.Machine.execRSetEn id s
  | .rClrEn id => Sys2Proof.Machine.execRClrEn id s
  | .rSetPri id pri => Sys2Proof.Machine.execRSetPri id pri s
  | .rGetPri id => Sys2Proof.Machine.execRGetPri id s
  | .rSetCfg id cfg => Sys2Proof.Machine.execRSetCfg id cfg s
  | .rSetPend id => Sys2Proof.Machine.execRSetPend id s
  | .rClrPend id => Sys2Proof.Machine.execRClrPend id s
  | .rGetPend id => Sys2Proof.Machine.execRGetPend id s
  | .cInit => Sys2Proof.Machine.execCInit s
  | .cSre => Sys2Proof.Machine.execCSre s
  | .cPmr => Sys2Proof.Machine.execCPmr s
  | .cGrp1en => Sys2Proof.Machine.execCGrp1en s
  | .cUnmask => Sys2Proof.Machine.execCUnmask s
  | .cAck => Sys2Proof.Machine.execCAck s
  | .cEoi => Sys2Proof.Machine.execCEoi s
  | .vInstall addr => Sys2Proof.Machine.execVInstall addr s
  | .vCurel => Sys2Proof.Machine.execVCurel s
  | .tArm => Sys2Proof.Machine.execTArm s
  | .tHandle => Sys2Proof.Machine.execTHandle s
  | .oStep => Sys2Proof.Machine.execOStep s
  | .oPoll => Sys2Proof.Machine.execOPoll s

end Sys2Proof.Machine
end

