-- ==== Sys2Proof/Machine/Agents.lean ====
section
/-!
DEFINITION. The steps of the six agents (00_scope.md R3), what happens after every step, and where the next step comes
from. Step.lean only puts these together.
-/

namespace Sys2Proof.Machine

/-- `MAIN`, `HANDLER` and `DISPATCH`, the one hardware thread, step only while `halt` is `none` (10_state.md R51). -/
def threadRuns (s : State) : Bool := s.halt.isNone

/-- The registers the processing element's program changed besides the step of `MAIN` (60_exceptions.md R324). The
change stands before the transaction, so a trap the transaction raises saves the new `pc` (entry 8). -/
def applyPe (pe : Option PeRegs) (s : State) : State :=
  match pe with
  | none => s
  | some r => { s with pe.x := r.x, pe.pc := r.pc }

/-- A command word that spells no command: `ERR_ILLEGAL`, and nothing but `RSP` changes (30_encoding.md R125). -/
def illegalWord (s : State) : State := respond s .errIllegal 0#64

/-- The step of `MAIN`: the next transaction of the command in flight, else the first of the command `CMD` presents;
with neither, nothing (entry 2). -/
def mainStep (pe : Option PeRegs) (s : State) : Host.Outcome State Fault Refusal :=
  match s.seq.mainCmd with
  | some m => exec m.cmd (applyPe pe s)
  | none =>
    match s.env.cmdIn with
    | [] => .next s
    | d :: rest =>
      match decode d with
      | .ok i => exec i (applyPe pe { s with env.cmdIn := rest })
      | .error _ => .next (illegalWord (applyPe pe { s with env.cmdIn := rest }))

/-- The step of `HANDLER` inside T.HANDLE: its statuses and results are discarded, `RSP` is `MAIN`'s
(60_exceptions.md R310). -/
def handleStep (s : State) : Host.Outcome State Fault Refusal :=
  let k := match s.seq.handlerCmd with
    | some m => m.index
    | none => 0
  let h := match s.seq.handlerCmd with
    | some m => m.held
    | none => 0#64
  match progOf tHandleTxs k h s with
  | .hold v t => .next { t with seq.handlerCmd := some { cmd := .tHandle, index := k + 1, held := v } }
  | .ret _ _ t => .next { t with seq.handlerCmd := none, seq.disp := .inRoutine .irq 4 }
  | .trap t => .next t
  | .fault r => .fault r

/-- Step `e4` of the routine: C.ACK, its result discarded (60_exceptions.md R310). -/
def ackStep (s : State) : State :=
  match s.cpu.curId with
  | none => { s with seq.disp := .inRoutine .irq 5 }
  | some id => { acknowledge s id with seq.disp := .inRoutine .irq 5 }

/-- The step of `HANDLER`: `h1`, `h2`, `e4`; elsewhere it is not enabled (60_exceptions.md R310). -/
def handlerStep (s : State) : Host.Outcome State Fault Refusal :=
  match s.seq.disp with
  | .inRoutine .irq 3 => handleStep s
  | .inRoutine .irq 4 => .next (ackStep s)
  | _ => .next s

/-- An operation that can fault, as an outcome. -/
def outcomeOf (r : Except Fault State) : Host.Outcome State Fault Refusal :=
  match r with
  | .ok t => .next t
  | .error f => .fault f

/-- The step of `DISPATCH`: `e1` when an interrupt is taken, `e2`, `e5`; elsewhere it is not enabled
(60_exceptions.md R308, R309, R312). -/
def dispatchStep (s : State) : Host.Outcome State Fault Refusal :=
  match s.seq.disp with
  | .idle => if takeIrq s then outcomeOf (irqEnter s) else .next s
  | .entered .irq => .next (frameSave s)
  | .inRoutine .irq 5 => .next (irqReturn s)
  | _ => .next s

/-- The step of `TICK` (60_exceptions.md R318). -/
def tickStep (s : State) : State := { s with timer.cnt := s.timer.cnt + 1#64 }

/-- The step of `WAKE`, enabled when `PS` = 0 and `CA` = 1 (43_redistributor.md R222). -/
def wakeStep (s : State) : State :=
  if !s.redist.ps && s.redist.ca then { s with redist.ca := false } else s

/-- The reset event: every piece of state takes its reset value, the UNSPEC values drawn afresh; the launch parameters,
the environment's inputs and the sticky fault stay (70_reset_and_hazards.md R350, entry 20). A halted block is reset too,
and `halt` is then `none` again (10_state.md R60). DESIGN CHOICE (entry 22), safe. -/
def resetStep (s : State) : State := State.resetWith s.cfg (Config.drawUnspec s.env.clock) s.env s.fault

/-- One step of the agent an event names; an agent that is not enabled leaves the state as it is (entry 2). `RESET` steps
whether or not `halt` is set: 10_state.md R51 and 60_exceptions.md R313, R327 let only `TICK` and `WAKE` step then,
70_reset_and_hazards.md R350 lets a reset occur at any later point. DESIGN CHOICE (entry 22), safe. -/
def agentStep (e : Event) (s : State) : Host.Outcome State Fault Refusal :=
  match e with
  | .main pe => if threadRuns s && decide (s.seq.disp = .idle) then mainStep pe s else .next s
  | .handler => if threadRuns s then handlerStep s else .next s
  | .dispatch => if threadRuns s then dispatchStep s else .next s
  | .tick => .next (tickStep s)
  | .wake => .next (wakeStep s)
  | .reset => .next (resetStep s)

/-- The agent that steps next: the environment's choice where `env.sched` holds one, else a free value (entry 2). -/
def nextEvent (s : State) : Event :=
  match s.env.sched with
  | e :: _ => e
  | [] => Config.drawEvent s.env.clock

/-- The state an agent's step starts from: the choice is taken off `env.sched`, and one more step is counted. -/
def beginStep (s : State) : State := { s with env.sched := s.env.sched.tail, env.clock := s.env.clock + 1 }

/-- What every step of every agent ends with: edge capture (60_exceptions.md R303), then the Group 0 check (R305). -/
def settle (before after : State) : Host.Outcome State Fault Refusal :=
  if group0InDelivery (edgeCapture before after) then .fault .group0Delivery
  else .next (edgeCapture before after)

/-- `settle` after an outcome; a step that faults does nothing else (60_exceptions.md R307). -/
def settleOutcome (before : State) (o : Host.Outcome State Fault Refusal) : Host.Outcome State Fault Refusal :=
  match o with
  | .next after => settle before after
  | .fault r => .fault r
  | .refused r => .refused r

/-- The sticky state element `fault` after a step: a step that faults leaves everything else as it was
(00_scope.md R7, 10_state.md R52). The step itself answers the fault; this is the state a reader of the element sees. -/
def afterOutcome (before : State) (o : Host.Outcome State Fault Refusal) : State :=
  match o with
  | .next after => after
  | .fault r => { before with fault := some r }
  | .refused _ => before

end Sys2Proof.Machine
end

