-- ==== Sys2Proof/Machine/Step.lean ====
section
/-!
DEFINITION. The step: one atomic step of one agent (00_scope.md R3), and the placing of a command where the next step
takes it up.
-/

namespace Sys2Proof.Machine

/-- One step of the block. After a fault no agent steps (10_state.md R52). -/
def step (s : State) : Host.Outcome State Fault Refusal :=
  match s.fault with
  | some r => .fault r
  | none => settleOutcome (beginStep s) (agentStep (nextEvent s) (beginStep s))

/-- The command whose table bits are `w`, presented next on `CMD` to an idle `MAIN` that the environment lets step next
(entry 3). -/
def State.withFetchWord (s : State) (nbits w : Nat) : State :=
  { s with
    seq.mainCmd := none
    env.cmdIn := tableDescriptor nbits w :: s.env.cmdIn
    env.sched := .main none :: s.env.sched }

end Sys2Proof.Machine
end

