-- ==== Sys2Proof/Safety.lean ====
section
/-!
DEFINITION. What claims about the block are said in: a command run with no other agent between its transactions, runs of
steps, which agents are enabled, the invariants of a run, and the fairness that 60_exceptions.md R327 grants (which the
step function cannot hold, entry 14).
-/

namespace Sys2Proof.Machine

/-! ## Runs -/

/-- `n` transactions of command `i` in a row, no other agent between them (00_scope.md R6). -/
def execs (i : Instr) : Nat → State → Host.Outcome State Fault Refusal
  | 0, s => .next s
  | n + 1, s =>
    match exec i s with
    | .next t => execs i n t
    | .fault r => .fault r
    | .refused r => .refused r

/-- Commands one after another, each with the number of its transactions. -/
def execAll : List (Instr × Nat) → State → Host.Outcome State Fault Refusal
  | [], s => .next s
  | (i, n) :: l, s =>
    match execs i n s with
    | .next t => execAll l t
    | .fault r => .fault r
    | .refused r => .refused r

/-- `n` steps of the block. -/
def steps : Nat → State → Host.Outcome State Fault Refusal
  | 0, s => .next s
  | n + 1, s =>
    match step s with
    | .next t => steps n t
    | .fault r => .fault r
    | .refused r => .refused r

/-- A safe state: however far the block runs from it, no step faults. -/
def RunsSafely (s : State) : Prop := ∀ n, ∃ t, steps n s = .next t

/-! ## Which agents are enabled (00_scope.md R3, 60_exceptions.md R308 to R318, 43_redistributor.md R222) -/

/-- The agent of an event has a step to make. -/
def agentEnabled (e : Event) (s : State) : Bool :=
  match e with
  | .main _ =>
    threadRuns s && decide (s.seq.disp = .idle) && (s.seq.mainCmd.isSome || !s.env.cmdIn.isEmpty)
  | .handler =>
    threadRuns s && (decide (s.seq.disp = .inRoutine .irq 3) || decide (s.seq.disp = .inRoutine .irq 4))
  | .dispatch =>
    threadRuns s &&
      (decide (s.seq.disp = .idle) && takeIrq s || decide (s.seq.disp = .entered .irq)
        || decide (s.seq.disp = .inRoutine .irq 5))
  | .tick => true
  | .wake => !s.redist.ps && s.redist.ca
  | .reset => true

/-- How many steps of `DISPATCH` and `HANDLER` the trap in progress still takes (60_exceptions.md R308 to R312):
five after `IRQ-ENTER`, none when there is no trap. -/
def routineLeft (s : State) : Nat :=
  match s.seq.disp with
  | .entered .irq => 5
  | .inRoutine .irq 3 => if s.seq.handlerCmd.isSome then 3 else 4
  | .inRoutine .irq 4 => 2
  | .inRoutine .irq 5 => 1
  | _ => 0

/-! ## Invariants of a run -/

/-- The exception level and the stack-pointer select are the launch parameters', and the saved copies of a trap in
progress hold the same (10_state.md R22, 60_exceptions.md R316). -/
def LevelInv (s : State) : Prop :=
  s.pe.pstate.el = s.cfg.bootEl ∧ s.pe.pstate.spSel = s.cfg.spSel ∧
  (s.seq.disp = .entered .irq →
    (unpackPState s.pe.spsr).el = s.cfg.bootEl ∧ (unpackPState s.pe.spsr).spSel = s.cfg.spSel) ∧
  (∀ k, s.seq.disp = .inRoutine .irq k →
    (unpackPState (frameSpsr s.seq.ctx)).el = s.cfg.bootEl ∧
    (unpackPState (frameSpsr s.seq.ctx)).spSel = s.cfg.spSel)

/-- All four interrupt masks are set. -/
def allMasked (s : State) : Prop :=
  s.pe.pstate.d = true ∧ s.pe.pstate.a = true ∧ s.pe.pstate.i = true ∧ s.pe.pstate.f = true

/-- The dispatch router stands where 60_exceptions.md R308 to R314 let it: nowhere, or in the interrupt routine with
all masks set and an interrupt recorded; the frame is valid inside the routine only; `HANDLER` has a command in flight
only between `h1` and `h2`; an interrupt is acknowledged only between `e4` and `e5`, and only the recorded one; a halted
thread has no trap in progress, no command in flight and all masks set (R313). -/
def DispatchInv (s : State) : Prop :=
  (s.seq.disp = .idle ∨ s.seq.disp = .entered .irq ∨ s.seq.disp = .inRoutine .irq 3 ∨
    s.seq.disp = .inRoutine .irq 4 ∨ s.seq.disp = .inRoutine .irq 5) ∧
  (s.seq.disp = .idle ↔ s.cpu.curId = none) ∧
  (s.seq.disp ≠ .idle → allMasked s ∧ s.halt = none) ∧
  (s.seq.frameValid = true ↔ ∃ k, s.seq.disp = .inRoutine .irq k) ∧
  (∀ m, s.seq.handlerCmd = some m → s.seq.disp = .inRoutine .irq 3 ∧ m.cmd = .tHandle ∧ m.index = 1) ∧
  (∀ id, acked s id = true → s.cpu.curId = some id ∧ s.seq.disp = .inRoutine .irq 5) ∧
  (s.halt ≠ none → s.seq.mainCmd = none ∧ allMasked s)

/-- The bring-up has passed its wake transition (46_timer_orchestration.md R267). -/
def pastWake : Orch → Bool
  | .redistributorAwake | .cpuInterfaceReady | .timerInterruptConfigured | .timerArmed | .running => true
  | .uninitialized | .vectorInstalled | .distributorConfigured => false
  | .failed _ => false

/-- The wake handshake (40_transactions.md R148, R149, 43_redistributor.md R222): a sleeping redistributor has its
children asleep; nothing the handshake protects has been written before it completed; a bring-up past its wake
transition has an awake redistributor. -/
def WakeInv (s : State) : Prop :=
  (s.redist.ps = true → s.redist.ca = true) ∧
  (awake s = false →
    s.cpu.sre = false ∧ s.cpu.grp1en = false ∧ s.cpu.pmr = 0#8 ∧ (∀ id, enabled s .R id = false)) ∧
  (pastWake s.seq.orch = true → awake s = true)

/-- The gating of `D_CTLR` and of `ICC_SRE` (40_transactions.md R142, R163): group enables and affinity routing need
"disable security"; where the platform does not let the system-register enable stick, it is 0. -/
def GateInv (s : State) : Prop :=
  (s.dist.ctlr.ds = false →
    s.dist.ctlr.enG0 = false ∧ s.dist.ctlr.enG1 = false ∧ s.dist.ctlr.are = false) ∧
  (s.cfg.sreSticks = false → s.cpu.sre = false)

/-! ## Fairness (60_exceptions.md R327), of infinite runs -/

/-- A run with no fault: each state is the step of the one before. -/
def IsRun (r : Nat → State) : Prop := ∀ n, step (r n) = .next (r (n + 1))

/-- `TICK` is weakly fair: it is always enabled, so it steps again and again. -/
def FairTick (r : Nat → State) : Prop := ∀ n, ∃ m, n ≤ m ∧ nextEvent (r m) = .tick

/-- `DISPATCH` is weakly fair: again and again it steps or is not enabled. -/
def FairDispatch (r : Nat → State) : Prop :=
  ∀ n, ∃ m, n ≤ m ∧ (nextEvent (r m) = .dispatch ∨ agentEnabled .dispatch (r m) = false)

/-- `HANDLER` is weakly fair: again and again it steps or is not enabled. -/
def FairHandler (r : Nat → State) : Prop :=
  ∀ n, ∃ m, n ≤ m ∧ (nextEvent (r m) = .handler ∨ agentEnabled .handler (r m) = false)

end Sys2Proof.Machine
end

