-- ==== Sys2Proof/Certificates/Slice0/Obligations.lean ====
section
/-!
DEFINITION. The statements for the provers, from the numbered rules of spec/. Every statement about a command gives the
exact next state, so it is the command's frame as well: whatever the record update does not name is as before. Where a
rule speaks of one transaction of a command, the statement names the state between transactions in full.
-/

namespace Sys2Proof.Claims

open Sys2Proof.Machine

/-! ## Words the statements are written in -/

/-- The response registers after a command that returned status `st` and result `v` (30_encoding.md R124). -/
def answered (st : BitVec 4) (v : DWord) : Rsp := { status := st, rdata := v }

/-- `return (OK, v)`. -/
def okRsp (v : DWord) : Rsp := answered 0#4 v

/-- `return (ERR_CONTRACT, 0)`. -/
def contractRsp : Rsp := answered 1#4 0#64

/-- `s` with command `i` in flight before transaction `k`, holding `h`. -/
def inMid (s : State) (i : Instr) (k : Nat) (h : DWord) : State :=
  { s with seq.mainCmd := some { cmd := i, index := k, held := h } }

/-- Command `i` answers `t` from `s` in two transactions; the first changes nothing but the command in flight. -/
def InTwo (i : Instr) (s t : State) : Prop :=
  ∃ h, exec i s = .next (inMid s i 1 h) ∧ exec i (inMid s i 1 h) = .next t

/-- `RD32 b, off` answers a word with the property `p`, and nothing but `RSP` changes. -/
def Reads (s : State) (b : Bank) (off : Nat) (p : Word → Prop) : Prop :=
  ∃ w : Word, exec (.rd32 b (BitVec.ofNat 17 off)) s = .next { s with rsp := okRsp (w.setWidth 64) } ∧ p w

/-- Where the windows of a bank begin: bank R has them at `SGI_OFF` (20_memory.md R82, R83). -/
def winBase : Bank → Nat
  | .D => 0x0
  | .R => 0x10000

/-- IDs a bank stores (00_scope.md section 6). -/
def idCount (s : State) : Bank → Nat
  | .D => s.cfg.nIds
  | .R => 32

/-- A write to the SGI region needs an awake redistributor (40_transactions.md R149); bank D needs nothing. -/
def canWrite (s : State) : Bank → Prop
  | .D => True
  | .R => awake s = true

/-! ### Command words (30_encoding.md R111 to R116, R125) -/

/-- The formats, format `I` in its three uses: no second operand, an 8-bit one, a group. -/
inductive Format where
  | N | I | IV | IG | M | S | F
  deriving DecidableEq, Repr

/-- The table of R116: the format of each opcode. -/
def formatOf (op : Nat) : Option Format :=
  if op ∈ [0x01, 0x02] then some .M
  else if op ∈ [0x03, 0x04] then some .S
  else if op ∈ [0x08, 0x09] then some .F
  else if op ∈ [0x10, 0x20, 0x30, 0x31, 0x32, 0x33, 0x34, 0x35, 0x36, 0x40, 0x41, 0x50, 0x51, 0x60, 0x61] then some .N
  else if op ∈ [0x11, 0x21] then some .IG
  else if op ∈ [0x14, 0x15, 0x16, 0x24, 0x26] then some .IV
  else if op ∈ [0x12, 0x13, 0x17, 0x18, 0x19, 0x22, 0x23, 0x25, 0x27, 0x28, 0x29] then some .I
  else none

/-- R125: the command word spells no command. -/
def IllegalWord (cw : Word) : Prop :=
  match formatOf (cw >>> 24).toNat with
  | none => True
  | some .N => cw &&& 0x00FFFFFF#32 ≠ 0#32
  | some .I => cw &&& 0x00FFFC00#32 ≠ 0#32
  | some .IV => cw &&& 0x0000FC00#32 ≠ 0#32
  | some .IG => cw &&& 0x00FEFC00#32 ≠ 0#32
  | some .M => cw &&& 0x007E0000#32 ≠ 0#32
  | some .S => cw &&& 0x00FFFFE0#32 ≠ 0#32 ∨ 12 < (cw &&& 0x1F#32).toNat
  | some .F => cw &&& 0x000E0000#32 ≠ 0#32 ∨ 4 < (cw >>> 20 &&& 7#32).toNat

/-! ### The register decode table (30_encoding.md R129) -/

/-- A row: bank, `match`, `mask`, number of registers, and the register of index `n`. -/
structure DecodeRow where
  bank : Bank
  pattern : Nat
  mask : Nat
  count : Nat
  reg : Nat → BankReg

/-- The rows of R129, in its order. -/
def decodeRows (nIds : Nat) : List DecodeRow :=
  [⟨.D, 0x00000, 0x1FFFC, 1, fun _ => .ctlr⟩, ⟨.D, 0x00080, 0x1FF80, nIds / 32, .grp⟩,
   ⟨.D, 0x00100, 0x1FF80, nIds / 32, .setEn⟩, ⟨.D, 0x00180, 0x1FF80, nIds / 32, .clrEn⟩,
   ⟨.D, 0x00200, 0x1FF80, nIds / 32, .setPend⟩, ⟨.D, 0x00280, 0x1FF80, nIds / 32, .clrPend⟩,
   ⟨.D, 0x00400, 0x1FC00, nIds / 4, .pri⟩, ⟨.D, 0x00800, 0x1FC00, nIds / 4, .tgt⟩,
   ⟨.D, 0x00C00, 0x1FF00, nIds / 16, .cfg⟩,
   ⟨.R, 0x00014, 0x1FFFC, 1, fun _ => .waker⟩, ⟨.R, 0x10080, 0x1FFFC, 1, .grp⟩,
   ⟨.R, 0x10100, 0x1FFFC, 1, .setEn⟩, ⟨.R, 0x10180, 0x1FFFC, 1, .clrEn⟩, ⟨.R, 0x10200, 0x1FFFC, 1, .setPend⟩,
   ⟨.R, 0x10280, 0x1FFFC, 1, .clrPend⟩, ⟨.R, 0x10400, 0x1FFE0, 8, .pri⟩, ⟨.R, 0x10C00, 0x1FFF8, 2, .cfg⟩]

/-- R129: the row whose `match` equals `off & mask`, if the index is below its register count. -/
def rowLookup (nIds : Nat) (b : Bank) (off : Nat) : Option BankReg :=
  match (decodeRows nIds).find? fun r => decide (r.bank = b) && (off &&& r.mask == r.pattern) with
  | none => none
  | some r => if (off - r.pattern) / 4 < r.count then some (r.reg ((off - r.pattern) / 4)) else none

/-! ### Traps -/

/-- The processing element after a trap to the vector at byte `off` of the table (60_exceptions.md R308, R313). -/
def trapped (p : Pe) (c : Config) (off : DWord) : Pe :=
  { p with
    elr := p.pc
    spsr := packPState p.pstate
    pstate := { p.pstate with d := true, a := true, i := true, f := true }
    pc := p.vbar + (if c.spSel then 0x200#64 else 0#64) + off }

/-- `s` after `SysRegTrap` (60_exceptions.md R313). -/
def sysTrapped (s : State) : State :=
  { s with pe := trapped s.pe s.cfg 0x000#64, seq.mainCmd := none, halt := some .syncException }

/-- The vector base can be used (45_vector_dispatch.md R252). -/
def vectorReady (s : State) : Prop := s.pe.vbarValid = true ∧ s.pe.vbar.toNat % 0x800 = 0

/-- The four registers `ICC_SRE.SRE` gates (40_transactions.md R173). -/
def gatedRegs : List SysReg := [.iccIgrpen1, .iccPmr, .iccStatus, .iccBpr]

/-- The four registers a write of which needs an awake redistributor (40_transactions.md R149). -/
def sleepRegs : List SysReg := [.iccSre, .iccIgrpen1, .iccPmr, .iccBpr]

/-- The four read-only registers (40_transactions.md R161). -/
def roRegs : List SysReg := [.iccStatus, .cntfrq, .cntpct, .currentEL]

/-! ### Orchestration -/

/-- The command a transition runs, for the five transitions that run one, with the state reached and its number
(46_timer_orchestration.md R267). -/
def transitionOf (c : Config) : Orch → Option (Instr × Orch × DWord)
  | .uninitialized => some (.vInstall c.vectorBase, .vectorInstalled, 1#64)
  | .vectorInstalled => some (.dInit, .distributorConfigured, 2#64)
  | .distributorConfigured => some (.rInit c.wakeBound, .redistributorAwake, 3#64)
  | .redistributorAwake => some (.cInit, .cpuInterfaceReady, 4#64)
  | .timerInterruptConfigured => some (.tArm, .timerArmed, 6#64)
  | _ => none

/-- The eleven commands of transition 4, two transactions each (46_timer_orchestration.md R273). -/
def elevenCommands : List (Instr × Nat) :=
  [(.dSetGrp 30#10 1#8, 2), (.rSetGrp 30#10 1#8, 2), (.dSetPri 30#10 0#8, 2), (.rSetPri 30#10 0#8, 2),
   (.dSetTgt 30#10 0#8, 2), (.dSetCfg 30#10 0#8, 2), (.rSetCfg 30#10 0#8, 2), (.dClrPend 30#10, 2),
   (.rClrPend 30#10, 2), (.dSetEn 30#10, 2), (.rSetEn 30#10, 2)]

/-- What a transaction of one of the eleven commands ends in, told as transaction `k` of transition 4, `RSP` being `r`
before it: a command that goes on leaves its held value to `O.STEP`; one that ends writes no response but the last's,
and `O.STEP` goes on with the next (46_timer_orchestration.md R268, R273). -/
def asPart (r : Rsp) (k : Nat) (out : Host.Outcome State Fault Refusal) : Host.Outcome State Fault Refusal :=
  match out with
  | .next t =>
    match t.seq.mainCmd with
    | some m => .next (inMid t .oStep (k + 1) m.held)
    | none =>
      if k = 21 then .next { t with seq.orch := .timerInterruptConfigured, rsp := okRsp 5#64 }
      else .next (inMid { t with rsp := r } .oStep (k + 1) 0#64)
  | .fault f => .fault f
  | .refused f => .refused f

/-- What a transaction of the command of a transition ends in, told as the transaction of `O.STEP`: in flight the
position is `O.STEP`'s; at the end the state reached, or the failure (46_timer_orchestration.md R268, R271, R272). -/
def asTransition (o : Orch) (n : DWord) (out : Host.Outcome State Fault Refusal) : Host.Outcome State Fault Refusal :=
  match out with
  | .next t =>
    match t.seq.mainCmd with
    | some m => .next { t with seq.mainCmd := some { m with cmd := .oStep } }
    | none =>
      if t.halt ≠ none then .next t
      else if t.rsp.status = 0#4 then .next { t with seq.orch := o, rsp := okRsp n }
      else if t.rsp.status = 2#4 then .next { t with seq.orch := .failed .timeout }
      else if t.rsp.status = 4#4 then .next { t with seq.orch := .failed .sre }
      else .next { t with seq.orch := .failed .contract }
  | .fault r => .fault r
  | .refused r => .refused r

end Sys2Proof.Claims

open Sys2Proof Sys2Proof.Machine Sys2Proof.Claims

/-! ## Encoding -/

/-- Decoding the word of a well-formed command gives the command back, every operand at every value its field admits
(30_encoding.md sections 2 to 4). -/
def Obligations.DecodeInvertsEncode : Prop :=
  ∀ i : Instr, i.wellFormed = true → decode (encode i) = .ok i

/-- A decoded command is well formed, and its own command word is the word it was decoded from: no bit of a legal word
is dropped (30_encoding.md R110 to R116, R130). -/
def Obligations.DecodedWordIsTheCommandsOwn : Prop :=
  ∀ (d : Descriptor) (i : Instr), decode d = .ok i → i.wellFormed = true ∧ (encode i).cw = d.cw

/-- One word of every format, written out from the encoding tables (30_encoding.md R111 to R116). -/
def Obligations.SampleWordsDecode : Prop :=
  decode ⟨0x0200041C#32, 0x11223344#64⟩ = .ok (.wr32 .D 0x41C#17 0x11223344#32) ∧
  decode ⟨0x03000006#32, 0#64⟩ = .ok (.srrd .cntfrq) ∧
  decode ⟨0x09B10400#32, 0x000001A00000001E#64⟩ = .ok (.fwr .R 3#3 0x10400#17 30#32 0x1A0#16) ∧
  decode ⟨0x1101001E#32, 0#64⟩ = .ok (.dSetGrp 30#10 1#8) ∧
  decode ⟨0x24FF001F#32, 0#64⟩ = .ok (.rSetPri 31#10 0xFF#8) ∧
  decode ⟨0x190003FF#32, 0#64⟩ = .ok (.dGetPend 1023#10) ∧
  decode ⟨0x20000000#32, 0x100000003#64⟩ = .ok (.rInit 3#32) ∧
  decode ⟨0x35000000#32, 0xDEADBEEF#64⟩ = .ok .cAck ∧
  decode ⟨0x40000000#32, 0x80000#64⟩ = .ok (.vInstall 0x80000#64) ∧
  decode ⟨0x50000000#32, 0#64⟩ = .ok .tArm ∧
  decode ⟨0x60000000#32, 0#64⟩ = .ok .oStep

/-- R125: the decoder refuses exactly the illegal words, and a step that takes one up answers `ERR_ILLEGAL` and changes
nothing but `RSP`. (That the word leaves `CMD`, the choice the schedule and the step is counted is the model's form of
the environment, entries 2, 3 and 10 of the log.) -/
def Obligations.IllegalWordsAnswerIllegal : Prop :=
  (∀ d : Descriptor, (∃ e, decode d = .error e) ↔ IllegalWord d.cw) ∧
  (∀ (s : State) (d : Descriptor) (rest : List Descriptor) (es : List Event),
    IllegalWord d.cw → s.fault = none → s.halt = none → s.seq.disp = .idle → s.seq.mainCmd = none →
    s.env.cmdIn = d :: rest → s.env.sched = .main none :: es → group0InDelivery s = false →
    step s = .next { s with
      rsp := answered 15#4 0#64
      env := { cmdIn := rest, sched := es, clock := s.env.clock + 1 } })

/-- R129: the register a bank offset selects is the one of the table of matches and masks. -/
def Obligations.OffsetSelectsTheTabledRegister : Prop :=
  ∀ (c : Config) (b : Bank) (off : Nat), off < 2 ^ 17 → off % 4 = 0 →
    bankReg c.nIds b off = rowLookup c.nIds b off

/-- A step of `MAIN` runs the decoded command: the command of the descriptor that `CMD` presents to an idle `MAIN`, else
the next transaction of the command in flight; around it the choice is taken off the schedule, the step is counted, the
program's own register change stands first, and edge capture and the Group 0 check come last. (Schedule, `CMD` port and
step counter are the model's choice, entries 2, 3 and 10; that the register change stands first is entry 8.) -/
def Obligations.StepRunsTheDecodedCommand : Prop :=
  ∀ (s : State) (pe : Option PeRegs) (es : List Event),
    s.fault = none → s.halt = none → s.seq.disp = .idle → s.env.sched = .main pe :: es →
    (∀ (d : Descriptor) (rest : List Descriptor) (i : Instr), s.seq.mainCmd = none → s.env.cmdIn = d :: rest →
      decode d = .ok i →
      step s = settleOutcome (beginStep s) (exec i (applyPe pe { beginStep s with env.cmdIn := rest }))) ∧
    (∀ m : InFlight, s.seq.mainCmd = some m →
      step s = settleOutcome (beginStep s) (exec m.cmd (applyPe pe (beginStep s))))

/-! ## Bank transactions -/

/-- R140: RD32, its faults in order, and otherwise the value of the register with nothing but `RSP` changed. -/
def Obligations.BankReadOutcome : Prop :=
  ∀ (b : Bank) (off : BitVec 17) (s : State), s.seq.mainCmd = none →
    (off.toNat % 4 ≠ 0 → exec (.rd32 b off) s = .fault .misaligned) ∧
    (off.toNat % 4 = 0 → bankReg s.nIds b off.toNat = none → exec (.rd32 b off) s = .fault .unmapped) ∧
    (∀ r, off.toNat % 4 = 0 → bankReg s.nIds b off.toNat = some r →
      exec (.rd32 b off) s = .next { s with rsp := okRsp ((regRead s b r).setWidth 64) })

/-- R141: WR32, its faults in order, and otherwise the write rule of the register. -/
def Obligations.BankWriteOutcome : Prop :=
  ∀ (b : Bank) (off : BitVec 17) (v : Word) (s : State), s.seq.mainCmd = none →
    (off.toNat % 4 ≠ 0 → exec (.wr32 b off v) s = .fault .misaligned) ∧
    (off.toNat % 4 = 0 → bankReg s.nIds b off.toNat = none → exec (.wr32 b off v) s = .fault .unmapped) ∧
    (∀ r, off.toNat % 4 = 0 → bankReg s.nIds b off.toNat = some r →
      (b = .R ∧ 0x10000 ≤ off.toNat ∧ awake s = false → exec (.wr32 b off v) s = .fault .asleep) ∧
      (¬(b = .R ∧ 0x10000 ≤ off.toNat ∧ awake s = false) →
        (∀ t, regWrite s b r v = .ok t → exec (.wr32 b off v) s = .next { t with rsp := okRsp 0#64 }) ∧
        (∀ f, regWrite s b r v = .error f → exec (.wr32 b off v) s = .fault f)))

/-- R142: what a read of `D_CTLR` returns, and what a write does: `DS` is never cleared, and the group enables and
affinity routing take only if `DS` was already 1. -/
def Obligations.DistributorControlGating : Prop :=
  ∀ s : State, s.seq.mainCmd = none →
    exec (.rd32 .D 0#17) s = .next { s with
      rsp := okRsp (BitVec.ofNat 64 (s.dist.ctlr.enG0.toNat + 2 * s.dist.ctlr.enG1.toNat
        + 16 * s.dist.ctlr.are.toNat + 64 * s.dist.ctlr.ds.toNat)) } ∧
    ∀ v : Word, exec (.wr32 .D 0#17 v) s = .next { s with
      dist.ctlr :=
        { ds := s.dist.ctlr.ds || v.getLsbD 6
          enG0 := if s.dist.ctlr.ds then v.getLsbD 0 else s.dist.ctlr.enG0
          enG1 := if s.dist.ctlr.ds then v.getLsbD 1 else s.dist.ctlr.enG1
          are := if s.dist.ctlr.ds then v.getLsbD 4 else s.dist.ctlr.are }
      rsp := okRsp 0#64 }

/-- R143, R150: the group, priority, target and config windows are plain storage: a read returns the stored entries, a
write replaces every entry of its register and no other. -/
def Obligations.PlainWindowsStoreWhatIsWritten : Prop :=
  ∀ (s : State) (b : Bank) (n : Nat) (v : Word), s.seq.mainCmd = none →
    (n < idCount s b / 32 →
      Reads s b (winBase b + 0x080 + 4 * n) (fun w => ∀ k < 32, w.getLsbD k = group1 s b (32 * n + k)) ∧
      (canWrite s b → ∃ g,
        exec (.wr32 b (BitVec.ofNat 17 (winBase b + 0x080 + 4 * n)) v) s =
          .next { s.setArrays b { s.arrays b with grp := g } with rsp := okRsp 0#64 } ∧
        ∀ id, bitAt g id = if id / 32 = n then v.getLsbD (id % 32) else group1 s b id)) ∧
    (n < idCount s b / 4 →
      Reads s b (winBase b + 0x400 + 4 * n)
        (fun w => ∀ k < 4, w.extractLsb' (8 * k) 8 = priority s b (4 * n + k)) ∧
      (canWrite s b → ∃ p,
        exec (.wr32 b (BitVec.ofNat 17 (winBase b + 0x400 + 4 * n)) v) s =
          .next { s.setArrays b { s.arrays b with pri := p } with rsp := okRsp 0#64 } ∧
        ∀ id, byteAt p id = if id / 4 = n then v.extractLsb' (8 * (id % 4)) 8 else priority s b id)) ∧
    (n < idCount s b / 16 →
      Reads s b (winBase b + 0xC00 + 4 * n)
        (fun w => ∀ k < 16, w.extractLsb' (2 * k) 2 = pairAt (s.arrays b).cfg (16 * n + k)) ∧
      (canWrite s b → ∃ c,
        exec (.wr32 b (BitVec.ofNat 17 (winBase b + 0xC00 + 4 * n)) v) s =
          .next { s.setArrays b { s.arrays b with cfg := c } with rsp := okRsp 0#64 } ∧
        ∀ id, pairAt c id = if id / 16 = n then v.extractLsb' (2 * (id % 16)) 2 else pairAt (s.arrays b).cfg id)) ∧
    (n < s.cfg.nIds / 4 →
      Reads s .D (0x800 + 4 * n) (fun w => ∀ k < 4, w.extractLsb' (8 * k) 8 = byteAt s.dist.tgt (4 * n + k)) ∧
      ∃ g,
        exec (.wr32 .D (BitVec.ofNat 17 (0x800 + 4 * n)) v) s = .next { s with dist.tgt := g, rsp := okRsp 0#64 } ∧
        ∀ id, byteAt g id = if id / 4 = n then v.extractLsb' (8 * (id % 4)) 8 else byteAt s.dist.tgt id)

/-- R144 to R147: a write to a set window sets the enables or latches of its ones, a write to a clear window clears
them, zeros change nothing; the set-enable window reads as the enables, the set-pending window as the pending view, the
clear windows as zero. -/
def Obligations.SetAndClearWindows : Prop :=
  ∀ (s : State) (b : Bank) (n : Nat) (v : Word), s.seq.mainCmd = none → n < idCount s b / 32 →
    Reads s b (winBase b + 0x100 + 4 * n) (fun w => ∀ k < 32, w.getLsbD k = enabled s b (32 * n + k)) ∧
    Reads s b (winBase b + 0x180 + 4 * n) (fun w => w = 0#32) ∧
    (canWrite s b →
      (∃ e, exec (.wr32 b (BitVec.ofNat 17 (winBase b + 0x100 + 4 * n)) v) s =
          .next { s.setArrays b { s.arrays b with en := e } with rsp := okRsp 0#64 } ∧
        ∀ id, bitAt e id = (enabled s b id || (decide (id / 32 = n) && v.getLsbD (id % 32)))) ∧
      (∃ e, exec (.wr32 b (BitVec.ofNat 17 (winBase b + 0x180 + 4 * n)) v) s =
          .next { s.setArrays b { s.arrays b with en := e } with rsp := okRsp 0#64 } ∧
        ∀ id, bitAt e id = (enabled s b id && !(decide (id / 32 = n) && v.getLsbD (id % 32))))) ∧
    Reads s b (winBase b + 0x200 + 4 * n) (fun w => ∀ k < 32, w.getLsbD k =
      (latch s b (32 * n + k) ||
        (decide (b = bankOf s (32 * n + k)) && level s b (32 * n + k) && line s (32 * n + k)))) ∧
    Reads s b (winBase b + 0x280 + 4 * n) (fun w => w = 0#32) ∧
    (canWrite s b →
      (∃ p, exec (.wr32 b (BitVec.ofNat 17 (winBase b + 0x200 + 4 * n)) v) s =
          .next { s.setArrays b { s.arrays b with platch := p } with rsp := okRsp 0#64 } ∧
        ∀ id, bitAt p id = (latch s b id || (decide (id / 32 = n) && v.getLsbD (id % 32)))) ∧
      (∃ p, exec (.wr32 b (BitVec.ofNat 17 (winBase b + 0x280 + 4 * n)) v) s =
          .next { s.setArrays b { s.arrays b with platch := p } with rsp := okRsp 0#64 } ∧
        ∀ id, bitAt p id = (latch s b id && !(decide (id / 32 = n) && v.getLsbD (id % 32)))))

/-- R148: `R_WAKER` reads as its two bits; clearing `PS` takes, setting it while it is set changes nothing, setting it
after the wake is `fault(ReservedWrite)`; `CA` is not written. -/
def Obligations.WakerReadAndWrite : Prop :=
  ∀ s : State, s.seq.mainCmd = none →
    exec (.rd32 .R 0x14#17) s = .next { s with
      rsp := okRsp (BitVec.ofNat 64 (2 * s.redist.ps.toNat + 4 * s.redist.ca.toNat)) } ∧
    ∀ v : Word,
      (v.getLsbD 1 = false →
        exec (.wr32 .R 0x14#17 v) s = .next { s with redist.ps := false, rsp := okRsp 0#64 }) ∧
      (v.getLsbD 1 = true → s.redist.ps = true →
        exec (.wr32 .R 0x14#17 v) s = .next { s with rsp := okRsp 0#64 }) ∧
      (v.getLsbD 1 = true → s.redist.ps = false → exec (.wr32 .R 0x14#17 v) s = .fault .reservedWrite)

/-- R149: while the redistributor is not awake, a bank R write at `0x10000` or above and a write of the four
CPU-interface registers fault; reads of both banks and of the system registers, and writes of bank D, of `R_WAKER` and
of the other system registers, do what they do when it is awake (R140, R141, R148, R160, R161, R173). A writing command
of the SGI region completes its read and faults at its write (R210). -/
def Obligations.WritesWhileAsleepFault : Prop :=
  ∀ s : State, s.seq.mainCmd = none → awake s = false →
    (∀ (off : BitVec 17) (v : Word), 0x10000 ≤ off.toNat → off.toNat % 4 = 0 →
      bankReg s.nIds .R off.toNat ≠ none → exec (.wr32 .R off v) s = .fault .asleep) ∧
    (∀ (r : SysReg) (v : DWord), s.pe.pstate.el ≠ 0#2 → r ∈ sleepRegs → exec (.srwr r v) s = .fault .asleep) ∧
    (∀ (b : Bank) (off : BitVec 17) (r : BankReg), off.toNat % 4 = 0 → bankReg s.nIds b off.toNat = some r →
      exec (.rd32 b off) s = .next { s with rsp := okRsp ((regRead s b r).setWidth 64) }) ∧
    (∀ (off : BitVec 17) (r : BankReg) (v : Word), off.toNat % 4 = 0 → bankReg s.nIds .D off.toNat = some r →
      ∃ t, regWrite s .D r v = .ok t ∧ exec (.wr32 .D off v) s = .next { t with rsp := okRsp 0#64 }) ∧
    (∀ (r : SysReg) (v : DWord), s.pe.pstate.el ≠ 0#2 → r ∈ [.vbar, .cntpCtl, .cntpTval, .cntpCval, .daif] →
      exec (.srwr r v) s = .next { sysStore s r v with rsp := okRsp 0#64 }) ∧
    (∀ v : Word,
      exec (.wr32 .R 0x14#17 v) s =
        if v.getLsbD 1 then
          if s.redist.ps then .next { s with rsp := okRsp 0#64 } else .fault .reservedWrite
        else .next { s with redist.ps := false, rsp := okRsp 0#64 }) ∧
    (∀ r : SysReg, s.pe.pstate.el ≠ 0#2 → (r ∈ gatedRegs → s.cpu.sre = true) →
      exec (.srrd r) s = .next { s with rsp := okRsp (sysValue s r) }) ∧
    (∀ (r : SysReg) (v : DWord), s.pe.pstate.el ≠ 0#2 → r ∈ roRegs → (r ∈ gatedRegs → s.cpu.sre = true) →
      exec (.srwr r v) s = .fault .reservedWrite) ∧
    (∀ i : Instr, s.pe.pstate.el ≠ 0#2 → s.cpu.sre = false →
      ((∃ r ∈ gatedRegs, i = .srrd r) ∨ ∃ v, i = .srwr .iccStatus v) →
      (vectorReady s → exec i s = .next (sysTrapped s)) ∧ (¬vectorReady s → exec i s = .fault .noVector)) ∧
    (∀ (i : Instr) (id : BitVec 10) (v : BitVec 8), id.toNat < 32 →
      (i = .rSetGrp id v ∧ v.toNat ≤ 1 ∨ i = .rSetPri id v ∨ i = .rSetCfg id v ∧ v.toNat ≤ 3 ∨
        i ∈ [.rSetEn id, .rClrEn id, .rSetPend id, .rClrPend id]) →
      ∃ h, exec i s = .next (inMid s i 1 h) ∧ exec i (inMid s i 1 h) = .fault .asleep)

/-! ## System-register transactions -/

/-- R160 with the values of R162 to R172: what SRRD returns, register by register; the interrupt-controller status and
`ISTATUS` of a disabled timer are free values, so only that some value is returned is said of them. -/
def Obligations.SystemRegisterReads : Prop :=
  ∀ s : State, s.seq.mainCmd = none → s.pe.pstate.el ≠ 0#2 →
    (∀ (r : SysReg) (v : DWord),
      (r, v) ∈ [(SysReg.vbar, s.pe.vbar), (.iccSre, BitVec.ofNat 64 s.cpu.sre.toNat),
        (.cntfrq, BitVec.ofNat 64 s.cfg.timerFreq.toNat),
        (.cntpTval, BitVec.ofNat 64 ((s.timer.cval - s.timer.cnt).toNat % 2 ^ 32)),
        (.cntpCval, s.timer.cval), (.cntpct, s.timer.cnt),
        (.daif, BitVec.ofNat 64 (512 * s.pe.pstate.d.toNat + 256 * s.pe.pstate.a.toNat
          + 128 * s.pe.pstate.i.toNat + 64 * s.pe.pstate.f.toNat)),
        (.currentEL, BitVec.ofNat 64 (4 * s.pe.pstate.el.toNat))] →
      exec (.srrd r) s = .next { s with rsp := okRsp v }) ∧
    (s.timer.enable = true → exec (.srrd .cntpCtl) s = .next { s with
      rsp := okRsp (BitVec.ofNat 64 (1 + 2 * s.timer.imask.toNat
        + 4 * (decide (s.timer.cval.toNat ≤ s.timer.cnt.toNat)).toNat)) }) ∧
    (s.timer.enable = false → ∃ istatus : Bool, exec (.srrd .cntpCtl) s = .next { s with
      rsp := okRsp (BitVec.ofNat 64 (2 * s.timer.imask.toNat + 4 * istatus.toNat)) }) ∧
    (s.cpu.sre = true →
      exec (.srrd .iccIgrpen1) s = .next { s with rsp := okRsp (BitVec.ofNat 64 s.cpu.grp1en.toNat) } ∧
      exec (.srrd .iccPmr) s = .next { s with rsp := okRsp (BitVec.ofNat 64 s.cpu.pmr.toNat) } ∧
      exec (.srrd .iccBpr) s = .next { s with rsp := okRsp (BitVec.ofNat 64 s.cpu.bpr.toNat) } ∧
      ∃ v, exec (.srrd .iccStatus) s = .next { s with rsp := okRsp v })

/-- R161 with the write rules of R162 to R171: what SRWR does, register by register, and that a write of a read-only
register is `fault(ReservedWrite)`. -/
def Obligations.SystemRegisterWrites : Prop :=
  ∀ (s : State) (v : DWord), s.seq.mainCmd = none → s.pe.pstate.el ≠ 0#2 →
    exec (.srwr .vbar v) s = .next { s with pe.vbar := v, pe.vbarValid := true, rsp := okRsp 0#64 } ∧
    exec (.srwr .cntpCtl v) s =
      .next { s with timer.enable := v.getLsbD 0, timer.imask := v.getLsbD 1, rsp := okRsp 0#64 } ∧
    exec (.srwr .cntpCval v) s = .next { s with timer.cval := v, rsp := okRsp 0#64 } ∧
    exec (.srwr .cntpTval v) s = .next { s with
      timer.cval := BitVec.ofInt 64 (s.timer.cnt.toNat + (v.setWidth 32).toInt), rsp := okRsp 0#64 } ∧
    exec (.srwr .daif v) s = .next { s with
      pe.pstate := { s.pe.pstate with d := v.getLsbD 9, a := v.getLsbD 8, i := v.getLsbD 7, f := v.getLsbD 6 }
      rsp := okRsp 0#64 } ∧
    (∀ r ∈ [SysReg.cntfrq, .cntpct, .currentEL], exec (.srwr r v) s = .fault .reservedWrite) ∧
    (s.cpu.sre = true → exec (.srwr .iccStatus v) s = .fault .reservedWrite) ∧
    (awake s = true →
      exec (.srwr .iccSre v) s = .next { s with
        cpu.sre := if s.cfg.sreSticks then v.getLsbD 0 else s.cpu.sre, rsp := okRsp 0#64 } ∧
      (s.cpu.sre = true →
        exec (.srwr .iccIgrpen1 v) s = .next { s with cpu.grp1en := v.getLsbD 0, rsp := okRsp 0#64 } ∧
        exec (.srwr .iccPmr v) s = .next { s with cpu.pmr := v.extractLsb' 0 8, rsp := okRsp 0#64 } ∧
        exec (.srwr .iccBpr v) s = .next { s with cpu.bpr := v.extractLsb' 0 3, rsp := okRsp 0#64 }))

/-- R313: what the transaction that raises `SysRegTrap` does: the trap to the synchronous vector, the command abandoned
with no response, the thread halted; with no usable vector base, `fault(NoVector)`. -/
def Obligations.SystemRegisterTrapIsTaken : Prop :=
  ∀ (s : State) (i : Instr), s.seq.mainCmd = none → s.pe.pstate.el ≠ 0#2 → s.cpu.sre = false →
    ((∃ r ∈ gatedRegs, i = .srrd r) ∨ (∃ v, i = .srwr .iccStatus v) ∨
      (awake s = true ∧ ((∃ r ∈ gatedRegs, ∃ v, i = .srwr r v) ∨ i = .cPmr ∨ i = .cGrp1en))) →
    (vectorReady s → exec i s = .next (sysTrapped s)) ∧ (¬vectorReady s → exec i s = .fault .noVector)

/-- R317: at exception level 0 every system-register transaction and `C.UNMASK` is `fault(El0)`. -/
def Obligations.LevelZeroFaults : Prop :=
  ∀ (s : State) (i : Instr), s.seq.mainCmd = none → s.pe.pstate.el = 0#2 →
    ((∃ r, i = .srrd r) ∨ (∃ r v, i = .srwr r v) ∨ (∃ a, i = .vInstall a) ∨
      i ∈ [.cInit, .cSre, .cPmr, .cGrp1en, .cUnmask, .vCurel, .tArm, .tHandle]) →
    exec i s = .fault .el0

/-! ## The field accessor -/

/-- R180: the geometry of a field: its register, its shift, its mask; no field straddles two registers, and different
indices have different places; an offset of `2^17` or more is unmapped. -/
def Obligations.FieldGeometry : Prop :=
  ∀ (wlog : BitVec 3) (base : Nat), wlog.toNat ≤ 4 →
    (∀ index, fieldOff wlog base index = base + 4 * (index / (32 / 2 ^ wlog.toNat)) ∧
      fieldShift wlog index = index % (32 / 2 ^ wlog.toNat) * 2 ^ wlog.toNat ∧
      (fieldMask wlog).toNat = 2 ^ 2 ^ wlog.toNat - 1 ∧
      fieldShift wlog index + 2 ^ wlog.toNat ≤ 32) ∧
    (∀ i j, fieldOff wlog base i = fieldOff wlog base j → fieldShift wlog i = fieldShift wlog j → i = j) ∧
    (∀ (c : Config) (b : Bank) (off : Nat), 2 ^ 17 ≤ off → bankReg c.nIds b off = none)

/-- R181: FRD reads the register of the field and returns the field. -/
def Obligations.FieldReadReturnsTheField : Prop :=
  ∀ (s : State) (b : Bank) (wlog : BitVec 3) (base : BitVec 17) (index : Word),
    s.seq.mainCmd = none → wlog.toNat ≤ 4 →
    (∀ f, memRead s b (fieldOff wlog base.toNat index.toNat) = .error f →
      exec (.frd b wlog base index) s = .fault f) ∧
    (∀ r, memRead s b (fieldOff wlog base.toNat index.toNat) = .ok r →
      exec (.frd b wlog base index) s = .next { s with
        rsp := okRsp (BitVec.ofNat 64 (r.toNat / 2 ^ fieldShift wlog index.toNat % 2 ^ 2 ^ wlog.toNat)) })

/-- R182: FWR in its two transactions: the read, whose value is held; then, from whatever state the other agents have
left in between, the write of that value with the field replaced by the low bits of the operand. -/
def Obligations.FieldWriteIsReadThenWrite : Prop :=
  ∀ (s : State) (b : Bank) (wlog : BitVec 3) (base : BitVec 17) (index : Word) (value : BitVec 16),
    wlog.toNat ≤ 4 →
    (s.seq.mainCmd = none →
      (∀ f, memRead s b (fieldOff wlog base.toNat index.toNat) = .error f →
        exec (.fwr b wlog base index value) s = .fault f) ∧
      (∀ r, memRead s b (fieldOff wlog base.toNat index.toNat) = .ok r →
        exec (.fwr b wlog base index value) s =
          .next (inMid s (.fwr b wlog base index value) 1 (r.setWidth 64)))) ∧
    (∀ r : Word, ∃ r' : Word,
      (∀ k < 32, r'.getLsbD k =
        if fieldShift wlog index.toNat ≤ k ∧ k < fieldShift wlog index.toNat + 2 ^ wlog.toNat then
          value.getLsbD (k - fieldShift wlog index.toNat)
        else r.getLsbD k) ∧
      (∀ t, memWrite (inMid s (.fwr b wlog base index value) 1 (r.setWidth 64)) b
          (fieldOff wlog base.toNat index.toNat) r' = .ok t →
        exec (.fwr b wlog base index value) (inMid s (.fwr b wlog base index value) 1 (r.setWidth 64)) =
          .next { t with rsp := okRsp 0#64, seq.mainCmd := none }) ∧
      (∀ f, memWrite (inMid s (.fwr b wlog base index value) 1 (r.setWidth 64)) b
          (fieldOff wlog base.toNat index.toNat) r' = .error f →
        exec (.fwr b wlog base index value) (inMid s (.fwr b wlog base index value) 1 (r.setWidth 64)) = .fault f))

/-- R184: over plain storage, reading a field after writing it gives the value written modulo `2^w`, and every other
field of the window reads as it did before the write. -/
def Obligations.FieldWriteThenFieldRead : Prop :=
  ∀ (s : State) (b : Bank) (wlog : BitVec 3) (base : BitVec 17) (index : Word) (value : BitVec 16),
    s.seq.mainCmd = none → canWrite s b → wlog.toNat ≤ 4 → base.toNat % 4 = 0 →
    (∃ n, bankReg s.nIds b (fieldOff wlog base.toNat index.toNat) ∈
      [some (BankReg.grp n), some (.pri n), some (.tgt n), some (.cfg n)]) →
    ∃ t, InTwo (.fwr b wlog base index value) s t ∧
      exec (.frd b wlog base index) t =
        .next { t with rsp := okRsp (BitVec.ofNat 64 (value.toNat % 2 ^ 2 ^ wlog.toNat)) } ∧
      ∀ (other : Word) (n : Nat), other ≠ index →
        bankReg s.nIds b (fieldOff wlog base.toNat other.toNat) ∈
          [some (BankReg.grp n), some (.pri n), some (.tgt n), some (.cfg n)] →
        ∃ v, exec (.frd b wlog base other) s = .next { s with rsp := okRsp v } ∧
          exec (.frd b wlog base other) t = .next { t with rsp := okRsp v }

/-! ## Distributor and redistributor commands -/

/-- R191: D.INIT in its six transactions: `DS` after the second, the group enables after the fourth, affinity routing
after the sixth, in that order whatever the register held. -/
def Obligations.DistributorInitOrder : Prop :=
  ∀ s : State, s.seq.mainCmd = none →
    exec .dInit s = .next (inMid s .dInit 1 ((ctlrWord s.dist.ctlr).setWidth 64)) ∧
    execs .dInit 2 s = .next (inMid { s with dist.ctlr.ds := true } .dInit 2 0#64) ∧
    execs .dInit 4 s = .next
      (inMid { s with dist.ctlr := { s.dist.ctlr with ds := true, enG0 := true, enG1 := true } } .dInit 4 0#64) ∧
    execs .dInit 6 s = .next
      { s with dist.ctlr := { ds := true, enG0 := true, enG1 := true, are := true }, rsp := okRsp 0#64 }

/-- R192, R195, R197: D.SETGRP, D.SETPRI and D.SETCFG write one entry of one array and nothing else; an ID or a config
value out of range is a contract violation, with no transaction. -/
def Obligations.DistributorSetsOneEntry : Prop :=
  ∀ (s : State) (id : BitVec 10) (v : BitVec 8), s.seq.mainCmd = none →
    (id.toNat < s.cfg.nIds →
      (v.toNat ≤ 1 → ∃ g,
        InTwo (.dSetGrp id v) s { s with dist.arr.grp := g, rsp := okRsp 0#64 } ∧
        ∀ k, bitAt g k = if k = id.toNat then v.getLsbD 0 else group1 s .D k) ∧
      (∃ p, InTwo (.dSetPri id v) s { s with dist.arr.pri := p, rsp := okRsp 0#64 } ∧
        ∀ k, byteAt p k = if k = id.toNat then v else priority s .D k) ∧
      (v.toNat ≤ 3 → ∃ c,
        InTwo (.dSetCfg id v) s { s with dist.arr.cfg := c, rsp := okRsp 0#64 } ∧
        ∀ k, pairAt c k = if k = id.toNat then v.extractLsb' 0 2 else pairAt s.dist.arr.cfg k)) ∧
    (s.cfg.nIds ≤ id.toNat →
      (v.toNat ≤ 1 → exec (.dSetGrp id v) s = .next { s with rsp := contractRsp }) ∧
      exec (.dSetPri id v) s = .next { s with rsp := contractRsp } ∧
      exec (.dSetCfg id v) s = .next { s with rsp := contractRsp }) ∧
    (3 < v.toNat → exec (.dSetCfg id v) s = .next { s with rsp := contractRsp })

/-- R196: D.SETTGT adds one target bit to the entry and changes nothing else; a target above 7 or an ID out of range is
a contract violation, with no transaction. -/
def Obligations.DistributorAddsATarget : Prop :=
  ∀ (s : State) (id : BitVec 10) (cpu : BitVec 8), s.seq.mainCmd = none →
    (id.toNat < s.cfg.nIds → cpu.toNat ≤ 7 → ∃ g,
      InTwo (.dSetTgt id cpu) s { s with dist.tgt := g, rsp := okRsp 0#64 } ∧
      ∀ k, byteAt g k =
        if k = id.toNat then byteAt s.dist.tgt k ||| 1#8 <<< cpu.toNat else byteAt s.dist.tgt k) ∧
    (7 < cpu.toNat ∨ s.cfg.nIds ≤ id.toNat → exec (.dSetTgt id cpu) s = .next { s with rsp := contractRsp })

/-- R193, R194, R213, R214: D.SETEN, D.CLREN, R.SETEN and R.CLREN set and clear the enable of one interrupt of their
bank and of no other; an ID out of range is a contract violation, with no transaction. -/
def Obligations.EnableCommandsMoveOneBit : Prop :=
  ∀ (s : State) (id : BitVec 10), s.seq.mainCmd = none →
    (id.toNat < s.cfg.nIds →
      (∃ e, InTwo (.dSetEn id) s { s with dist.arr.en := e, rsp := okRsp 0#64 } ∧
        ∀ k, bitAt e k = if k = id.toNat then true else enabled s .D k) ∧
      (∃ e, InTwo (.dClrEn id) s { s with dist.arr.en := e, rsp := okRsp 0#64 } ∧
        ∀ k, bitAt e k = if k = id.toNat then false else enabled s .D k)) ∧
    (s.cfg.nIds ≤ id.toNat →
      exec (.dSetEn id) s = .next { s with rsp := contractRsp } ∧
      exec (.dClrEn id) s = .next { s with rsp := contractRsp }) ∧
    (id.toNat < 32 → awake s = true →
      (∃ e, InTwo (.rSetEn id) s { s with redist.arr.en := e, rsp := okRsp 0#64 } ∧
        ∀ k, bitAt e k = if k = id.toNat then true else enabled s .R k) ∧
      (∃ e, InTwo (.rClrEn id) s { s with redist.arr.en := e, rsp := okRsp 0#64 } ∧
        ∀ k, bitAt e k = if k = id.toNat then false else enabled s .R k)) ∧
    (32 ≤ id.toNat →
      exec (.rSetEn id) s = .next { s with rsp := contractRsp } ∧
      exec (.rClrEn id) s = .next { s with rsp := contractRsp })

/-- R212, R215, R216, R217: R.SETGRP, R.SETPRI and R.SETCFG write one entry of one array and nothing else, R.GETPRI
returns one; an ID or a config value out of range is a contract violation, with no transaction. -/
def Obligations.RedistributorSetsOneEntry : Prop :=
  ∀ (s : State) (id : BitVec 10) (v : BitVec 8), s.seq.mainCmd = none →
    (id.toNat < 32 →
      exec (.rGetPri id) s = .next { s with rsp := okRsp ((priority s .R id.toNat).setWidth 64) } ∧
      (awake s = true →
        (v.toNat ≤ 1 → ∃ g,
          InTwo (.rSetGrp id v) s { s with redist.arr.grp := g, rsp := okRsp 0#64 } ∧
          ∀ k, bitAt g k = if k = id.toNat then v.getLsbD 0 else group1 s .R k) ∧
        (∃ p, InTwo (.rSetPri id v) s { s with redist.arr.pri := p, rsp := okRsp 0#64 } ∧
          ∀ k, byteAt p k = if k = id.toNat then v else priority s .R k) ∧
        (v.toNat ≤ 3 → ∃ c,
          InTwo (.rSetCfg id v) s { s with redist.arr.cfg := c, rsp := okRsp 0#64 } ∧
          ∀ k, pairAt c k = if k = id.toNat then v.extractLsb' 0 2 else pairAt s.redist.arr.cfg k))) ∧
    (32 ≤ id.toNat →
      (v.toNat ≤ 1 → exec (.rSetGrp id v) s = .next { s with rsp := contractRsp }) ∧
      exec (.rSetPri id v) s = .next { s with rsp := contractRsp } ∧
      exec (.rGetPri id) s = .next { s with rsp := contractRsp } ∧
      exec (.rSetCfg id v) s = .next { s with rsp := contractRsp }) ∧
    (3 < v.toNat → exec (.rSetCfg id v) s = .next { s with rsp := contractRsp })

/-- R198, R199, R200, R218, R219, R220: SETPEND latches the interrupt, and with it every interrupt of the same register
whose pending view read 1; CLRPEND clears one latch; GETPEND returns the pending view; in bank D and in bank R. -/
def Obligations.PendingCommands : Prop :=
  ∀ (s : State) (id : BitVec 10), s.seq.mainCmd = none →
    (id.toNat < s.cfg.nIds →
      (∃ p, InTwo (.dSetPend id) s { s with dist.arr.platch := p, rsp := okRsp 0#64 } ∧
        ∀ k, bitAt p k =
          (latch s .D k || decide (k = id.toNat) || (decide (k / 32 = id.toNat / 32) && pend s .D k))) ∧
      (∃ p, InTwo (.dClrPend id) s { s with dist.arr.platch := p, rsp := okRsp 0#64 } ∧
        ∀ k, bitAt p k = if k = id.toNat then false else latch s .D k) ∧
      exec (.dGetPend id) s =
        .next { s with rsp := okRsp (BitVec.ofNat 64 (pend s .D id.toNat).toNat) }) ∧
    (s.cfg.nIds ≤ id.toNat →
      exec (.dSetPend id) s = .next { s with rsp := contractRsp } ∧
      exec (.dClrPend id) s = .next { s with rsp := contractRsp } ∧
      exec (.dGetPend id) s = .next { s with rsp := contractRsp }) ∧
    (id.toNat < 32 →
      exec (.rGetPend id) s =
        .next { s with rsp := okRsp (BitVec.ofNat 64 (pend s .R id.toNat).toNat) } ∧
      (awake s = true →
        (∃ p, InTwo (.rSetPend id) s { s with redist.arr.platch := p, rsp := okRsp 0#64 } ∧
          ∀ k, bitAt p k = (latch s .R k || decide (k = id.toNat) || (decide (k < 32) && pend s .R k))) ∧
        (∃ p, InTwo (.rClrPend id) s { s with redist.arr.platch := p, rsp := okRsp 0#64 } ∧
          ∀ k, bitAt p k = if k = id.toNat then false else latch s .R k))) ∧
    (32 ≤ id.toNat →
      exec (.rSetPend id) s = .next { s with rsp := contractRsp } ∧
      exec (.rClrPend id) s = .next { s with rsp := contractRsp } ∧
      exec (.rGetPend id) s = .next { s with rsp := contractRsp })

/-- R211: R.INIT transaction by transaction: the read, the write that clears `PS` and nothing else, then polls; a poll
that reads "children asleep" = 0 ends with `OK` and the count of the polls before it, one that reads 1 counts on, and at
the bound the command ends with `ERR_TIMEOUT`. A bound of 0 ends it after the write. -/
def Obligations.WakeSequenceTransactions : Prop :=
  ∀ (s : State) (bound : Word),
    (s.seq.mainCmd = none →
      exec (.rInit bound) s = .next (inMid s (.rInit bound) 1 ((wakerWord s.redist).setWidth 64))) ∧
    (∀ r : Word, exec (.rInit bound) (inMid s (.rInit bound) 1 (r.setWidth 64)) =
      if bound = 0#32 then
        .next { s with redist.ps := false, rsp := answered 2#4 0#64, seq.mainCmd := none }
      else .next (inMid { s with redist.ps := false } (.rInit bound) 2 0#64)) ∧
    (∀ (k : Nat) (n : DWord), exec (.rInit bound) (inMid s (.rInit bound) (k + 2) n) =
      if s.redist.ca = false then .next { s with rsp := okRsp n, seq.mainCmd := none }
      else if n + 1#64 = bound.setWidth 64 then
        .next { s with rsp := answered 2#4 (bound.setWidth 64), seq.mainCmd := none }
      else .next (inMid s (.rInit bound) (k + 3) (n + 1#64)))

/-- R211, the source's test: after `n` polls that read "children asleep" = 1 and a step of `WAKE` the command succeeds
with `n`; if `WAKE` never steps it times out after exactly `bound` polls, with `PS` cleared. -/
def Obligations.WakePollCounts : Prop :=
  ∀ (s : State) (bound : Word), s.seq.mainCmd = none → s.redist.ca = true →
    execs (.rInit bound) (2 + bound.toNat) s =
      .next { s with redist.ps := false, rsp := answered 2#4 (bound.setWidth 64) } ∧
    ∀ n < bound.toNat, ∃ u, execs (.rInit bound) (2 + n) s = .next u ∧
      exec (.rInit bound) (wakeStep u) =
        .next { s with redist.ps := false, redist.ca := false, rsp := okRsp (BitVec.ofNat 64 n) }

/-- R222: `WAKE` clears "children asleep" when `PS` is 0 and `CA` is 1 and has no other step; once the redistributor is
awake it stays so through every step but reset. -/
def Obligations.WakeResponder : Prop :=
  (∀ s : State, s.redist.ps = false → s.redist.ca = true →
    agentStep .wake s = .next { s with redist.ca := false } ∧ awake { s with redist.ca := false } = true) ∧
  (∀ s : State, ¬(s.redist.ps = false ∧ s.redist.ca = true) → agentStep .wake s = .next s) ∧
  (∀ s t : State, awake s = true → nextEvent s ≠ .reset → step s = .next t → awake t = true)

/-! ## CPU-interface and vector commands -/

/-- R230, R231, R232, R233: C.SRE reads, writes the enable bit OR-ed in, reads back, and answers `ERR_SRE` exactly where
the platform does not let the bit stick; C.PMR, C.GRP1EN and C.UNMASK are one transaction each; given to a sleeping
redistributor the writes of the first three fault. -/
def Obligations.CpuInterfaceSteps : Prop :=
  ∀ s : State, s.seq.mainCmd = none → s.pe.pstate.el ≠ 0#2 →
    exec .cSre s = .next (inMid s .cSre 1 (BitVec.ofNat 64 s.cpu.sre.toNat)) ∧
    exec .cUnmask s = .next { s with pe.pstate.i := false, rsp := okRsp 0#64 } ∧
    (awake s = true → s.cfg.sreSticks = true →
      execs .cSre 3 s = .next { s with cpu.sre := true, rsp := okRsp 0#64 }) ∧
    (awake s = true → s.cfg.sreSticks = false → s.cpu.sre = false →
      execs .cSre 3 s = .next { s with rsp := answered 4#4 0#64 }) ∧
    (awake s = true → s.cpu.sre = true →
      exec .cPmr s = .next { s with cpu.pmr := 0xFF#8, rsp := okRsp 0#64 } ∧
      exec .cGrp1en s = .next { s with cpu.grp1en := true, rsp := okRsp 0#64 }) ∧
    (awake s = false →
      execs .cSre 2 s = .fault .asleep ∧ exec .cPmr s = .fault .asleep ∧ exec .cGrp1en s = .fault .asleep)

/-- R234: C.INIT runs the four steps in order; where the enable bit does not stick it stops there with `ERR_SRE` and the
mask, the group enable and the core's mask are as they were. -/
def Obligations.CpuInterfaceInit : Prop :=
  ∀ s : State, s.seq.mainCmd = none → s.pe.pstate.el ≠ 0#2 → awake s = true →
    exec .cInit s = .next (inMid s .cInit 1 (BitVec.ofNat 64 s.cpu.sre.toNat)) ∧
    (s.cfg.sreSticks = true →
      execs .cInit 3 s = .next (inMid { s with cpu.sre := true } .cInit 3 0#64) ∧
      execs .cInit 5 s =
        .next (inMid { s with cpu := { s.cpu with sre := true, pmr := 0xFF#8, grp1en := true } } .cInit 5 0#64) ∧
      execs .cInit 6 s = .next { s with
        cpu := { s.cpu with sre := true, pmr := 0xFF#8, grp1en := true }
        pe.pstate.i := false
        rsp := okRsp 0#64 }) ∧
    (s.cfg.sreSticks = false → s.cpu.sre = false →
      execs .cInit 3 s = .next { s with rsp := answered 4#4 0#64 })

/-- R235, R236: C.ACK consumes the pending latch of the current interrupt in its effective bank and marks it
acknowledged, C.EOI ends that; with no current interrupt C.ACK returns 1023 and neither changes anything. -/
def Obligations.AcknowledgeAndEndOfInterrupt : Prop :=
  ∀ s : State, s.seq.mainCmd = none →
    (s.cpu.curId = none →
      exec .cAck s = .next { s with rsp := okRsp 1023#64 } ∧ exec .cEoi s = .next { s with rsp := okRsp 0#64 }) ∧
    (∀ id, s.cpu.curId = some id → id < s.cfg.nIds →
      (∃ p a, exec .cAck s = .next { s.setArrays (bankOf s id) { s.arrays (bankOf s id) with platch := p } with
          cpu := { s.cpu with acked := a }
          rsp := okRsp (BitVec.ofNat 64 id) } ∧
        (∀ k, bitAt p k = if k = id then false else latch s (bankOf s id) k) ∧
        ∀ k, bitAt a k = if k = id then true else acked s k) ∧
      ∃ a, exec .cEoi s = .next { s with cpu.acked := a, rsp := okRsp 0#64 } ∧
        ∀ k, bitAt a k = if k = id then false else acked s k)

/-- R250, R251: V.INSTALL writes the vector base, whatever its alignment; V.CUREL returns the exception level. -/
def Obligations.VectorCommands : Prop :=
  ∀ (s : State) (addr : DWord), s.seq.mainCmd = none → s.pe.pstate.el ≠ 0#2 →
    exec (.vInstall addr) s = .next { s with pe.vbar := addr, pe.vbarValid := true, rsp := okRsp 0#64 } ∧
    exec .vCurel s = .next { s with rsp := okRsp (s.pe.pstate.el.setWidth 64) }

/-- R252, R256: the vector of a class, where the base is usable, and the saved processor state: packing puts each field
at its bit and every other bit at 0, and unpacking gives the processor state back. -/
def Obligations.VectorAddressAndSavedState : Prop :=
  (∀ (s : State) (c : ExcClass) (off : Nat),
    (c, off) ∈ [(ExcClass.sync, 0x000), (.irq, 0x080), (.fiq, 0x100), (.serror, 0x180)] →
    (vectorReady s → takeTrap s c = .ok { s with pe := trapped s.pe s.cfg (BitVec.ofNat 64 off) }) ∧
    (¬vectorReady s → takeTrap s c = .error .noVector)) ∧
  (∀ p : PState,
    packPState p = BitVec.ofNat 64 (512 * p.d.toNat + 256 * p.a.toNat + 128 * p.i.toNat + 64 * p.f.toNat
      + 4 * p.el.toNat + p.spSel.toNat) ∧
    unpackPState (packPState p) = p)

/-! ## Timer -/

/-- R265: T.ARM in its four transactions: the delta, the compare value, its read-back, and only then the enable. -/
def Obligations.TimerArmOrder : Prop :=
  ∀ s : State, s.seq.mainCmd = none → s.pe.pstate.el ≠ 0#2 → s.cfg.timerDelta.toNat < 2 ^ 31 →
    exec .tArm s =
      .next (inMid { s with seq.tDelta := s.cfg.timerDelta } .tArm 1 (s.cfg.timerDelta.setWidth 64)) ∧
    execs .tArm 2 s = .next (inMid { s with
      seq.tDelta := s.cfg.timerDelta
      timer.cval := s.timer.cnt + s.cfg.timerDelta.setWidth 64 } .tArm 2 0#64) ∧
    execs .tArm 3 s = .next (inMid { s with
      seq.tDelta := s.cfg.timerDelta
      seq.tDiag := s.timer.cnt + s.cfg.timerDelta.setWidth 64
      timer.cval := s.timer.cnt + s.cfg.timerDelta.setWidth 64 } .tArm 3
        (s.timer.cnt + s.cfg.timerDelta.setWidth 64)) ∧
    execs .tArm 4 s = .next { s with
      seq.tDelta := s.cfg.timerDelta
      seq.tDiag := s.timer.cnt + s.cfg.timerDelta.setWidth 64
      timer := { s.timer with
        cval := s.timer.cnt + s.cfg.timerDelta.setWidth 64, enable := true, imask := false }
      rsp := okRsp (s.timer.cnt + s.cfg.timerDelta.setWidth 64) }

/-- R266: T.HANDLE moves the compare value to the counter plus the kept delta and reads it back; where the timer had
expired, the delta is one `T.ARM` can have kept and the counter does not wrap, the new compare value is strictly greater
than the old one and the timer line is low at once. -/
def Obligations.TimerHandlerRearms : Prop :=
  ∀ s : State, s.seq.mainCmd = none → s.pe.pstate.el ≠ 0#2 →
    exec .tHandle s = .next (inMid { s with
      timer.cval := s.timer.cnt + s.seq.tDelta.signExtend 64 } .tHandle 1 0#64) ∧
    execs .tHandle 2 s = .next { s with
      timer.cval := s.timer.cnt + s.seq.tDelta.signExtend 64
      seq.tDiag := s.timer.cnt + s.seq.tDelta.signExtend 64
      rsp := okRsp (s.timer.cnt + s.seq.tDelta.signExtend 64) } ∧
    (timerCond s = true → 1 ≤ s.seq.tDelta.toNat → s.seq.tDelta.toNat < 2 ^ 31 →
      s.timer.cnt.toNat + s.seq.tDelta.toNat < 2 ^ 64 →
      s.timer.cval.toNat < (s.timer.cnt + s.seq.tDelta.signExtend 64).toNat ∧
      timerLine { s with timer.cval := s.timer.cnt + s.seq.tDelta.signExtend 64 } = false)

/-- R318, R319: a step of `TICK` advances the counter modulo `2^64`, and edge capture (R303) and the Group 0 check (R305)
come after it as after every step; nothing else changes but the latch that R303 gives interrupt 30 (schedule and step
counter are the model's, entries 2 and 10). The line of the timer is high exactly when it is enabled, not masked and the
counter has reached the compare value. -/
def Obligations.TickAdvancesTheCounter : Prop :=
  (∀ s : State, s.fault = none → nextEvent s = .tick →
    step s = settle (beginStep s) { beginStep s with timer.cnt := s.timer.cnt + 1#64 } ∧
    ∀ t, step s = .next t →
      t = { s with
        timer.cnt := s.timer.cnt + 1#64
        dist.arr.platch := t.dist.arr.platch
        redist.arr.platch := t.redist.arr.platch
        env := { cmdIn := s.env.cmdIn, sched := s.env.sched.tail, clock := s.env.clock + 1 } } ∧
      ∀ b id, latch t b id = (latch s b id ||
        (decide (id = 30) && decide (b = bankOf s 30) && edge s b 30 && !timerLine s &&
          timerLine { s with timer.cnt := s.timer.cnt + 1#64 }))) ∧
  (∀ s : State, timerLine s =
    (s.timer.enable && !s.timer.imask && decide (s.timer.cval.toNat ≤ s.timer.cnt.toNat)))

/-! ## Orchestration -/

/-- R268 to R270, R272, R274 to R276: O.STEP with all its transactions, transition by transition: the vector base,
`D.INIT`, `C.INIT`, `T.ARM`, the step into `Running`; in `Running` and in every failed state it answers `ERR_STATE` and
changes nothing. (Transitions 2 and 4 are stated below.) -/
def Obligations.SequencerTransitions : Prop :=
  ∀ s : State, s.seq.mainCmd = none →
    (s.seq.orch = .uninitialized → s.pe.pstate.el ≠ 0#2 →
      exec .oStep s = .next { s with
        pe.vbar := s.cfg.vectorBase, pe.vbarValid := true, seq.orch := .vectorInstalled, rsp := okRsp 1#64 }) ∧
    (s.seq.orch = .timerArmed →
      exec .oStep s = .next { s with seq.orch := .running, rsp := okRsp 7#64 }) ∧
    (s.seq.orch = .running ∨ (∃ k, s.seq.orch = .failed k) →
      exec .oStep s = .next { s with rsp := answered 5#4 0#64 }) ∧
    (s.seq.orch = .vectorInstalled →
      exec .oStep s = .next (inMid s .oStep 1 ((ctlrWord s.dist.ctlr).setWidth 64)) ∧
      execs .oStep 6 s = .next { s with
        dist.ctlr := { ds := true, enG0 := true, enG1 := true, are := true }
        seq.orch := .distributorConfigured
        rsp := okRsp 2#64 }) ∧
    (s.seq.orch = .redistributorAwake → s.pe.pstate.el ≠ 0#2 → awake s = true →
      (s.cfg.sreSticks = true → execs .oStep 6 s = .next { s with
        cpu := { s.cpu with sre := true, pmr := 0xFF#8, grp1en := true }
        pe.pstate.i := false
        seq.orch := .cpuInterfaceReady
        rsp := okRsp 4#64 }) ∧
      (s.cfg.sreSticks = false → s.cpu.sre = false →
        execs .oStep 3 s = .next { s with seq.orch := .failed .sre, rsp := answered 4#4 0#64 })) ∧
    (s.seq.orch = .timerInterruptConfigured → s.pe.pstate.el ≠ 0#2 → s.cfg.timerDelta.toNat < 2 ^ 31 →
      execs .oStep 4 s = .next { s with
        seq.tDelta := s.cfg.timerDelta
        seq.tDiag := s.timer.cnt + s.cfg.timerDelta.setWidth 64
        timer := { s.timer with
          cval := s.timer.cnt + s.cfg.timerDelta.setWidth 64, enable := true, imask := false }
        seq.orch := .timerArmed
        rsp := okRsp 6#64 })

/-- R268: every transaction of a transition that runs one command is the transaction of that command; the last one also
writes `orch`, the state reached on success, the failure otherwise. -/
def Obligations.SequencerRunsTheCommand : Prop :=
  ∀ (s : State) (c : Instr) (o : Orch) (n : DWord), s.halt = none →
    transitionOf s.cfg s.seq.orch = some (c, o, n) →
    (s.seq.mainCmd = none → exec .oStep s = asTransition o n (exec c s)) ∧
    (∀ k h, exec .oStep (inMid s .oStep k h) = asTransition o n (exec c (inMid s c k h)))

/-- R273: transition 4 is the eleven commands for interrupt 30, in order, transaction by transaction: from whatever state
the other agents have left, transaction `k` of the 22 is the read (`k` even) or the write (`k` odd) of command `k / 2` of
the list, so the enables come last. With no other agent in between, the 22 leave what the eleven commands one after
another leave, with `orch` and the response of the sequencer; in both banks interrupt 30 is then in Group 1, at priority
0, level-sensitive, not latched and enabled. -/
def Obligations.SequencerConfiguresTheTimerInterrupt : Prop :=
  (∀ s : State, s.seq.orch = .cpuInterfaceReady →
    (s.seq.mainCmd = none → exec .oStep s = asPart s.rsp 0 (exec (.dSetGrp 30#10 1#8) s)) ∧
    (∀ (k : Nat) (h : DWord) (i : Instr) (n : Nat), elevenCommands[k / 2]? = some (i, n) →
      exec .oStep (inMid s .oStep k h) = asPart s.rsp k (exec i (inMid s i (k % 2) h)))) ∧
  (∀ s : State, s.seq.mainCmd = none → s.seq.orch = .cpuInterfaceReady → awake s = true →
    ∃ t, execAll elevenCommands s = .next t ∧
      execs .oStep 22 s =
        .next { t with seq.orch := .timerInterruptConfigured, rsp := okRsp 5#64 } ∧
      (∀ b, group1 t b 30 = true ∧ priority t b 30 = 0#8 ∧ edge t b 30 = false ∧ latch t b 30 = false ∧
        enabled t b 30 = true) ∧
      (byteAt t.dist.tgt 30).getLsbD 0 = true ∧
      t = { s with dist.arr := t.dist.arr, dist.tgt := t.dist.tgt, redist.arr := t.redist.arr, rsp := t.rsp })

/-- R278: O.POLL answers `ERR_STATE` outside `Running`; in `Running` it reports the pending view of interrupt 30 in bank
R, and a set one is terminal. -/
def Obligations.SteadyStatePoll : Prop :=
  ∀ s : State, s.seq.mainCmd = none →
    (s.seq.orch ≠ .running → exec .oPoll s = .next { s with rsp := answered 5#4 0#64 }) ∧
    (s.seq.orch = .running → pend s .R 30 = false → exec .oPoll s = .next { s with rsp := okRsp 0#64 }) ∧
    (s.seq.orch = .running → pend s .R 30 = true →
      exec .oPoll s = .next { s with seq.orch := .failed .pending, rsp := answered 3#4 1#64 })

/-! ## The interrupt chain -/

/-- R56, R307: `hppi` is the candidate with the smallest priority value, and among those the smallest ID. -/
def Obligations.HighestPriorityPendingInterrupt : Prop :=
  ∀ (s : State) (id : Nat), hppi s = some id ↔
    id < s.cfg.nIds ∧ cand s id = true ∧
    ∀ k < s.cfg.nIds, cand s k = true →
      (priority s (bankOf s id) id).toNat < (priority s (bankOf s k) k).toNat ∨
      (priority s (bankOf s id) id = priority s (bankOf s k) k ∧ id ≤ k)

/-- R304, R306: the chain from source to core. An interrupt that is taken is pending, enabled, not acknowledged,
forwarded by its group, routed here, from an awake redistributor, strictly below the mask, of Group 1, with the
interface and the core open; so a mask of 0 lets nothing through and priority `0xFF` never passes. -/
def Obligations.InterruptChain : Prop :=
  (∀ s : State, takeIrq s = true ↔ ∃ id, hppi s = some id ∧ group1 s (bankOf s id) id = true ∧
    s.cpu.sre = true ∧ s.cpu.grp1en = true ∧ s.pe.pstate.i = false) ∧
  (∀ (s : State) (id : Nat), cand s id = true ↔
    pend s (bankOf s id) id = true ∧ enabled s (bankOf s id) id = true ∧ acked s id = false ∧
    s.dist.ctlr.ds = true ∧
    (if group1 s (bankOf s id) id then s.dist.ctlr.enG1 = true else s.dist.ctlr.enG0 = true) ∧
    (s.dist.ctlr.are = true ∨ (byteAt s.dist.tgt id).getLsbD 0 = true) ∧
    s.redist.ps = false ∧ s.redist.ca = false ∧
    (priority s (bankOf s id) id).toNat < s.cpu.pmr.toNat) ∧
  (∀ s : State, s.cpu.pmr = 0#8 → hppi s = none) ∧
  (∀ (s : State) (id : Nat), hppi s = some id → priority s (bankOf s id) id ≠ 0xFF#8)

/-- R303: after every step, whichever agent takes it, and as part of it, a rising timer line latches interrupt 30 in its effective bank where it
is edge-triggered; a level-sensitive one is never latched by its wire, and no other latch changes this way. -/
def Obligations.RisingEdgeIsLatched : Prop :=
  ∀ s t : State, s.fault = none → step s = .next t →
    ∃ u, agentStep (nextEvent s) (beginStep s) = .next u ∧
      (∀ b id, latch t b id = (latch u b id ||
        (decide (id = 30) && decide (b = bankOf u 30) && !timerLine s && timerLine u && edge u b 30))) ∧
      t = { u with
        dist.arr.platch := t.dist.arr.platch
        redist.arr.platch := t.redist.arr.platch }

/-- R305: after no step is a Group 0 interrupt in the delivery position: a step that would leave one there is
`fault(Group0Delivery)`. -/
def Obligations.GroupZeroIsNeverDelivered : Prop :=
  (∀ s t : State, step s = .next t → ∀ id, hppi t = some id → group1 t (bankOf t id) id = true) ∧
  (∀ (s u : State) (id : Nat), s.fault = none → agentStep (nextEvent s) (beginStep s) = .next u →
    hppi (edgeCapture (beginStep s) u) = some id →
    group1 (edgeCapture (beginStep s) u) (bankOf (edgeCapture (beginStep s) u) id) id = false →
    step s = .fault .group0Delivery)

/-! ## Traps -/

/-- R308: `IRQ-ENTER`: enabled when an interrupt is taken and no trap is in progress; it records the interrupt, saves
`pc` and the processor state, sets the four masks and jumps to the interrupt vector; the command in flight is untouched;
with no usable vector base it is `fault(NoVector)`. Where no interrupt is taken, nothing is entered. -/
def Obligations.InterruptEntry : Prop :=
  ∀ s : State, s.halt = none → s.seq.disp = .idle →
    (takeIrq s = true → vectorReady s →
      agentStep .dispatch s = .next { s with
        cpu.curId := hppi s
        pe := trapped s.pe s.cfg 0x080#64
        seq.disp := .entered .irq }) ∧
    (takeIrq s = true → ¬vectorReady s → agentStep .dispatch s = .fault .noVector) ∧
    (takeIrq s = false → agentStep .dispatch s = .next s)

/-- R309, R312: `FRAME-SAVE` writes the 33 slots and marks the frame valid; `IRQ-RETURN` ends the interrupt, restores
registers, program counter and processor state from the frame, discards it and stands the router idle. -/
def Obligations.FrameSaveAndInterruptReturn : Prop :=
  (∀ s : State, s.halt = none → s.seq.disp = .entered .irq →
    ∃ frame : Vector DWord 33,
      agentStep .dispatch s =
        .next { s with seq.ctx := frame, seq.frameValid := true, seq.disp := .inRoutine .irq 3 } ∧
      (∀ k < 31, frame[k]? = s.pe.x[k]?) ∧ frame[31] = s.pe.elr ∧ frame[32] = s.pe.spsr) ∧
  (∀ (s : State) (id : Nat), s.halt = none → s.seq.disp = .inRoutine .irq 5 → s.cpu.curId = some id →
    id < s.cfg.nIds →
    ∃ (x : Vector DWord 31) (a : Vector Word 32),
      agentStep .dispatch s = .next { s with
        pe := { s.pe with
          x := x, elr := s.seq.ctx[31], spsr := s.seq.ctx[32], pc := s.seq.ctx[31]
          pstate := unpackPState s.seq.ctx[32] }
        cpu := { s.cpu with acked := a, curId := none }
        seq.frameValid := false
        seq.disp := .idle } ∧
      (∀ k < 31, x[k]? = s.seq.ctx[k]?) ∧
      ∀ k, bitAt a k = if k = id then false else acked s k)

/-- R310: the routine's three steps of `HANDLER`: the compare value, its read-back, the acknowledge; `RSP` and the frame
are not written, and the router stands at 3, 3, 4, 5. -/
def Obligations.InterruptRoutineSteps : Prop :=
  ∀ s : State, s.halt = none → s.pe.pstate.el ≠ 0#2 →
    (s.seq.disp = .inRoutine .irq 3 → s.seq.handlerCmd = none →
      agentStep .handler s = .next { s with
        timer.cval := s.timer.cnt + s.seq.tDelta.signExtend 64
        seq.handlerCmd := some { cmd := .tHandle, index := 1, held := 0#64 } }) ∧
    (∀ h, s.seq.disp = .inRoutine .irq 3 →
      s.seq.handlerCmd = some { cmd := .tHandle, index := 1, held := h } →
      agentStep .handler s = .next { s with
        seq.tDiag := s.timer.cval, seq.handlerCmd := none, seq.disp := .inRoutine .irq 4 }) ∧
    (∀ id, s.seq.disp = .inRoutine .irq 4 → s.cpu.curId = some id → id < s.cfg.nIds →
      ∃ p a, agentStep .handler s = .next
          { s.setArrays (bankOf s id) { s.arrays (bankOf s id) with platch := p } with
            cpu := { s.cpu with acked := a }
            seq := { s.seq with disp := .inRoutine .irq 5 } } ∧
        (∀ k, bitAt p k = if k = id then false else latch s (bankOf s id) k) ∧
        ∀ k, bitAt a k = if k = id then true else acked s k)

/-- R310: the routine has no loop and no wait. Every step of `DISPATCH` or `HANDLER` that is enabled in the routine
brings its end nearer by one; a step of `TICK`, `WAKE` or `MAIN` leaves it where it is, and `MAIN` changes nothing but
the schedule while a trap is in progress. (That a disabled agent's turn passes is the model's choice, entry 2.) -/
def Obligations.RoutineComesToItsEnd : Prop :=
  ∀ s t : State, DispatchInv s → s.seq.disp ≠ .idle → step s = .next t →
    (nextEvent s = .dispatch ∨ nextEvent s = .handler → agentEnabled (nextEvent s) s = true →
      routineLeft t + 1 = routineLeft s) ∧
    (agentEnabled (nextEvent s) s = false ∨ nextEvent s = .tick ∨ nextEvent s = .wake →
      routineLeft t = routineLeft s) ∧
    (∀ pe, nextEvent s = .main pe → t = beginStep s) ∧
    (agentEnabled .dispatch s = true ∨ agentEnabled .handler s = true)

/-- R312, R255: whatever the agents other than `MAIN` and `RESET` do between them, the interrupted context is restored:
in a run in which the program of the processing element takes no step, whenever no trap is in progress the general
registers, the program counter and the processor state are those of the start. -/
def Obligations.InterruptedContextIsRestored : Prop :=
  ∀ (s t : State) (es rest : List Event), s.env.sched = es ++ rest →
    (∀ e ∈ es, e = .handler ∨ e = .dispatch ∨ e = .tick ∨ e = .wake) →
    s.seq.disp = .idle → s.seq.handlerCmd = none → steps es.length s = .next t → t.seq.disp = .idle →
    t.pe.x = s.pe.x ∧ t.pe.pc = s.pe.pc ∧ t.pe.pstate = s.pe.pstate ∧ t.seq.mainCmd = s.seq.mainCmd ∧
      t.rsp = s.rsp

/-- R6, R308: the values a command holds between its transactions survive everything the other agents do, an interrupt
included: only a step of `MAIN` or a reset changes the command in flight or the response. -/
def Obligations.CommandInFlightSurvives : Prop :=
  ∀ s t : State, step s = .next t → (∀ pe, nextEvent s ≠ .main pe) → nextEvent s ≠ .reset →
    t.seq.mainCmd = s.seq.mainCmd ∧ t.seq.orch = s.seq.orch ∧ t.rsp = s.rsp ∧ t.env.cmdIn = s.env.cmdIn

/-- R20, R22, R41, R324, R326: what no command writes, whatever its transaction: the general registers, the exception
level, the counter, "children asleep", the current interrupt, the frame, the handler's position, the parameters; the
program counter, `elr` and `spsr` move only in a transaction that takes the synchronous exception, which halts. -/
def Obligations.NoCommandTouchesTheContext : Prop :=
  ∀ (i : Instr) (s t : State), exec i s = .next t →
    t.pe.x = s.pe.x ∧ t.pe.pstate.el = s.pe.pstate.el ∧ t.pe.pstate.spSel = s.pe.pstate.spSel ∧
    t.timer.cnt = s.timer.cnt ∧ t.redist.ca = s.redist.ca ∧ t.cpu.curId = s.cpu.curId ∧ t.seq.ctx = s.seq.ctx ∧
    t.seq.frameValid = s.seq.frameValid ∧ t.seq.handlerCmd = s.seq.handlerCmd ∧ t.seq.disp = s.seq.disp ∧
    t.cfg = s.cfg ∧ t.env = s.env ∧ t.fault = s.fault ∧
    ((t.pe.pc = s.pe.pc ∧ t.pe.elr = s.pe.elr ∧ t.pe.spsr = s.pe.spsr ∧ t.halt = s.halt) ∨
      (t.pe.elr = s.pe.pc ∧ t.pe.spsr = packPState s.pe.pstate ∧ t.halt = some .syncException ∧
        t.seq.mainCmd = none ∧ t.rsp = s.rsp))

/-! ## Halt, fault, reset -/

/-- R51, R52: a halted thread takes no step: only `TICK`, `WAKE` and `RESET` change anything but the schedule; and after
a fault no agent steps at all. (That `RESET` is among them is R350 with R60 and the model's choice where R51 leaves it
out, entry 22 of the log.) -/
def Obligations.HaltAndFaultAreSticky : Prop :=
  (∀ (s : State) (r : Fault), s.fault = some r → step s = .fault r) ∧
  (∀ (s t : State) (h : Halt), s.halt = some h → step s = .next t →
    (nextEvent s ≠ .reset → t.halt = some h ∧ t.seq = s.seq ∧ t.pe = s.pe ∧ t.rsp = s.rsp) ∧
    ((∃ pe, nextEvent s = .main pe) ∨ nextEvent s = .handler ∨ nextEvent s = .dispatch → t = beginStep s))

/-- R60, R350: the reset event never faults and puts every piece of state the table gives a value to that value,
whatever was in flight; the parameters, arguments fixed for a run and no state of the block (R5, R61), stay. (That a
halted block is reset too and `halt` is then none, and that the parameters, a field of the model's State, stay, are the
model's choice, entries 22 and 20 of the log.) -/
def Obligations.ResetLeavesTheTabledValues : Prop :=
  ∀ s : State, s.fault = none → nextEvent s = .reset → ∃ t, step s = .next t ∧
    t.pe.pstate = { d := true, a := true, i := true, f := true, el := s.cfg.bootEl, spSel := s.cfg.spSel } ∧
    t.pe.vbarValid = false ∧
    t.dist.ctlr = { enG0 := false, enG1 := false, are := false, ds := false } ∧
    (∀ b id, enabled t b id = false) ∧ t.redist.ps = true ∧ t.redist.ca = true ∧
    t.cpu.sre = false ∧ t.cpu.grp1en = false ∧ t.cpu.pmr = 0#8 ∧ (∀ id, acked t id = false) ∧ t.cpu.curId = none ∧
    t.timer.cval = 0#64 ∧ t.timer.enable = false ∧ t.timer.imask = false ∧ t.seq.tDelta = 0#32 ∧
    t.seq.tDiag = 0#64 ∧ t.seq.orch = .uninitialized ∧ t.seq.mainCmd = none ∧ t.seq.handlerCmd = none ∧
    t.seq.disp = .idle ∧ t.seq.frameValid = false ∧ t.halt = none ∧ t.fault = none ∧ t.rsp = okRsp 0#64 ∧
    t.cfg = s.cfg

/-! ## Invariants -/

/-- The state after reset meets the four invariants whatever the parameters and the UNSPEC values are; `State.reset` is
that state at the values the model names for them (the model's choice: entries 4 and 5 of the log). -/
def Obligations.ResetMeetsTheInvariants : Prop :=
  ∀ (c : Config) (u : Unspec) (e : Env),
    LevelInv (State.resetWith c u e none) ∧ DispatchInv (State.resetWith c u e none) ∧
    WakeInv (State.resetWith c u e none) ∧ GateInv (State.resetWith c u e none) ∧
    State.reset = State.resetWith Config.vectors Unspec.vectors { cmdIn := [], sched := [], clock := 0 } none

/-- R22, R316: every step keeps the exception level and the stack-pointer select at the launch parameters', and so do
the copies a trap saves. -/
def Obligations.EveryStepKeepsTheLevel : Prop :=
  ∀ s t : State, LevelInv s → step s = .next t → LevelInv t ∧ t.cfg = s.cfg

/-- R308 to R314: every step keeps the dispatch router consistent: no nesting, masks set inside the routine, the frame
valid inside it only, an interrupt acknowledged only between the acknowledge and the return. -/
def Obligations.EveryStepKeepsDispatchConsistent : Prop :=
  ∀ s t : State, DispatchInv s → step s = .next t → DispatchInv t

/-- R142, R148, R149, R163, R222, R271: every step keeps the wake handshake (nothing behind it is written before it
completes, and a bring-up past its wake transition has an awake redistributor) and the gating of `D_CTLR` and of
`ICC_SRE`. -/
def Obligations.EveryStepKeepsHandshakeAndGates : Prop :=
  ∀ s t : State, step s = .next t → (WakeInv s → WakeInv t) ∧ (GateInv s → GateInv t)

/-! ## Liveness, bounded by the schedule -/

/-- R308 to R312, the bounded form of the weak fairness of R327: whatever else a schedule holds, five rounds of `HANDLER`
and `DISPATCH` in it bring a trap in progress to its end. (The schedule is the model's choice, entry 2.) -/
def Obligations.RoutineEndsInFiveRounds : Prop :=
  ∀ (s t : State) (es rest : List Event), DispatchInv s → s.env.sched = es ++ rest →
    (List.replicate 5 [Event.handler, .dispatch]).flatten.Sublist es → steps es.length s = .next t →
    ∃ k u, k ≤ es.length ∧ steps k s = .next u ∧ u.seq.disp = .idle
end

