-- ==== Sys2Proof/Laws/Operands.lean ====
section
/-!
SUPPORT. The bits of the operand forms: masks, entries of a window, the packed pending view, the field accessor, and the
register each window offset selects.
-/

namespace Sys2Proof.Machine

/-! ## Masks -/

theorem bitMask_getLsbD (k i : Nat) : (bitMask k).getLsbD i = (decide (i = k) && decide (i < 32)) := by
  unfold bitMask
  rw [BitVec.getLsbD_shiftLeft]
  by_cases h : i = k
  · subst h; simp
  · by_cases h2 : i < 32
    · simp only [h2, decide_true, Bool.true_and, h, decide_false, Bool.false_and, BitVec.getLsbD_one]
      by_cases h3 : i < k
      · simp [h3]
      · simp; omega
    · simp [h2]

/-! ## Entries of a window -/

theorem wordAt_setIfInBounds {k : Nat} (v : Vector Word k) (n m : Nat) (w : Word) :
    wordAt (v.setIfInBounds n w) m = if m = n ∧ n < k then w else wordAt v m := by
  unfold wordAt
  by_cases h : m = n
  · subst h
    by_cases hk : m < k
    · simp [hk]
    · simp [hk]
  · rw [Vector.getElem?_setIfInBounds_ne (fun hh => h hh.symm)]
    simp [h]

theorem bitAt_setIfInBounds {k : Nat} (v : Vector Word k) (n id : Nat) (w : Word) (hn : n < k) :
    bitAt (v.setIfInBounds n w) id = if id / 32 = n then w.getLsbD (id % 32) else bitAt v id := by
  unfold bitAt
  rw [wordAt_setIfInBounds]
  simp only [hn, and_true]
  split <;> rfl

theorem byteAt_setIfInBounds {k : Nat} (v : Vector Word k) (n id : Nat) (w : Word) (hn : n < k) :
    byteAt (v.setIfInBounds n w) id =
      if id / 4 = n then w.extractLsb' (8 * (id % 4)) 8 else byteAt v id := by
  unfold byteAt
  rw [wordAt_setIfInBounds]
  simp only [hn, and_true]
  split <;> rfl

theorem pairAt_setIfInBounds {k : Nat} (v : Vector Word k) (n id : Nat) (w : Word) (hn : n < k) :
    pairAt (v.setIfInBounds n w) id =
      if id / 16 = n then w.extractLsb' (2 * (id % 16)) 2 else pairAt v id := by
  unfold pairAt
  rw [wordAt_setIfInBounds]
  simp only [hn, and_true]
  split <;> rfl

/-- One entry moves, no other. -/
theorem bitAt_putBit {k : Nat} (v : Vector Word k) (id j : Nat) (b : Bool) (hid : id < 32 * k) :
    bitAt (putBit v id b) j = if j = id then b else bitAt v j := by
  have hn : id / 32 < k := by omega
  unfold putBit
  rw [bitAt_setIfInBounds _ _ _ _ hn]
  by_cases hj : j / 32 = id / 32
  · have hm : j % 32 < 32 := Nat.mod_lt _ (by omega)
    have hu : bitAt v j = (wordAt v (id / 32)).getLsbD (j % 32) := by unfold bitAt; rw [hj]
    have he : (j % 32 = id % 32) ↔ j = id := by omega
    rw [if_pos hj, hu]
    by_cases h : j = id
    · subst h; cases b <;> simp only [if_true, if_false, Bool.false_eq_true, BitVec.getLsbD_or, BitVec.getLsbD_and,
        BitVec.getLsbD_not, bitMask_getLsbD, hm, decide_true, Bool.and_self, Bool.or_true, Bool.not_true, Bool.and_false]
    · have h2 : ¬ j % 32 = id % 32 := fun hh => h (he.mp hh)
      cases b <;> simp only [h, h2, if_true, if_false, Bool.false_eq_true, BitVec.getLsbD_or, BitVec.getLsbD_and,
        BitVec.getLsbD_not, bitMask_getLsbD, hm, decide_true, decide_false, Bool.and_self, Bool.or_false,
        Bool.not_false, Bool.and_true]
  · have : j ≠ id := fun h => hj (by rw [h])
    simp [hj, this]

/-- Outside the array there is nothing to set. -/
theorem bitAt_putBit_out {k : Nat} (v : Vector Word k) (id j : Nat) (b : Bool) (hid : ¬ id < 32 * k) :
    bitAt (putBit v id b) j = bitAt v j := by
  unfold putBit bitAt
  rw [wordAt_setIfInBounds]
  have : ¬ id / 32 < k := by omega
  simp [this]

@[simp] theorem bitAt_replicate_zero (k id : Nat) : bitAt (Vector.replicate k 0#32) id = false := by
  unfold bitAt wordAt
  by_cases h : id / 32 < k <;> simp [h]

/-! ## The packed view -/

theorem packBelow_getLsbD (f : Nat → Bool) (n i : Nat) (hn : n ≤ 32) :
    (packBelow f n).getLsbD i = (decide (i < n) && f i) := by
  induction n with
  | zero => simp [packBelow]
  | succ m ih =>
    have ih := ih (by omega)
    unfold packBelow
    by_cases him : i = m
    · subst him
      by_cases hf : f i = true
      · simp [hf, ih, bitMask_getLsbD]; omega
      · simp [hf, ih]
    · have h1 : decide (i ≤ m) = decide (i < m) := decide_eq_decide.mpr (by omega)
      by_cases hf : f m = true
      · simp [hf, ih, bitMask_getLsbD, him, h1]
      · simp [hf, ih, h1]

/-- Bit `k` of the packed view is `f k`. -/
theorem packBits_getLsbD (f : Nat → Bool) (i : Nat) : (packBits f).getLsbD i = (decide (i < 32) && f i) :=
  packBelow_getLsbD f 32 i (by omega)

/-! ## The field accessor -/

/-- The five widths. -/
theorem wlog_cases (wlog : BitVec 3) (h : wlog.toNat ≤ 4) :
    wlog = 0#3 ∨ wlog = 1#3 ∨ wlog = 2#3 ∨ wlog = 3#3 ∨ wlog = 4#3 := by
  revert h; revert wlog; decide

theorem wlogLegal_iff (wlog : BitVec 3) : wlogLegal wlog = true ↔ wlog.toNat ≤ 4 := by simp [wlogLegal]

/-- No field straddles two registers (41_field_accessor.md R180). -/
theorem fieldShift_add_width (wlog : BitVec 3) (h : wlog.toNat ≤ 4) (index : Nat) :
    fieldShift wlog index + 2 ^ wlog.toNat ≤ 32 := by
  unfold fieldShift entriesOf widthOf
  rcases wlog_cases wlog h with rfl | rfl | rfl | rfl | rfl <;> simp <;> omega

theorem fieldMask_getLsbD (wlog : BitVec 3) (h : wlog.toNat ≤ 4) (i : Nat) :
    (fieldMask wlog).getLsbD i = decide (i < 2 ^ wlog.toNat) := by
  by_cases hi : i < 32
  · revert i
    rcases wlog_cases wlog h with rfl | rfl | rfl | rfl | rfl <;> decide
  · have : ¬ i < 2 ^ wlog.toNat := by
      rcases wlog_cases wlog h with rfl | rfl | rfl | rfl | rfl <;> simp <;> omega
    simp [this, BitVec.getLsbD_of_ge _ _ (Nat.le_of_not_lt hi)]

/-- The bits of the field read out of a register. -/
theorem fieldGet_getLsbD (wlog : BitVec 3) (h : wlog.toNat ≤ 4) (index : Nat) (r : Word) (i : Nat) :
    (fieldGet wlog index r).getLsbD i =
      (decide (i < 2 ^ wlog.toNat) && r.getLsbD (fieldShift wlog index + i)) := by
  unfold fieldGet
  rw [BitVec.getLsbD_and, BitVec.getLsbD_ushiftRight, fieldMask_getLsbD wlog h, Bool.and_comm]

/-- The bits of the register with a field replaced: inside the field the value's, outside the register's. -/
theorem fieldPut_getLsbD (wlog : BitVec 3) (h : wlog.toNat ≤ 4) (index : Nat) (r v : Word) (i : Nat) (hi : i < 32) :
    (fieldPut wlog index r v).getLsbD i =
      if fieldShift wlog index ≤ i ∧ i < fieldShift wlog index + 2 ^ wlog.toNat then
        v.getLsbD (i - fieldShift wlog index)
      else r.getLsbD i := by
  unfold fieldPut
  have hs := fieldShift_add_width wlog h index
  simp only [BitVec.getLsbD_or, BitVec.getLsbD_and, BitVec.getLsbD_not, BitVec.getLsbD_shiftLeft,
    fieldMask_getLsbD wlog h, hi, decide_true, Bool.true_and]
  by_cases h1 : fieldShift wlog index ≤ i
  · by_cases h2 : i < fieldShift wlog index + 2 ^ wlog.toNat
    · have : i - fieldShift wlog index < 2 ^ wlog.toNat := by omega
      have h3 : ¬ i < fieldShift wlog index := by omega
      simp [h1, h2, this, h3]
    · have : ¬ i - fieldShift wlog index < 2 ^ wlog.toNat := by omega
      have h3 : ¬ i < fieldShift wlog index := by omega
      simp [h2, this, h3]
  · have h3 : i < fieldShift wlog index := by omega
    simp [h1, h3]

/-- Different indices have different places (41_field_accessor.md R180). -/
theorem fieldPlace_injective (wlog : BitVec 3) (h : wlog.toNat ≤ 4) (base i j : Nat)
    (ho : fieldOff wlog base i = fieldOff wlog base j) (hs : fieldShift wlog i = fieldShift wlog j) : i = j := by
  unfold fieldOff fieldShift entriesOf widthOf at *
  rcases wlog_cases wlog h with rfl | rfl | rfl | rfl | rfl <;> simp at ho hs <;> omega

/-! ## The windows by width -/

/-- A one-bit field replaced: that bit takes the value, the others stay. -/
theorem fieldPut_bit (id : Nat) (r v : Word) (i : Nat) (hi : i < 32) :
    (fieldPut wlogBit id r v).getLsbD i = if i = id % 32 then v.getLsbD 0 else r.getLsbD i := by
  rw [fieldPut_getLsbD wlogBit (by decide) id r v i hi]
  have : fieldShift wlogBit id = id % 32 := by simp [fieldShift, entriesOf, widthOf, wlogBit]
  rw [this]
  by_cases h : i = id % 32
  · simp [h, wlogBit]
  · have h2 : ¬(id % 32 ≤ i ∧ i < id % 32 + 2 ^ BitVec.toNat wlogBit) := by simp [wlogBit]; omega
    simp [h, h2]

theorem fieldPut_byte (id : Nat) (r v : Word) (k : Nat) (hk : k < 4) :
    (fieldPut wlogByte id r v).extractLsb' (8 * k) 8 =
      if k = id % 4 then v.extractLsb' 0 8 else r.extractLsb' (8 * k) 8 := by
  have hs : fieldShift wlogByte id = id % 4 * 8 := by simp [fieldShift, entriesOf, widthOf, wlogByte]
  apply BitVec.eq_of_getLsbD_eq
  intro i hi
  rw [BitVec.getLsbD_extractLsb', fieldPut_getLsbD wlogByte (by decide) id r v _ (by omega), hs]
  by_cases h : k = id % 4
  · have h2 : id % 4 * 8 ≤ 8 * k + i ∧ 8 * k + i < id % 4 * 8 + 2 ^ BitVec.toNat wlogByte := by
      simp [wlogByte]; omega
    have h3 : 8 * k + i - id % 4 * 8 = i := by omega
    simp [h, hi]
    rw [← h, if_pos (by have := h2; rw [← h] at this; exact this)]
    congr 1; omega
  · have h2 : ¬(id % 4 * 8 ≤ 8 * k + i ∧ 8 * k + i < id % 4 * 8 + 2 ^ BitVec.toNat wlogByte) := by
      simp [wlogByte]; omega
    simp [h, h2, hi]

theorem fieldPut_pair (id : Nat) (r v : Word) (k : Nat) (hk : k < 16) :
    (fieldPut wlogPair id r v).extractLsb' (2 * k) 2 =
      if k = id % 16 then v.extractLsb' 0 2 else r.extractLsb' (2 * k) 2 := by
  have hs : fieldShift wlogPair id = id % 16 * 2 := by simp [fieldShift, entriesOf, widthOf, wlogPair]
  apply BitVec.eq_of_getLsbD_eq
  intro i hi
  rw [BitVec.getLsbD_extractLsb', fieldPut_getLsbD wlogPair (by decide) id r v _ (by omega), hs]
  by_cases h : k = id % 16
  · have h2 : id % 16 * 2 ≤ 2 * k + i ∧ 2 * k + i < id % 16 * 2 + 2 ^ BitVec.toNat wlogPair := by
      simp [wlogPair]; omega
    simp [h, hi]
    rw [← h, if_pos (by have := h2; rw [← h] at this; exact this)]
    congr 1; omega
  · have h2 : ¬(id % 16 * 2 ≤ 2 * k + i ∧ 2 * k + i < id % 16 * 2 + 2 ^ BitVec.toNat wlogPair) := by
      simp [wlogPair]; omega
    simp [h, h2, hi]

theorem fieldOff_bit (base id : Nat) : fieldOff wlogBit base id = base + 4 * (id / 32) := by
  simp [fieldOff, entriesOf, widthOf, wlogBit]
theorem fieldOff_pair (base id : Nat) : fieldOff wlogPair base id = base + 4 * (id / 16) := by
  simp [fieldOff, entriesOf, widthOf, wlogPair]
theorem fieldOff_byte (base id : Nat) : fieldOff wlogByte base id = base + 4 * (id / 4) := by
  simp [fieldOff, entriesOf, widthOf, wlogByte]

/-! ## What each window offset selects (20_memory.md R82, R83) -/

theorem nIds_bounds (c : Config) : 32 ≤ c.nIds ∧ c.nIds ≤ 1024 ∧ c.nIds % 32 = 0 := by
  unfold Config.nIds
  have := c.idBlocks.isLt
  omega

/-- Where the windows of a bank begin. -/
def windowBase : Bank → Nat
  | .D => 0
  | .R => sgiOff

theorem inWindow_iff (base count off : Nat) : inWindow base count off = true ↔ base ≤ off ∧ off < base + 4 * count := by
  simp [inWindow]

theorem inWindow_not (base count off : Nat) : ¬ inWindow base count off = true ↔ off < base ∨ base + 4 * count ≤ off := by
  rw [inWindow_iff]; omega

/-- The register at a place of each window, for a bank that stores `ids` IDs. -/
theorem windowReg_at (ids n : Nat) (hb : 32 ≤ ids ∧ ids ≤ 1024 ∧ ids % 32 = 0) :
    (n < ids / 32 →
      windowReg ids (0x080 + 4 * n) = some (.grp n) ∧ windowReg ids (0x100 + 4 * n) = some (.setEn n) ∧
      windowReg ids (0x180 + 4 * n) = some (.clrEn n) ∧ windowReg ids (0x200 + 4 * n) = some (.setPend n) ∧
      windowReg ids (0x280 + 4 * n) = some (.clrPend n)) ∧
    (n < ids / 4 → windowReg ids (0x400 + 4 * n) = some (.pri n)) ∧
    (n < ids / 16 → windowReg ids (0xC00 + 4 * n) = some (.cfg n)) := by
  unfold windowReg
  refine ⟨fun h => ⟨?_, ?_, ?_, ?_, ?_⟩, fun h => ?_, fun h => ?_⟩ <;>
    (repeat first
      | rw [if_neg ((inWindow_not _ _ _).mpr (by omega))]
      | rw [if_pos ((inWindow_iff _ _ _).mpr (by omega))]) <;>
    (congr 2; omega)

theorem bankReg_D (m off : Nat) (h0 : 4 ≤ off) (h1 : off < 0x800 ∨ 0xC00 ≤ off) (hb : m ≤ 1024) :
    bankReg m .D off = windowReg m off := by
  unfold bankReg
  dsimp only
  rw [if_neg ((inWindow_not _ _ _).mpr (by omega)), if_neg ((inWindow_not _ _ _).mpr (by omega))]

theorem bankReg_R (m off : Nat) (h : 0x10000 ≤ off) : bankReg m .R off = windowReg 32 (off - sgiOff) := by
  unfold bankReg
  dsimp only
  rw [if_neg ((inWindow_not _ _ _).mpr (by omega)), if_pos (show sgiOff ≤ off from h)]

/-- The registers of the windows common to both banks, for a bank that stores `ids` IDs. -/
theorem bankReg_windows (c : Config) (b : Bank) (n : Nat) :
    (n < idsOf c.nIds b / 32 →
      bankReg c.nIds b (windowBase b + 0x080 + 4 * n) = some (.grp n) ∧
      bankReg c.nIds b (windowBase b + 0x100 + 4 * n) = some (.setEn n) ∧
      bankReg c.nIds b (windowBase b + 0x180 + 4 * n) = some (.clrEn n) ∧
      bankReg c.nIds b (windowBase b + 0x200 + 4 * n) = some (.setPend n) ∧
      bankReg c.nIds b (windowBase b + 0x280 + 4 * n) = some (.clrPend n)) ∧
    (n < idsOf c.nIds b / 4 → bankReg c.nIds b (windowBase b + 0x400 + 4 * n) = some (.pri n)) ∧
    (n < idsOf c.nIds b / 16 → bankReg c.nIds b (windowBase b + 0xC00 + 4 * n) = some (.cfg n)) := by
  have hb := nIds_bounds c
  generalize c.nIds = m at hb ⊢
  cases b
  · rw [show windowBase .D = 0 from rfl, show idsOf m .D = m from rfl]
    have hw := windowReg_at m n hb
    refine ⟨fun h => ?_, fun h => ?_, fun h => ?_⟩
    · have := hw.1 h
      simp only [Nat.zero_add]
      refine ⟨?_, ?_, ?_, ?_, ?_⟩ <;> rw [bankReg_D _ _ (by omega) (by omega) hb.2.1] <;> simp only [this]
    · rw [Nat.zero_add, bankReg_D _ _ (by omega) (by omega) hb.2.1, hw.2.1 h]
    · rw [Nat.zero_add, bankReg_D _ _ (by omega) (by omega) hb.2.1, hw.2.2 h]
  · rw [show windowBase .R = sgiOff from rfl, show idsOf m .R = 32 from rfl]
    have hw := windowReg_at 32 n (by omega)
    have hs : sgiOff = 0x10000 := rfl
    refine ⟨fun h => ?_, fun h => ?_, fun h => ?_⟩
    · have := hw.1 h
      refine ⟨?_, ?_, ?_, ?_, ?_⟩ <;>
        rw [bankReg_R _ _ (by omega), Nat.add_assoc, Nat.add_sub_cancel_left] <;> simp only [this]
    · rw [bankReg_R _ _ (by omega), Nat.add_assoc, Nat.add_sub_cancel_left, hw.2.1 h]
    · rw [bankReg_R _ _ (by omega), Nat.add_assoc, Nat.add_sub_cancel_left, hw.2.2 h]

theorem bankReg_tgt (c : Config) (n : Nat) (h : n < c.nIds / 4) :
    bankReg c.nIds .D (0x800 + 4 * n) = some (.tgt n) := by
  have hb := nIds_bounds c
  generalize c.nIds = m at hb h ⊢
  unfold bankReg
  dsimp only
  rw [if_neg ((inWindow_not _ _ _).mpr (by omega)), if_pos ((inWindow_iff _ _ _).mpr (by omega))]
  congr 2; omega

@[simp] theorem bankReg_ctlr (n : Nat) : bankReg n .D 0 = some .ctlr := by simp [bankReg, inWindow]
@[simp] theorem bankReg_waker (n : Nat) : bankReg n .R 0x14 = some .waker := by simp [bankReg, inWindow]

/-- Every 1-bit entry of a window of zeros is 0. -/
theorem bitAt_zero (k id : Nat) : bitAt (Vector.replicate k 0#32) id = false := by
  unfold bitAt wordAt
  by_cases h : id / 32 < k <;> simp [h]

end Sys2Proof.Machine
end

