-- ==== Sys2Proof/Laws/State.lean ====
section
/-!
SUPPORT. One lemma per field per named update of the state, so that no later proof unfolds a record update.
-/

namespace Sys2Proof.Machine

/-! ## `setArrays` -/

@[simp] theorem setArrays_pe (s : State) (b : Bank) (a : IrqArrays (blocksOf b)) :
    (s.setArrays b a).pe = s.pe := by cases b <;> rfl

@[simp] theorem setArrays_cpu (s : State) (b : Bank) (a : IrqArrays (blocksOf b)) :
    (s.setArrays b a).cpu = s.cpu := by cases b <;> rfl

@[simp] theorem setArrays_timer (s : State) (b : Bank) (a : IrqArrays (blocksOf b)) :
    (s.setArrays b a).timer = s.timer := by cases b <;> rfl

@[simp] theorem setArrays_seq (s : State) (b : Bank) (a : IrqArrays (blocksOf b)) :
    (s.setArrays b a).seq = s.seq := by cases b <;> rfl

@[simp] theorem setArrays_halt (s : State) (b : Bank) (a : IrqArrays (blocksOf b)) :
    (s.setArrays b a).halt = s.halt := by cases b <;> rfl

@[simp] theorem setArrays_fault (s : State) (b : Bank) (a : IrqArrays (blocksOf b)) :
    (s.setArrays b a).fault = s.fault := by cases b <;> rfl

@[simp] theorem setArrays_rsp (s : State) (b : Bank) (a : IrqArrays (blocksOf b)) :
    (s.setArrays b a).rsp = s.rsp := by cases b <;> rfl

@[simp] theorem setArrays_cfg (s : State) (b : Bank) (a : IrqArrays (blocksOf b)) :
    (s.setArrays b a).cfg = s.cfg := by cases b <;> rfl

@[simp] theorem setArrays_env (s : State) (b : Bank) (a : IrqArrays (blocksOf b)) :
    (s.setArrays b a).env = s.env := by cases b <;> rfl

@[simp] theorem setArrays_dist_ctlr (s : State) (b : Bank) (a : IrqArrays (blocksOf b)) :
    (s.setArrays b a).dist.ctlr = s.dist.ctlr := by cases b <;> rfl

@[simp] theorem setArrays_dist_tgt (s : State) (b : Bank) (a : IrqArrays (blocksOf b)) :
    (s.setArrays b a).dist.tgt = s.dist.tgt := by cases b <;> rfl

@[simp] theorem setArrays_redist_ps (s : State) (b : Bank) (a : IrqArrays (blocksOf b)) :
    (s.setArrays b a).redist.ps = s.redist.ps := by cases b <;> rfl

@[simp] theorem setArrays_redist_ca (s : State) (b : Bank) (a : IrqArrays (blocksOf b)) :
    (s.setArrays b a).redist.ca = s.redist.ca := by cases b <;> rfl

@[simp] theorem setArrays_arrays (s : State) (b : Bank) (a : IrqArrays (blocksOf b)) :
    (s.setArrays b a).arrays b = a := by cases b <;> rfl

theorem setArrays_arrays_other (s : State) (b c : Bank) (a : IrqArrays (blocksOf b)) (h : c ≠ b) :
    (s.setArrays b a).arrays c = s.arrays c := by
  cases b <;> cases c <;> first | rfl | exact absurd rfl h

/-- Replacing the arrays of a bank by themselves changes nothing. -/
theorem setArrays_same (s : State) (b : Bank) : s.setArrays b (s.arrays b) = s := by cases b <;> rfl

/-! ## `respond` -/

@[simp] theorem respond_pe (s : State) (st : Status) (v : DWord) : (respond s st v).pe = s.pe := rfl

@[simp] theorem respond_dist (s : State) (st : Status) (v : DWord) : (respond s st v).dist = s.dist := rfl

@[simp] theorem respond_redist (s : State) (st : Status) (v : DWord) : (respond s st v).redist = s.redist := rfl

@[simp] theorem respond_cpu (s : State) (st : Status) (v : DWord) : (respond s st v).cpu = s.cpu := rfl

@[simp] theorem respond_timer (s : State) (st : Status) (v : DWord) : (respond s st v).timer = s.timer := rfl

@[simp] theorem respond_seq_orch (s : State) (st : Status) (v : DWord) :
    (respond s st v).seq.orch = s.seq.orch := rfl

@[simp] theorem respond_seq_mainCmd (s : State) (st : Status) (v : DWord) :
    (respond s st v).seq.mainCmd = none := rfl

@[simp] theorem respond_seq_handlerCmd (s : State) (st : Status) (v : DWord) :
    (respond s st v).seq.handlerCmd = s.seq.handlerCmd := rfl

@[simp] theorem respond_seq_disp (s : State) (st : Status) (v : DWord) :
    (respond s st v).seq.disp = s.seq.disp := rfl

@[simp] theorem respond_seq_ctx (s : State) (st : Status) (v : DWord) : (respond s st v).seq.ctx = s.seq.ctx := rfl

@[simp] theorem respond_seq_frameValid (s : State) (st : Status) (v : DWord) :
    (respond s st v).seq.frameValid = s.seq.frameValid := rfl

@[simp] theorem respond_seq_tDelta (s : State) (st : Status) (v : DWord) :
    (respond s st v).seq.tDelta = s.seq.tDelta := rfl

@[simp] theorem respond_seq_tDiag (s : State) (st : Status) (v : DWord) :
    (respond s st v).seq.tDiag = s.seq.tDiag := rfl

@[simp] theorem respond_halt (s : State) (st : Status) (v : DWord) : (respond s st v).halt = s.halt := rfl

@[simp] theorem respond_fault (s : State) (st : Status) (v : DWord) : (respond s st v).fault = s.fault := rfl

@[simp] theorem respond_rsp (s : State) (st : Status) (v : DWord) :
    (respond s st v).rsp = { status := st.code, rdata := v } := rfl

@[simp] theorem respond_cfg (s : State) (st : Status) (v : DWord) : (respond s st v).cfg = s.cfg := rfl

@[simp] theorem respond_env (s : State) (st : Status) (v : DWord) : (respond s st v).env = s.env := rfl

/-! ## `inFlight` -/

@[simp] theorem inFlight_pe (s : State) (i : Instr) (k : Nat) (v : DWord) : (inFlight s i k v).pe = s.pe := rfl

@[simp] theorem inFlight_dist (s : State) (i : Instr) (k : Nat) (v : DWord) : (inFlight s i k v).dist = s.dist := rfl

@[simp] theorem inFlight_redist (s : State) (i : Instr) (k : Nat) (v : DWord) :
    (inFlight s i k v).redist = s.redist := rfl

@[simp] theorem inFlight_cpu (s : State) (i : Instr) (k : Nat) (v : DWord) : (inFlight s i k v).cpu = s.cpu := rfl

@[simp] theorem inFlight_timer (s : State) (i : Instr) (k : Nat) (v : DWord) :
    (inFlight s i k v).timer = s.timer := rfl

@[simp] theorem inFlight_seq_orch (s : State) (i : Instr) (k : Nat) (v : DWord) :
    (inFlight s i k v).seq.orch = s.seq.orch := rfl

@[simp] theorem inFlight_seq_mainCmd (s : State) (i : Instr) (k : Nat) (v : DWord) :
    (inFlight s i k v).seq.mainCmd = some { cmd := i, index := k, held := v } := rfl

@[simp] theorem inFlight_seq_handlerCmd (s : State) (i : Instr) (k : Nat) (v : DWord) :
    (inFlight s i k v).seq.handlerCmd = s.seq.handlerCmd := rfl

@[simp] theorem inFlight_seq_disp (s : State) (i : Instr) (k : Nat) (v : DWord) :
    (inFlight s i k v).seq.disp = s.seq.disp := rfl

@[simp] theorem inFlight_seq_ctx (s : State) (i : Instr) (k : Nat) (v : DWord) :
    (inFlight s i k v).seq.ctx = s.seq.ctx := rfl

@[simp] theorem inFlight_seq_frameValid (s : State) (i : Instr) (k : Nat) (v : DWord) :
    (inFlight s i k v).seq.frameValid = s.seq.frameValid := rfl

@[simp] theorem inFlight_seq_tDelta (s : State) (i : Instr) (k : Nat) (v : DWord) :
    (inFlight s i k v).seq.tDelta = s.seq.tDelta := rfl

@[simp] theorem inFlight_seq_tDiag (s : State) (i : Instr) (k : Nat) (v : DWord) :
    (inFlight s i k v).seq.tDiag = s.seq.tDiag := rfl

@[simp] theorem inFlight_halt (s : State) (i : Instr) (k : Nat) (v : DWord) : (inFlight s i k v).halt = s.halt := rfl

@[simp] theorem inFlight_fault (s : State) (i : Instr) (k : Nat) (v : DWord) :
    (inFlight s i k v).fault = s.fault := rfl

@[simp] theorem inFlight_rsp (s : State) (i : Instr) (k : Nat) (v : DWord) : (inFlight s i k v).rsp = s.rsp := rfl

@[simp] theorem inFlight_cfg (s : State) (i : Instr) (k : Nat) (v : DWord) : (inFlight s i k v).cfg = s.cfg := rfl

@[simp] theorem inFlight_env (s : State) (i : Instr) (k : Nat) (v : DWord) : (inFlight s i k v).env = s.env := rfl

/-! ## `beginStep` -/

@[simp] theorem beginStep_pe (s : State) : (beginStep s).pe = s.pe := rfl

@[simp] theorem beginStep_dist (s : State) : (beginStep s).dist = s.dist := rfl

@[simp] theorem beginStep_redist (s : State) : (beginStep s).redist = s.redist := rfl

@[simp] theorem beginStep_cpu (s : State) : (beginStep s).cpu = s.cpu := rfl

@[simp] theorem beginStep_timer (s : State) : (beginStep s).timer = s.timer := rfl

@[simp] theorem beginStep_seq (s : State) : (beginStep s).seq = s.seq := rfl

@[simp] theorem beginStep_halt (s : State) : (beginStep s).halt = s.halt := rfl

@[simp] theorem beginStep_fault (s : State) : (beginStep s).fault = s.fault := rfl

@[simp] theorem beginStep_rsp (s : State) : (beginStep s).rsp = s.rsp := rfl

@[simp] theorem beginStep_cfg (s : State) : (beginStep s).cfg = s.cfg := rfl

@[simp] theorem beginStep_env_cmdIn (s : State) : (beginStep s).env.cmdIn = s.env.cmdIn := rfl

@[simp] theorem beginStep_env_sched (s : State) : (beginStep s).env.sched = s.env.sched.tail := rfl

@[simp] theorem beginStep_env_clock (s : State) : (beginStep s).env.clock = s.env.clock + 1 := rfl

/-! ## `tickStep` -/

@[simp] theorem tickStep_pe (s : State) : (tickStep s).pe = s.pe := rfl

@[simp] theorem tickStep_dist (s : State) : (tickStep s).dist = s.dist := rfl

@[simp] theorem tickStep_redist (s : State) : (tickStep s).redist = s.redist := rfl

@[simp] theorem tickStep_cpu (s : State) : (tickStep s).cpu = s.cpu := rfl

@[simp] theorem tickStep_timer_cnt (s : State) : (tickStep s).timer.cnt = s.timer.cnt + 1#64 := rfl

@[simp] theorem tickStep_timer_cval (s : State) : (tickStep s).timer.cval = s.timer.cval := rfl

@[simp] theorem tickStep_timer_enable (s : State) : (tickStep s).timer.enable = s.timer.enable := rfl

@[simp] theorem tickStep_timer_imask (s : State) : (tickStep s).timer.imask = s.timer.imask := rfl

@[simp] theorem tickStep_seq (s : State) : (tickStep s).seq = s.seq := rfl

@[simp] theorem tickStep_halt (s : State) : (tickStep s).halt = s.halt := rfl

@[simp] theorem tickStep_fault (s : State) : (tickStep s).fault = s.fault := rfl

@[simp] theorem tickStep_rsp (s : State) : (tickStep s).rsp = s.rsp := rfl

@[simp] theorem tickStep_cfg (s : State) : (tickStep s).cfg = s.cfg := rfl

@[simp] theorem tickStep_env (s : State) : (tickStep s).env = s.env := rfl

/-! ## `frameSave` -/

@[simp] theorem frameSave_pe (s : State) : (frameSave s).pe = s.pe := rfl

@[simp] theorem frameSave_dist (s : State) : (frameSave s).dist = s.dist := rfl

@[simp] theorem frameSave_redist (s : State) : (frameSave s).redist = s.redist := rfl

@[simp] theorem frameSave_cpu (s : State) : (frameSave s).cpu = s.cpu := rfl

@[simp] theorem frameSave_timer (s : State) : (frameSave s).timer = s.timer := rfl

@[simp] theorem frameSave_seq_orch (s : State) : (frameSave s).seq.orch = s.seq.orch := rfl

@[simp] theorem frameSave_seq_mainCmd (s : State) : (frameSave s).seq.mainCmd = s.seq.mainCmd := rfl

@[simp] theorem frameSave_seq_handlerCmd (s : State) : (frameSave s).seq.handlerCmd = s.seq.handlerCmd := rfl

@[simp] theorem frameSave_seq_disp (s : State) : (frameSave s).seq.disp = .inRoutine .irq 3 := rfl

@[simp] theorem frameSave_seq_ctx (s : State) : (frameSave s).seq.ctx = frameOf s.pe := rfl

@[simp] theorem frameSave_seq_frameValid (s : State) : (frameSave s).seq.frameValid = true := rfl

@[simp] theorem frameSave_seq_tDelta (s : State) : (frameSave s).seq.tDelta = s.seq.tDelta := rfl

@[simp] theorem frameSave_seq_tDiag (s : State) : (frameSave s).seq.tDiag = s.seq.tDiag := rfl

@[simp] theorem frameSave_halt (s : State) : (frameSave s).halt = s.halt := rfl

@[simp] theorem frameSave_fault (s : State) : (frameSave s).fault = s.fault := rfl

@[simp] theorem frameSave_rsp (s : State) : (frameSave s).rsp = s.rsp := rfl

@[simp] theorem frameSave_cfg (s : State) : (frameSave s).cfg = s.cfg := rfl

@[simp] theorem frameSave_env (s : State) : (frameSave s).env = s.env := rfl

/-! ## `applyPe`, `wakeStep`, `endOfInterrupt`, `acknowledge` -/

@[simp] theorem applyPe_dist (pe : Option PeRegs) (s : State) : (applyPe pe s).dist = s.dist := by cases pe <;> rfl

@[simp] theorem applyPe_redist (pe : Option PeRegs) (s : State) :
    (applyPe pe s).redist = s.redist := by cases pe <;> rfl

@[simp] theorem applyPe_cpu (pe : Option PeRegs) (s : State) : (applyPe pe s).cpu = s.cpu := by cases pe <;> rfl

@[simp] theorem applyPe_timer (pe : Option PeRegs) (s : State) :
    (applyPe pe s).timer = s.timer := by cases pe <;> rfl

@[simp] theorem applyPe_seq (pe : Option PeRegs) (s : State) : (applyPe pe s).seq = s.seq := by cases pe <;> rfl

@[simp] theorem applyPe_halt (pe : Option PeRegs) (s : State) : (applyPe pe s).halt = s.halt := by cases pe <;> rfl

@[simp] theorem applyPe_fault (pe : Option PeRegs) (s : State) :
    (applyPe pe s).fault = s.fault := by cases pe <;> rfl

@[simp] theorem applyPe_rsp (pe : Option PeRegs) (s : State) : (applyPe pe s).rsp = s.rsp := by cases pe <;> rfl

@[simp] theorem applyPe_cfg (pe : Option PeRegs) (s : State) : (applyPe pe s).cfg = s.cfg := by cases pe <;> rfl

@[simp] theorem applyPe_env (pe : Option PeRegs) (s : State) : (applyPe pe s).env = s.env := by cases pe <;> rfl

@[simp] theorem applyPe_pe_pstate (pe : Option PeRegs) (s : State) :
    (applyPe pe s).pe.pstate = s.pe.pstate := by cases pe <;> rfl

@[simp] theorem applyPe_pe_elr (pe : Option PeRegs) (s : State) :
    (applyPe pe s).pe.elr = s.pe.elr := by cases pe <;> rfl

@[simp] theorem applyPe_pe_spsr (pe : Option PeRegs) (s : State) :
    (applyPe pe s).pe.spsr = s.pe.spsr := by cases pe <;> rfl

@[simp] theorem applyPe_pe_vbar (pe : Option PeRegs) (s : State) :
    (applyPe pe s).pe.vbar = s.pe.vbar := by cases pe <;> rfl

@[simp] theorem applyPe_pe_vbarValid (pe : Option PeRegs) (s : State) :
    (applyPe pe s).pe.vbarValid = s.pe.vbarValid := by cases pe <;> rfl

@[simp] theorem wakeStep_pe (s : State) : (wakeStep s).pe = s.pe := by unfold wakeStep; split <;> rfl

@[simp] theorem wakeStep_dist (s : State) : (wakeStep s).dist = s.dist := by unfold wakeStep; split <;> rfl

@[simp] theorem wakeStep_cpu (s : State) : (wakeStep s).cpu = s.cpu := by unfold wakeStep; split <;> rfl

@[simp] theorem wakeStep_timer (s : State) : (wakeStep s).timer = s.timer := by unfold wakeStep; split <;> rfl

@[simp] theorem wakeStep_seq (s : State) : (wakeStep s).seq = s.seq := by unfold wakeStep; split <;> rfl

@[simp] theorem wakeStep_halt (s : State) : (wakeStep s).halt = s.halt := by unfold wakeStep; split <;> rfl

@[simp] theorem wakeStep_fault (s : State) : (wakeStep s).fault = s.fault := by unfold wakeStep; split <;> rfl

@[simp] theorem wakeStep_rsp (s : State) : (wakeStep s).rsp = s.rsp := by unfold wakeStep; split <;> rfl

@[simp] theorem wakeStep_cfg (s : State) : (wakeStep s).cfg = s.cfg := by unfold wakeStep; split <;> rfl

@[simp] theorem wakeStep_env (s : State) : (wakeStep s).env = s.env := by unfold wakeStep; split <;> rfl

@[simp] theorem wakeStep_redist_ps (s : State) :
    (wakeStep s).redist.ps = s.redist.ps := by unfold wakeStep; split <;> rfl

@[simp] theorem wakeStep_redist_arr (s : State) :
    (wakeStep s).redist.arr = s.redist.arr := by unfold wakeStep; split <;> rfl

@[simp] theorem endOfInterrupt_pe (s : State) :
    (endOfInterrupt s).pe = s.pe := by unfold endOfInterrupt; split <;> rfl

@[simp] theorem endOfInterrupt_dist (s : State) :
    (endOfInterrupt s).dist = s.dist := by unfold endOfInterrupt; split <;> rfl

@[simp] theorem endOfInterrupt_redist (s : State) :
    (endOfInterrupt s).redist = s.redist := by unfold endOfInterrupt; split <;> rfl

@[simp] theorem endOfInterrupt_timer (s : State) :
    (endOfInterrupt s).timer = s.timer := by unfold endOfInterrupt; split <;> rfl

@[simp] theorem endOfInterrupt_seq (s : State) :
    (endOfInterrupt s).seq = s.seq := by unfold endOfInterrupt; split <;> rfl

@[simp] theorem endOfInterrupt_halt (s : State) :
    (endOfInterrupt s).halt = s.halt := by unfold endOfInterrupt; split <;> rfl

@[simp] theorem endOfInterrupt_fault (s : State) :
    (endOfInterrupt s).fault = s.fault := by unfold endOfInterrupt; split <;> rfl

@[simp] theorem endOfInterrupt_rsp (s : State) :
    (endOfInterrupt s).rsp = s.rsp := by unfold endOfInterrupt; split <;> rfl

@[simp] theorem endOfInterrupt_cfg (s : State) :
    (endOfInterrupt s).cfg = s.cfg := by unfold endOfInterrupt; split <;> rfl

@[simp] theorem endOfInterrupt_env (s : State) :
    (endOfInterrupt s).env = s.env := by unfold endOfInterrupt; split <;> rfl

@[simp] theorem endOfInterrupt_cpu_sre (s : State) :
    (endOfInterrupt s).cpu.sre = s.cpu.sre := by unfold endOfInterrupt; split <;> rfl

@[simp] theorem endOfInterrupt_cpu_grp1en (s : State) :
    (endOfInterrupt s).cpu.grp1en = s.cpu.grp1en := by unfold endOfInterrupt; split <;> rfl

@[simp] theorem endOfInterrupt_cpu_pmr (s : State) :
    (endOfInterrupt s).cpu.pmr = s.cpu.pmr := by unfold endOfInterrupt; split <;> rfl

@[simp] theorem endOfInterrupt_cpu_bpr (s : State) :
    (endOfInterrupt s).cpu.bpr = s.cpu.bpr := by unfold endOfInterrupt; split <;> rfl

@[simp] theorem endOfInterrupt_cpu_curId (s : State) :
    (endOfInterrupt s).cpu.curId = s.cpu.curId := by unfold endOfInterrupt; split <;> rfl

@[simp] theorem acknowledge_pe (s : State) (id : Nat) : (acknowledge s id).pe = s.pe := by simp [acknowledge]

@[simp] theorem acknowledge_timer (s : State) (id : Nat) :
    (acknowledge s id).timer = s.timer := by simp [acknowledge]

@[simp] theorem acknowledge_seq (s : State) (id : Nat) : (acknowledge s id).seq = s.seq := by simp [acknowledge]

@[simp] theorem acknowledge_halt (s : State) (id : Nat) : (acknowledge s id).halt = s.halt := by simp [acknowledge]

@[simp] theorem acknowledge_fault (s : State) (id : Nat) :
    (acknowledge s id).fault = s.fault := by simp [acknowledge]

@[simp] theorem acknowledge_rsp (s : State) (id : Nat) : (acknowledge s id).rsp = s.rsp := by simp [acknowledge]

@[simp] theorem acknowledge_cfg (s : State) (id : Nat) : (acknowledge s id).cfg = s.cfg := by simp [acknowledge]

@[simp] theorem acknowledge_env (s : State) (id : Nat) : (acknowledge s id).env = s.env := by simp [acknowledge]

@[simp] theorem acknowledge_cpu_sre (s : State) (id : Nat) :
    (acknowledge s id).cpu.sre = s.cpu.sre := by simp [acknowledge]

@[simp] theorem acknowledge_cpu_grp1en (s : State) (id : Nat) :
    (acknowledge s id).cpu.grp1en = s.cpu.grp1en := by simp [acknowledge]

@[simp] theorem acknowledge_cpu_pmr (s : State) (id : Nat) :
    (acknowledge s id).cpu.pmr = s.cpu.pmr := by simp [acknowledge]

@[simp] theorem acknowledge_cpu_bpr (s : State) (id : Nat) :
    (acknowledge s id).cpu.bpr = s.cpu.bpr := by simp [acknowledge]

@[simp] theorem acknowledge_cpu_curId (s : State) (id : Nat) :
    (acknowledge s id).cpu.curId = s.cpu.curId := by simp [acknowledge]

@[simp] theorem acknowledge_dist_ctlr (s : State) (id : Nat) :
    (acknowledge s id).dist.ctlr = s.dist.ctlr := by simp [acknowledge]

@[simp] theorem acknowledge_dist_tgt (s : State) (id : Nat) :
    (acknowledge s id).dist.tgt = s.dist.tgt := by simp [acknowledge]

@[simp] theorem acknowledge_redist_ps (s : State) (id : Nat) :
    (acknowledge s id).redist.ps = s.redist.ps := by simp [acknowledge]

@[simp] theorem acknowledge_redist_ca (s : State) (id : Nat) :
    (acknowledge s id).redist.ca = s.redist.ca := by simp [acknowledge]

@[simp] theorem acknowledge_cpu_acked (s : State) (id : Nat) :
    (acknowledge s id).cpu.acked = putBit s.cpu.acked id true := by simp [acknowledge]

@[simp] theorem edgeCapture_pe (a s : State) :
    (edgeCapture a s).pe = s.pe := by unfold edgeCapture; dsimp only; split <;> simp

@[simp] theorem edgeCapture_timer (a s : State) :
    (edgeCapture a s).timer = s.timer := by unfold edgeCapture; dsimp only; split <;> simp

@[simp] theorem edgeCapture_seq (a s : State) :
    (edgeCapture a s).seq = s.seq := by unfold edgeCapture; dsimp only; split <;> simp

@[simp] theorem edgeCapture_halt (a s : State) :
    (edgeCapture a s).halt = s.halt := by unfold edgeCapture; dsimp only; split <;> simp

@[simp] theorem edgeCapture_fault (a s : State) :
    (edgeCapture a s).fault = s.fault := by unfold edgeCapture; dsimp only; split <;> simp

@[simp] theorem edgeCapture_rsp (a s : State) :
    (edgeCapture a s).rsp = s.rsp := by unfold edgeCapture; dsimp only; split <;> simp

@[simp] theorem edgeCapture_cfg (a s : State) :
    (edgeCapture a s).cfg = s.cfg := by unfold edgeCapture; dsimp only; split <;> simp

@[simp] theorem edgeCapture_env (a s : State) :
    (edgeCapture a s).env = s.env := by unfold edgeCapture; dsimp only; split <;> simp

@[simp] theorem edgeCapture_cpu (a s : State) :
    (edgeCapture a s).cpu = s.cpu := by unfold edgeCapture; dsimp only; split <;> simp

@[simp] theorem edgeCapture_dist_ctlr (a s : State) :
    (edgeCapture a s).dist.ctlr = s.dist.ctlr := by unfold edgeCapture; dsimp only; split <;> simp

@[simp] theorem edgeCapture_dist_tgt (a s : State) :
    (edgeCapture a s).dist.tgt = s.dist.tgt := by unfold edgeCapture; dsimp only; split <;> simp

@[simp] theorem edgeCapture_redist_ps (a s : State) :
    (edgeCapture a s).redist.ps = s.redist.ps := by unfold edgeCapture; dsimp only; split <;> simp

@[simp] theorem edgeCapture_redist_ca (a s : State) :
    (edgeCapture a s).redist.ca = s.redist.ca := by unfold edgeCapture; dsimp only; split <;> simp

end Sys2Proof.Machine
end

