-- ==== Sys2Proof/Laws/Ops.lean ====
section
/-!
SUPPORT. For each shared operation, once, everything it can do: what it needs to answer, what the answer is, and what it
leaves as it was. Later proofs cite these and do not unfold the operations.
-/

namespace Sys2Proof.Machine

/-! ## Bank transactions -/

/-- A read that answers: aligned, mapped, and the value of the register. -/
theorem memRead_ok {s : State} {b : Bank} {off : Nat} {v : Word} (h : memRead s b off = .ok v) :
    off % 4 = 0 ∧ ∃ r, bankReg s.nIds b off = some r ∧ v = regRead s b r := by
  unfold memRead at h
  split at h
  · refine ⟨‹_›, ?_⟩
    split at h
    · simp at h
    · exact ⟨_, ‹_›, by simpa using h.symm⟩
  · simp at h

/-- A read of a mapped, aligned offset answers. -/
theorem memRead_of_reg {s : State} {b : Bank} {off : Nat} {r : BankReg} (ha : off % 4 = 0)
    (hr : bankReg s.nIds b off = some r) : memRead s b off = .ok (regRead s b r) := by
  simp [memRead, ha, hr]

/-- A write of a mapped, aligned offset that the wake state allows is the write of the register. -/
theorem memWrite_of_reg {s : State} {b : Bank} {off : Nat} {r : BankReg} (v : Word) (ha : off % 4 = 0)
    (hr : bankReg s.nIds b off = some r) (hw : needsAwake b off = true → awake s = true) :
    memWrite s b off v = regWrite s b r v := by
  unfold memWrite
  rw [if_pos ha, hr]
  dsimp only
  rw [if_neg]
  intro h
  simp only [Bool.and_eq_true, Bool.not_eq_true'] at h
  have := hw h.1
  rw [this] at h
  exact absurd h.2 (by simp)

/-- A write to the SGI region of a sleeping redistributor faults. -/
theorem memWrite_asleep {s : State} {b : Bank} {off : Nat} {r : BankReg} (v : Word) (ha : off % 4 = 0)
    (hr : bankReg s.nIds b off = some r) (hn : needsAwake b off = true) (hw : awake s = false) :
    memWrite s b off v = .error .asleep := by
  simp [memWrite, ha, hr, hn, hw]

/-- A write that answers: aligned, mapped, allowed by the wake state, and the write rule of the register. -/
theorem memWrite_ok {s t : State} {b : Bank} {off : Nat} {v : Word} (h : memWrite s b off v = .ok t) :
    off % 4 = 0 ∧ ∃ r, bankReg s.nIds b off = some r ∧ (needsAwake b off = true → awake s = true) ∧
      regWrite s b r v = .ok t := by
  unfold memWrite at h
  split at h
  · refine ⟨‹_›, ?_⟩
    split at h
    · simp at h
    · split at h
      · simp at h
      · rename_i r hr hn
        refine ⟨_, hr, fun hna => ?_, h⟩
        cases haw : awake s
        · exact absurd (by simp [hna, haw]) hn
        · rfl
  · simp at h

/-- Outside the two banks a register write changes nothing. -/
theorem regWrite_frame {s t : State} {b : Bank} {r : BankReg} {v : Word} (h : regWrite s b r v = .ok t) :
    t.pe = s.pe ∧ t.cpu = s.cpu ∧ t.timer = s.timer ∧ t.seq = s.seq ∧ t.halt = s.halt ∧ t.fault = s.fault ∧
      t.rsp = s.rsp ∧ t.cfg = s.cfg ∧ t.env = s.env := by
  cases r <;> simp only [regWrite, Except.ok.injEq] at h
  case waker =>
    split at h
    · simp at h; subst h; exact ⟨rfl, rfl, rfl, rfl, rfl, rfl, rfl, rfl, rfl⟩
    · split at h
      · simp at h; subst h; exact ⟨rfl, rfl, rfl, rfl, rfl, rfl, rfl, rfl, rfl⟩
      · simp at h
  all_goals (subst h; simp)

/-- Outside the two banks a bank write changes nothing. -/
theorem memWrite_frame {s t : State} {b : Bank} {off : Nat} {v : Word} (h : memWrite s b off v = .ok t) :
    t.pe = s.pe ∧ t.cpu = s.cpu ∧ t.timer = s.timer ∧ t.seq = s.seq ∧ t.halt = s.halt ∧ t.fault = s.fault ∧
      t.rsp = s.rsp ∧ t.cfg = s.cfg ∧ t.env = s.env := by
  obtain ⟨_, _, _, _, h⟩ := memWrite_ok h
  exact regWrite_frame h

/-- Only `R_WAKER` and bank D's registers lie below the SGI region of their bank. -/
theorem bankReg_R_low {m off : Nat} {r : BankReg} (h : bankReg m .R off = some r) (hlt : off < sgiOff) : r = .waker := by
  unfold bankReg at h
  dsimp only at h
  split at h
  · simpa using h.symm
  · rw [if_neg (by omega)] at h; simp at h

/-- Bank R has no control register and no target window; bank D has no wake control register. -/
theorem bankReg_kind {m off : Nat} {b : Bank} {r : BankReg} (h : bankReg m b off = some r) :
    (b = .R → r ≠ .ctlr ∧ ∀ n, r ≠ .tgt n) ∧ (b = .D → r ≠ .waker) := by
  cases b <;> unfold bankReg at h <;> dsimp only [windowReg] at h <;> constructor <;> intro hb <;>
    (try simp at hb) <;> (repeat' split at h) <;> simp at h <;> subst h <;> simp

/-- What a bank write does to the redistributor: "children asleep" is never written; `PS` is only ever cleared; the
per-interrupt arrays are written only while the redistributor is awake. -/
theorem memWrite_redist {s t : State} {b : Bank} {off : Nat} {v : Word} (h : memWrite s b off v = .ok t) :
    t.redist.ca = s.redist.ca ∧ (t.redist.ps = s.redist.ps ∨ t.redist.ps = false) ∧
      (awake s = false → t.redist.arr = s.redist.arr) := by
  obtain ⟨ha, r, hr, hw, h⟩ := memWrite_ok h
  cases b with
  | D =>
    have hk := (bankReg_kind hr).2 rfl
    cases r <;> simp only [regWrite, Except.ok.injEq] at h
    case waker => exact absurd rfl hk
    all_goals (subst h; exact ⟨rfl, Or.inl rfl, fun _ => rfl⟩)
  | R =>
    by_cases hlt : off < sgiOff
    · have := bankReg_R_low hr hlt
      subst this
      simp only [regWrite] at h
      split at h
      · simp at h; subst h; exact ⟨rfl, Or.inr rfl, fun _ => rfl⟩
      · split at h
        · simp at h; subst h; exact ⟨rfl, Or.inl rfl, fun _ => rfl⟩
        · simp at h
    · have haw : awake s = true := hw (by simp [needsAwake]; omega)
      have hk := (bankReg_kind hr).1 rfl
      refine ⟨?_, ?_, fun hn => by rw [haw] at hn; simp at hn⟩
      all_goals
        cases r <;> simp only [regWrite, Except.ok.injEq] at h
        case waker =>
          split at h
          · simp at h; subst h; simp
          · split at h
            · simp at h; subst h; simp
            · simp at h
        all_goals (subst h; simp)

/-- What a bank write does to the distributor control register: `DS` is never cleared, and without it nothing else is
set (40_transactions.md R142). -/
theorem memWrite_ctlr {s t : State} {b : Bank} {off : Nat} {v : Word} (h : memWrite s b off v = .ok t) :
    t.dist.ctlr = s.dist.ctlr ∨ ∃ w, t.dist.ctlr = ctlrWrite s.dist.ctlr w := by
  obtain ⟨_, r, hr, _, h⟩ := memWrite_ok h
  cases r <;> simp only [regWrite, Except.ok.injEq] at h
  case ctlr => subst h; exact Or.inr ⟨v, rfl⟩
  case waker =>
    split at h
    · simp at h; subst h; exact Or.inl rfl
    · split at h
      · simp at h; subst h; exact Or.inl rfl
      · simp at h
  all_goals (subst h; exact Or.inl (by simp))

/-! ## System-register transactions -/

/-- A read that answers: privileged, not gated, and the value of the register. -/
theorem sysRead_ok {s : State} {r : SysReg} {v : DWord} (h : sysRead s r = .ok v) :
    s.pe.pstate.el ≠ 0#2 ∧ (sreGated r = true → s.cpu.sre = true) ∧ v = sysValue s r := by
  unfold sysRead at h
  split at h
  · simp at h
  · split at h
    · simp at h
    · rename_i h1 h2
      refine ⟨h1, fun hg => ?_, by simpa using h.symm⟩
      cases hs : s.cpu.sre
      · exact absurd (by simp [hg, hs]) h2
      · rfl

/-- A read that may answer does. -/
theorem sysRead_of {s : State} {r : SysReg} (he : s.pe.pstate.el ≠ 0#2) (hg : sreGated r = true → s.cpu.sre = true) :
    sysRead s r = .ok (sysValue s r) := by
  unfold sysRead
  rw [if_neg he, if_neg]
  intro h
  simp only [Bool.and_eq_true, Bool.not_eq_true'] at h
  rw [hg h.1] at h
  exact absurd h.2 (by simp)

/-- A write that answers: privileged, the redistributor awake where it must be, not gated, not read-only. -/
theorem sysWrite_ok {s t : State} {r : SysReg} {v : DWord} (h : sysWrite s r v = .ok t) :
    s.pe.pstate.el ≠ 0#2 ∧ (wakeGated r = true → awake s = true) ∧ (sreGated r = true → s.cpu.sre = true) ∧
      readOnlySys r = false ∧ t = sysStore s r v := by
  unfold sysWrite at h
  split at h
  · simp at h
  · split at h
    · simp at h
    · split at h
      · simp at h
      · split at h
        · simp at h
        · rename_i h1 h2 h3 h4
          refine ⟨h1, fun hg => ?_, fun hg => ?_, by simpa using h4, by simpa using h.symm⟩
          · cases hs : awake s
            · exact absurd (by simp [hg, hs]) h2
            · rfl
          · cases hs : s.cpu.sre
            · exact absurd (by simp [hg, hs]) h3
            · rfl

/-- A write that may answer does. -/
theorem sysWrite_of {s : State} {r : SysReg} (v : DWord) (he : s.pe.pstate.el ≠ 0#2)
    (hw : wakeGated r = true → awake s = true) (hg : sreGated r = true → s.cpu.sre = true)
    (hr : readOnlySys r = false) : sysWrite s r v = .ok (sysStore s r v) := by
  unfold sysWrite
  rw [if_neg he, if_neg, if_neg, if_neg (by simp [hr])]
  · intro h
    simp only [Bool.and_eq_true, Bool.not_eq_true'] at h
    rw [hg h.1] at h
    exact absurd h.2 (by simp)
  · intro h
    simp only [Bool.and_eq_true, Bool.not_eq_true'] at h
    rw [hw h.1] at h
    exact absurd h.2 (by simp)

/-- What a store to a system register leaves as it was. -/
theorem sysStore_frame (s : State) (r : SysReg) (v : DWord) :
    (sysStore s r v).dist = s.dist ∧ (sysStore s r v).redist = s.redist ∧ (sysStore s r v).seq = s.seq ∧
      (sysStore s r v).halt = s.halt ∧ (sysStore s r v).fault = s.fault ∧ (sysStore s r v).rsp = s.rsp ∧
      (sysStore s r v).cfg = s.cfg ∧ (sysStore s r v).env = s.env ∧ (sysStore s r v).pe.x = s.pe.x ∧
      (sysStore s r v).pe.pc = s.pe.pc ∧ (sysStore s r v).pe.elr = s.pe.elr ∧
      (sysStore s r v).pe.spsr = s.pe.spsr ∧ (sysStore s r v).pe.pstate.el = s.pe.pstate.el ∧
      (sysStore s r v).pe.pstate.spSel = s.pe.pstate.spSel ∧ (sysStore s r v).cpu.acked = s.cpu.acked ∧
      (sysStore s r v).cpu.curId = s.cpu.curId ∧ (sysStore s r v).timer.cnt = s.timer.cnt := by
  cases r <;> unfold sysStore <;> (try dsimp only) <;> (try split) <;>
    refine ⟨?_, ?_, ?_, ?_, ?_, ?_, ?_, ?_, ?_, ?_, ?_, ?_, ?_, ?_, ?_, ?_, ?_⟩ <;> rfl

/-- The timer registers never raise the synchronous exception. -/
theorem sysWrite_tval (s : State) (v : DWord) :
    sysWrite s .cntpTval v =
      if s.pe.pstate.el = 0#2 then .error (.fault .el0) else .ok (sysStore s .cntpTval v) := by
  simp [sysWrite, wakeGated, sreGated, readOnlySys]

theorem sysRead_cval (s : State) :
    sysRead s .cntpCval = if s.pe.pstate.el = 0#2 then .error (.fault .el0) else .ok s.timer.cval := by
  simp [sysRead, sreGated, sysValue]

/-! ## Traps -/

/-- A trap that is taken: a usable vector base, and the processing element after it. -/
theorem takeTrap_ok {s t : State} {c : ExcClass} (h : takeTrap s c = .ok t) :
    vectorUsable s = true ∧ t = { s with pe :=
      { s.pe with
        elr := s.pe.pc
        spsr := packPState s.pe.pstate
        pstate := { s.pe.pstate with d := true, a := true, i := true, f := true }
        pc := vectorAddr s c } } := by
  unfold takeTrap at h
  split at h
  · exact ⟨‹_›, by simpa using h.symm⟩
  · simp at h

/-- The synchronous exception (60_exceptions.md R313). -/
theorem syncEnter_ok {s t : State} (h : syncEnter s = .ok t) :
    vectorUsable s = true ∧ t = { s with
      pe := { s.pe with
        elr := s.pe.pc
        spsr := packPState s.pe.pstate
        pstate := { s.pe.pstate with d := true, a := true, i := true, f := true }
        pc := vectorAddr s .sync }
      seq.mainCmd := none
      halt := some .syncException } := by
  unfold syncEnter fatalEnter at h
  split at h
  · rename_i u hu
    obtain ⟨h1, rfl⟩ := takeTrap_ok hu
    exact ⟨h1, (Except.ok.inj h).symm⟩
  · simp at h

/-- The interrupt entry (60_exceptions.md R308). -/
theorem irqEnter_ok {s t : State} (h : irqEnter s = .ok t) :
    vectorUsable s = true ∧ t = { s with
      pe := { s.pe with
        elr := s.pe.pc
        spsr := packPState s.pe.pstate
        pstate := { s.pe.pstate with d := true, a := true, i := true, f := true }
        pc := vectorAddr s .irq }
      cpu.curId := hppi s
      seq.disp := .entered .irq } := by
  unfold irqEnter at h
  split at h
  · rename_i u hu
    obtain ⟨h1, rfl⟩ := takeTrap_ok hu
    exact ⟨h1, by simpa using h.symm⟩
  · simp at h

theorem vectorUsable_iff (s : State) :
    vectorUsable s = true ↔ s.pe.vbarValid = true ∧ s.pe.vbar.toNat % 0x800 = 0 := by
  have h : s.pe.vbar.extractLsb' 0 11 = 0#11 ↔ s.pe.vbar.toNat % 0x800 = 0 := by
    rw [← BitVec.toNat_inj]
    simp [BitVec.extractLsb'_toNat]
  simp [vectorUsable, h]

/-- Unpacking what was packed gives the processor state back (45_vector_dispatch.md R256). -/
theorem unpack_pack (p : PState) : unpackPState (packPState p) = p := by
  obtain ⟨d, a, i, f, el, sp⟩ := p
  have hel : el = 0#2 ∨ el = 1#2 ∨ el = 2#2 ∨ el = 3#2 := by revert el; decide
  rcases hel with rfl | rfl | rfl | rfl <;> revert d a i f sp <;> decide

/-- The frame keeps what `FRAME-SAVE` put into it (45_vector_dispatch.md R254). -/
theorem frame_of (p : Pe) :
    frameRegs (frameOf p) = p.x ∧ frameElr (frameOf p) = p.elr ∧ frameSpsr (frameOf p) = p.spsr := by
  refine ⟨?_, ?_, ?_⟩
  · apply Vector.ext
    intro i hi
    have h31 : i < 31 := by omega
    have h1 : (frameRegs (frameOf p))[i] = (frameOf p)[i]'(by omega) := by
      unfold frameRegs
      exact Vector.getElem_extract (by omega) |>.trans (by simp)
    rw [h1]
    exact Vector.getElem_append_left h31
  · exact (Vector.getElem_append_right (xs := p.x) (ys := #v[p.elr, p.spsr]) (i := 31) (by omega) (by omega)).trans rfl
  · exact (Vector.getElem_append_right (xs := p.x) (ys := #v[p.elr, p.spsr]) (i := 32) (by omega) (by omega)).trans rfl

/-! ## Acknowledge, end of interrupt, return -/

theorem acked_endOfInterrupt (s : State) (k : Nat) :
    acked (endOfInterrupt s) k =
      match s.cpu.curId with
      | none => acked s k
      | some id => if k = id ∧ id < 1024 then false else acked s k := by
  unfold endOfInterrupt
  cases h : s.cpu.curId with
  | none => rfl
  | some id =>
    simp only [acked]
    by_cases hid : id < 1024
    · rw [bitAt_putBit _ _ _ _ (by omega)]; simp [hid]
    · rw [bitAt_putBit_out _ _ _ _ (by omega)]; simp [hid]

theorem acked_acknowledge (s : State) (id k : Nat) :
    acked (acknowledge s id) k = if k = id ∧ id < 1024 then true else acked s k := by
  simp only [acked, acknowledge_cpu_acked]
  by_cases hid : id < 1024
  · rw [bitAt_putBit _ _ _ _ (by omega)]; simp [hid]
  · rw [bitAt_putBit_out _ _ _ _ (by omega)]; simp [hid]

theorem acked_range (s : State) (id : Nat) (h : acked s id = true) : id < 1024 := by
  unfold acked bitAt wordAt at h
  by_cases hid : id < 1024
  · exact hid
  · rw [Vector.getElem?_eq_none (by omega)] at h
    simp at h

/-- The enables are not what an acknowledge changes. -/
theorem enabled_acknowledge (s : State) (id : Nat) (b : Bank) (k : Nat) :
    enabled (acknowledge s id) b k = enabled s b k := by
  unfold enabled acknowledge
  cases bankOf s id <;> cases b <;> rfl

/-! ## Around a step -/

/-- Edge capture changes nothing where the line did not rise. -/
theorem edgeCapture_of_line {a s : State} (h : timerLine a = timerLine s) : edgeCapture a s = s := by
  unfold edgeCapture
  cases ht : timerLine s <;> simp [h, ht]

theorem enabled_edgeCapture (a s : State) (b : Bank) (k : Nat) : enabled (edgeCapture a s) b k = enabled s b k := by
  unfold edgeCapture enabled
  dsimp only
  split
  · cases bankOf s timerId <;> cases b <;> rfl
  · rfl

/-- Edge capture latches interrupt 30 in its effective bank where its line rises and it is edge-triggered, and no other
(60_exceptions.md R303). -/
theorem latch_edgeCapture (a s : State) (b : Bank) (k : Nat) :
    latch (edgeCapture a s) b k = (latch s b k ||
      (decide (k = timerId) && decide (b = bankOf s timerId) && edge s b timerId && !timerLine a && timerLine s)) := by
  unfold edgeCapture
  dsimp only
  generalize hB : bankOf s timerId = B
  split
  · rename_i hc
    simp only [Bool.and_eq_true, Bool.not_eq_true'] at hc
    obtain ⟨⟨c1, c2⟩, c3⟩ := hc
    have hr : timerId < 32 * blocksOf B := by cases B <;> decide
    by_cases hb : b = B
    · subst hb
      have : latch (s.setArrays b { s.arrays b with platch := putBit (s.arrays b).platch timerId true }) b k =
          bitAt (putBit (s.arrays b).platch timerId true) k := by cases b <;> rfl
      rw [this, bitAt_putBit _ _ _ _ hr]
      by_cases hk : k = timerId <;> simp [hk, latch, c1, c2, c3]
    · have : latch (s.setArrays B { s.arrays B with platch := putBit (s.arrays B).platch timerId true }) b k =
          latch s b k := by cases B <;> cases b <;> first | rfl | exact absurd rfl hb
      simp [this, hb]
  · rename_i hc
    by_cases hb : b = B
    · subst hb; cases h1 : timerLine a <;> cases h2 : timerLine s <;> simp_all
    · simp [hb]

/-- A step that answers did so from the state edge capture leaves, with no Group 0 interrupt in delivery. -/
theorem settle_next {a s t : State} (h : settle a s = .next t) :
    t = edgeCapture a s ∧ group0InDelivery t = false := by
  unfold settle at h
  split at h
  · simp at h
  · rename_i hg
    have : edgeCapture a s = t := by simpa using h
    subst this
    exact ⟨rfl, by simpa using hg⟩

end Sys2Proof.Machine
end

