-- ==== Sys2Proof/Laws/Commands.lean ====
section
/-!
SUPPORT. What one step of `MAIN` can do, said once: every transaction of every command is one of a few operations, or
the synchronous exception. `exec_cases` is the lemma to cite for a property of every command.
-/

namespace Sys2Proof.Machine

/-! ## Transactions in a relation -/

/-- Every state a transaction ends in is related to the one it began in; a trap is the synchronous exception. -/
def TxOut.Sat (R : State → State → Prop) (s : State) : TxOut → Prop
  | .hold _ t => R s t
  | .ret _ _ t => R s t
  | .trap t => syncEnter s = .ok t
  | .fault _ => True

/-- A relation kept by what a command inside a command can do to the state. -/
structure KeptByAccess (R : State → State → Prop) : Prop where
  refl : ∀ s, R s s
  trans : ∀ s t u, R s t → R t u → R s u
  bank : ∀ s b off v t, memWrite s b off v = .ok t → R s t
  sys : ∀ s r v t, sysWrite s r v = .ok t → R s t
  unmask : ∀ s : State, R s { s with pe.pstate.i := false }
  ack : ∀ s id, s.cpu.curId = some id → R s (acknowledge s id)
  eoi : ∀ s, R s (endOfInterrupt s)
  delta : ∀ (s : State) (d : Word), R s { s with seq.tDelta := d }
  diag : ∀ (s : State) (c : DWord), R s { s with seq.tDiag := c }

/-- A relation kept by everything a transaction of `MAIN` can do, the synchronous exception apart. The sequencer moves
past its wake transition only when it is past it already or "children asleep" reads 0. -/
structure KeptByMain (R : State → State → Prop) : Prop extends KeptByAccess R where
  orch : ∀ (s : State) (o : Orch), (pastWake o = true → pastWake s.seq.orch = true ∨ s.redist.ca = false) →
    R s { s with seq.orch := o }
  respond : ∀ s st v, R s (respond s st v)
  inFlight : ∀ s i k v, R s (inFlight s i k v)

/-! ## The building blocks -/

theorem bankReadTx_sat {R : State → State → Prop} (b : Bank) (off : Nat) (next : Word → State → TxOut) (s : State)
    (h : ∀ v, (next v s).Sat R s) : (bankReadTx b off next s).Sat R s := by
  unfold bankReadTx; split
  · exact h _
  · trivial

theorem bankWriteTx_sat {R : State → State → Prop} (b : Bank) (off : Nat) (v : Word) (next : State → TxOut) (s : State)
    (h : ∀ t, memWrite s b off v = .ok t → (next t).Sat R s) : (bankWriteTx b off v next s).Sat R s := by
  unfold bankWriteTx; split
  · exact h _ ‹_›
  · trivial

theorem trapTx_sat {R : State → State → Prop} (s : State) : (trapTx s).Sat R s := by
  unfold trapTx; split
  · assumption
  · trivial

theorem sysReadTx_sat {R : State → State → Prop} (r : SysReg) (next : DWord → State → TxOut) (s : State)
    (h : ∀ v, (next v s).Sat R s) : (sysReadTx r next s).Sat R s := by
  unfold sysReadTx; split
  · exact h _
  · trivial
  · exact trapTx_sat s

theorem sysWriteTx_sat {R : State → State → Prop} (r : SysReg) (v : DWord) (next : State → TxOut) (s : State)
    (h : ∀ t, sysWrite s r v = .ok t → (next t).Sat R s) : (sysWriteTx r v next s).Sat R s := by
  unfold sysWriteTx; split
  · exact h _ ‹_›
  · trivial
  · exact trapTx_sat s

theorem mapReturn_sat {R : State → State → Prop} (g : Status → DWord → State → TxOut) (o : TxOut) (s : State)
    (ho : o.Sat R s) (hg : ∀ st v t, o = .ret st v t → (g st v t).Sat R s) : (mapReturn g o).Sat R s := by
  cases o with
  | hold v t => exact ho
  | ret st v t => exact hg st v t rfl
  | trap t => exact ho
  | fault r => trivial

/-- A list of transactions, each of which keeps the relation. -/
def TxsSat (R : State → State → Prop) (l : List Tx) : Prop := ∀ tx ∈ l, ∀ h s, (tx h s).Sat R s

theorem progOf_sat {R : State → State → Prop} (hrefl : ∀ s, R s s) (l : List Tx) (hl : TxsSat R l) (k : Nat)
    (h : DWord) (s : State) : (progOf l k h s).Sat R s := by
  unfold progOf
  rw [List.getD_eq_getElem?_getD]
  cases hk : l[k]? with
  | none => exact hrefl s
  | some tx => exact hl tx (List.mem_of_getElem? hk) h s

theorem TxsSat.nil {R : State → State → Prop} : TxsSat R [] := by intro tx h; simp at h

theorem TxsSat.cons {R : State → State → Prop} {tx : Tx} {l : List Tx} (h1 : ∀ h s, (tx h s).Sat R s)
    (h2 : TxsSat R l) : TxsSat R (tx :: l) := by
  intro t ht
  rcases List.mem_cons.mp ht with rfl | ht
  · exact h1
  · exact h2 t ht

theorem inLine_sat {R : State → State → Prop} {p q : List Tx} (hp : TxsSat R p) (hq : TxsSat R q) :
    TxsSat R (inLine p q) := by
  intro tx htx
  rcases List.mem_append.mp htx with h | h
  · obtain ⟨u, hu, rfl⟩ := List.mem_map.mp h
    intro h s
    refine mapReturn_sat _ _ _ (hp u hu h s) fun st v t he => ?_
    have := hp u hu h s
    rw [he] at this
    unfold goOnAfterOk
    split <;> exact this
  · exact hq tx h

section
variable {R : State → State → Prop} (hR : KeptByAccess R)
include hR

theorem returnTxs_sat (st : Status) : TxsSat R (returnTxs st) := TxsSat.cons (fun _ s => hR.refl s) TxsSat.nil

theorem readHoldTx_sat (b : Bank) (off : Nat) (h : DWord) (s : State) : (readHoldTx b off h s).Sat R s :=
  bankReadTx_sat b off _ s fun _ => hR.refl s

theorem writeHeldTx_sat (b : Bank) (off : Nat) (f : Word → Word) (next : State → TxOut)
    (hn : ∀ s t, R s t → (next t).Sat R s) (h : DWord) (s : State) : (writeHeldTx b off f next h s).Sat R s :=
  bankWriteTx_sat b off _ _ s fun t ht => hn s t (hR.bank s b off _ t ht)

theorem rmwTxs_sat (b : Bank) (off : Nat) (f : Word → Word) : TxsSat R (rmwTxs b off f) :=
  TxsSat.cons (readHoldTx_sat hR b off) <|
    TxsSat.cons (writeHeldTx_sat hR b off f _ fun _ _ h => h) TxsSat.nil

theorem fieldWriteTxs_sat (b : Bank) (base : Nat) (w : BitVec 3) (i : Nat) (v : Word) :
    TxsSat R (fieldWriteTxs b base w i v) := rmwTxs_sat hR _ _ _

theorem fieldReadTxs_sat (b : Bank) (base : Nat) (w : BitVec 3) (i : Nat) : TxsSat R (fieldReadTxs b base w i) :=
  TxsSat.cons (fun _ s => bankReadTx_sat b _ _ s fun _ => hR.refl s) TxsSat.nil

theorem dChecked_sat (c : Config) (id : BitVec 10) {l : List Tx} (hl : TxsSat R l) : TxsSat R (dChecked c id l) := by
  unfold dChecked; split
  · exact hl
  · exact returnTxs_sat hR _

theorem rChecked_sat (id : BitVec 10) {l : List Tx} (hl : TxsSat R l) : TxsSat R (rChecked id l) := by
  unfold rChecked; split
  · exact hl
  · exact returnTxs_sat hR _

/-! ## The sequences of the commands -/

theorem dInitTxs_sat : TxsSat R dInitTxs :=
  TxsSat.cons (readHoldTx_sat hR _ _) <| TxsSat.cons (writeHeldTx_sat hR _ _ _ _ fun _ _ h => h) <|
  TxsSat.cons (readHoldTx_sat hR _ _) <| TxsSat.cons (writeHeldTx_sat hR _ _ _ _ fun _ _ h => h) <|
  TxsSat.cons (readHoldTx_sat hR _ _) <| TxsSat.cons (writeHeldTx_sat hR _ _ _ _ fun _ _ h => h) TxsSat.nil

theorem frdTxs_sat (b : Bank) (w : BitVec 3) (base : BitVec 17) (i : Word) : TxsSat R (frdTxs b w base i) := by
  unfold frdTxs; split
  · exact fieldReadTxs_sat hR _ _ _ _
  · exact returnTxs_sat hR _

theorem fwrTxs_sat (b : Bank) (w : BitVec 3) (base : BitVec 17) (i : Word) (v : BitVec 16) :
    TxsSat R (fwrTxs b w base i v) := by
  unfold fwrTxs; split
  · exact fieldWriteTxs_sat hR _ _ _ _ _
  · exact returnTxs_sat hR _

theorem dSetGrpTxs_sat (c : Config) (id : BitVec 10) (v : BitVec 8) : TxsSat R (dSetGrpTxs c id v) := by
  unfold dSetGrpTxs; split
  · exact dChecked_sat hR _ _ (fieldWriteTxs_sat hR _ _ _ _ _)
  · exact returnTxs_sat hR _

theorem dSetEnTxs_sat (c : Config) (id : BitVec 10) : TxsSat R (dSetEnTxs c id) :=
  dChecked_sat hR _ _ (fieldWriteTxs_sat hR _ _ _ _ _)
theorem dClrEnTxs_sat (c : Config) (id : BitVec 10) : TxsSat R (dClrEnTxs c id) :=
  dChecked_sat hR _ _ (fieldWriteTxs_sat hR _ _ _ _ _)
theorem dSetPriTxs_sat (c : Config) (id : BitVec 10) (v : BitVec 8) : TxsSat R (dSetPriTxs c id v) :=
  dChecked_sat hR _ _ (fieldWriteTxs_sat hR _ _ _ _ _)
theorem dSetPendTxs_sat (c : Config) (id : BitVec 10) : TxsSat R (dSetPendTxs c id) :=
  dChecked_sat hR _ _ (fieldWriteTxs_sat hR _ _ _ _ _)
theorem dClrPendTxs_sat (c : Config) (id : BitVec 10) : TxsSat R (dClrPendTxs c id) :=
  dChecked_sat hR _ _ (fieldWriteTxs_sat hR _ _ _ _ _)
theorem dGetPendTxs_sat (c : Config) (id : BitVec 10) : TxsSat R (dGetPendTxs c id) :=
  dChecked_sat hR _ _ (fieldReadTxs_sat hR _ _ _ _)

theorem dSetTgtTxs_sat (c : Config) (id : BitVec 10) (v : BitVec 8) : TxsSat R (dSetTgtTxs c id v) := by
  unfold dSetTgtTxs; split
  · exact dChecked_sat hR _ _ (rmwTxs_sat hR _ _ _)
  · exact returnTxs_sat hR _

theorem dSetCfgTxs_sat (c : Config) (id : BitVec 10) (v : BitVec 8) : TxsSat R (dSetCfgTxs c id v) := by
  unfold dSetCfgTxs; split
  · exact dChecked_sat hR _ _ (fieldWriteTxs_sat hR _ _ _ _ _)
  · exact returnTxs_sat hR _

theorem rSetGrpTxs_sat (id : BitVec 10) (v : BitVec 8) : TxsSat R (rSetGrpTxs id v) := by
  unfold rSetGrpTxs; split
  · exact rChecked_sat hR _ (fieldWriteTxs_sat hR _ _ _ _ _)
  · exact returnTxs_sat hR _

theorem rSetEnTxs_sat (id : BitVec 10) : TxsSat R (rSetEnTxs id) :=
  rChecked_sat hR _ (fieldWriteTxs_sat hR _ _ _ _ _)
theorem rClrEnTxs_sat (id : BitVec 10) : TxsSat R (rClrEnTxs id) :=
  rChecked_sat hR _ (fieldWriteTxs_sat hR _ _ _ _ _)
theorem rSetPriTxs_sat (id : BitVec 10) (v : BitVec 8) : TxsSat R (rSetPriTxs id v) :=
  rChecked_sat hR _ (fieldWriteTxs_sat hR _ _ _ _ _)
theorem rGetPriTxs_sat (id : BitVec 10) : TxsSat R (rGetPriTxs id) :=
  rChecked_sat hR _ (fieldReadTxs_sat hR _ _ _ _)
theorem rSetPendTxs_sat (id : BitVec 10) : TxsSat R (rSetPendTxs id) :=
  rChecked_sat hR _ (fieldWriteTxs_sat hR _ _ _ _ _)
theorem rClrPendTxs_sat (id : BitVec 10) : TxsSat R (rClrPendTxs id) :=
  rChecked_sat hR _ (fieldWriteTxs_sat hR _ _ _ _ _)
theorem rGetPendTxs_sat (id : BitVec 10) : TxsSat R (rGetPendTxs id) :=
  rChecked_sat hR _ (fieldReadTxs_sat hR _ _ _ _)

theorem rSetCfgTxs_sat (id : BitVec 10) (v : BitVec 8) : TxsSat R (rSetCfgTxs id v) := by
  unfold rSetCfgTxs; split
  · exact rChecked_sat hR _ (fieldWriteTxs_sat hR _ _ _ _ _)
  · exact returnTxs_sat hR _

theorem rInitProg_sat (bound : Word) (k : Nat) (h : DWord) (s : State) : (rInitProg bound k h s).Sat R s := by
  match k with
  | 0 => exact readHoldTx_sat hR _ _ h s
  | 1 =>
    unfold rInitProg
    refine writeHeldTx_sat hR _ _ _ _ (fun s t ht => ?_) h s
    split <;> exact ht
  | _ + 2 =>
    unfold rInitProg wakePollTx
    refine bankReadTx_sat _ _ _ s fun v => ?_
    repeat' split
    all_goals exact hR.refl s

theorem cSreTxs_sat : TxsSat R cSreTxs :=
  TxsSat.cons (fun _ s => sysReadTx_sat _ _ s fun _ => hR.refl s) <|
  TxsSat.cons (fun _ s => sysWriteTx_sat _ _ _ s fun t ht => hR.sys s _ _ t ht) <|
  TxsSat.cons (fun _ s => sysReadTx_sat _ _ s fun _ => hR.refl s) TxsSat.nil

theorem cPmrTxs_sat : TxsSat R cPmrTxs :=
  TxsSat.cons (fun _ s => sysWriteTx_sat _ _ _ s fun t ht => hR.sys s _ _ t ht) TxsSat.nil

theorem cGrp1enTxs_sat : TxsSat R cGrp1enTxs :=
  TxsSat.cons (fun _ s => sysWriteTx_sat _ _ _ s fun t ht => hR.sys s _ _ t ht) TxsSat.nil

theorem cUnmaskTxs_sat : TxsSat R cUnmaskTxs := by
  refine TxsSat.cons (fun _ s => ?_) TxsSat.nil
  split
  · trivial
  · exact hR.unmask s

theorem cInitTxs_sat : TxsSat R cInitTxs :=
  inLine_sat (cSreTxs_sat hR) (inLine_sat (cPmrTxs_sat hR) (inLine_sat (cGrp1enTxs_sat hR) (cUnmaskTxs_sat hR)))

theorem cAckTxs_sat : TxsSat R cAckTxs := by
  refine TxsSat.cons (fun _ s => ?_) TxsSat.nil
  split
  · exact hR.refl s
  · exact hR.ack s _ ‹_›

theorem cEoiTxs_sat : TxsSat R cEoiTxs := TxsSat.cons (fun _ s => hR.eoi s) TxsSat.nil

theorem vInstallTxs_sat (a : DWord) : TxsSat R (vInstallTxs a) :=
  TxsSat.cons (fun _ s => sysWriteTx_sat _ _ _ s fun t ht => hR.sys s _ _ t ht) TxsSat.nil

theorem vCurelTxs_sat : TxsSat R vCurelTxs :=
  TxsSat.cons (fun _ s => sysReadTx_sat _ _ s fun _ => hR.refl s) TxsSat.nil

theorem tArmTxs_sat : TxsSat R tArmTxs :=
  TxsSat.cons (fun _ s => sysReadTx_sat _ _ s fun _ => hR.delta s _) <|
  TxsSat.cons (fun _ s => sysWriteTx_sat _ _ _ s fun t ht => hR.sys s _ _ t ht) <|
  TxsSat.cons (fun _ s => sysReadTx_sat _ _ s fun _ => hR.diag s _) <|
  TxsSat.cons (fun _ s => sysWriteTx_sat _ _ _ s fun t ht => hR.sys s _ _ t ht) TxsSat.nil

theorem tHandleTxs_sat : TxsSat R tHandleTxs :=
  TxsSat.cons (fun _ s => sysWriteTx_sat _ _ _ s fun t ht => hR.sys s _ _ t ht) <|
  TxsSat.cons (fun _ s => sysReadTx_sat _ _ s fun _ => hR.diag s _) TxsSat.nil

theorem timerIrqTxs_sat (c : Config) : TxsSat R (timerIrqTxs c) :=
  inLine_sat (dSetGrpTxs_sat hR _ _ _) <| inLine_sat (rSetGrpTxs_sat hR _ _) <|
  inLine_sat (dSetPriTxs_sat hR _ _ _) <| inLine_sat (rSetPriTxs_sat hR _ _) <|
  inLine_sat (dSetTgtTxs_sat hR _ _ _) <| inLine_sat (dSetCfgTxs_sat hR _ _ _) <|
  inLine_sat (rSetCfgTxs_sat hR _ _) <| inLine_sat (dClrPendTxs_sat hR _ _) <|
  inLine_sat (rClrPendTxs_sat hR _) <| inLine_sat (dSetEnTxs_sat hR _ _) (rSetEnTxs_sat hR _)

end

/-! ## The sequencer -/

/-- R.INIT answers `OK` only when "children asleep" reads 0. -/
theorem rInitProg_ok (bound : Word) (k : Nat) (h v : DWord) (s t : State) (he : rInitProg bound k h s = .ret .ok v t) :
    t.redist.ca = false := by
  match k, he with
  | 0, he =>
    simp only [rInitProg, readHoldTx, bankReadTx] at he
    split at he <;> simp at he
  | 1, he =>
    simp only [rInitProg, writeHeldTx, bankWriteTx] at he
    split at he
    · split at he <;> simp [goOn] at he
    · simp at he
  | _ + 2, he =>
    simp only [rInitProg, wakePollTx, bankReadTx] at he
    split at he
    · rename_i w hw
      split at he
      · split at he <;> simp at he
      · rename_i hb
        simp at he
        rw [← he.2]
        have : w = wakerWord s.redist := by
          simp [memRead, regRead] at hw; exact hw.symm
        rw [this] at hb
        revert hb
        cases s.redist.ps <;> cases hca : s.redist.ca <;> simp [wakerWord, flagBit, hca]
    · simp at he

/-- The relation, and the sequencer's state kept: what a command run as a transition does before its end. -/
theorem KeptByAccess.withOrch {R : State → State → Prop} (hR : KeptByAccess R) :
    KeptByAccess (fun s t => R s t ∧ t.seq.orch = s.seq.orch) where
  refl s := ⟨hR.refl s, rfl⟩
  trans s t u h1 h2 := ⟨hR.trans s t u h1.1 h2.1, h2.2.trans h1.2⟩
  bank s b off v t h := ⟨hR.bank s b off v t h, by rw [(memWrite_frame h).2.2.2.1]⟩
  sys s r v t h := ⟨hR.sys s r v t h, by
    obtain ⟨_, _, _, _, rfl⟩ := sysWrite_ok h
    rw [(sysStore_frame s r v).2.2.1]⟩
  unmask s := ⟨hR.unmask s, rfl⟩
  ack s id h := ⟨hR.ack s id h, by simp⟩
  eoi s := ⟨hR.eoi s, by simp⟩
  delta s d := ⟨hR.delta s d, rfl⟩
  diag s c := ⟨hR.diag s c, rfl⟩

section
variable {R : State → State → Prop} (hR : KeptByMain R)
include hR

/-- A transition of the sequencer: its command keeps the relation and the sequencer's state, and where the command ends
the new state may be entered. -/
theorem transition_sat (o : Orch) (p : Prog) (k : Nat) (h : DWord) (s : State)
    (hp : (p k h s).Sat (fun s t => R s t ∧ t.seq.orch = s.seq.orch) s)
    (ho : ∀ v t, p k h s = .ret .ok v t → t.seq.orch = s.seq.orch →
      pastWake o = true → pastWake s.seq.orch = true ∨ t.redist.ca = false) :
    (transition o p k h s).Sat R s := by
  unfold transition mapReturnTx
  cases he : p k h s with
  | hold v t => rw [he] at hp; exact hp.1
  | trap t => rw [he] at hp; exact hp
  | fault r => trivial
  | ret st v t =>
    rw [he] at hp
    unfold mapReturn reach
    dsimp only
    split
    · rename_i hst
      subst hst
      refine hR.trans s t _ hp.1 (hR.orch t o fun hw => ?_)
      have := ho v t he hp.2 hw
      rwa [hp.2]
    · refine hR.trans s t _ hp.1 (hR.orch t _ fun hw => ?_)
      cases st <;> simp [pastWake] at hw

theorem oStepProg_sat (k : Nat) (h : DWord) (s : State) : (oStepProg s k h s).Sat R s := by
  have hA := hR.toKeptByAccess
  have hO := hA.withOrch
  have hend : ∀ s : State, R s s ∧ s.seq.orch = s.seq.orch := hO.refl
  cases ho : s.seq.orch <;> simp only [oStepProg, ho]
  case uninitialized =>
    exact transition_sat hR _ _ k h s (progOf_sat hend _ (vInstallTxs_sat hO _) k h s)
      fun v t _ _ hw => by simp [pastWake] at hw
  case vectorInstalled =>
    exact transition_sat hR _ _ k h s (progOf_sat hend _ (dInitTxs_sat hO) k h s)
      fun v t _ _ hw => by simp [pastWake] at hw
  case distributorConfigured =>
    exact transition_sat hR _ _ k h s (rInitProg_sat hO _ k h s)
      fun v t he _ _ => Or.inr (rInitProg_ok _ k h v s t he)
  case redistributorAwake =>
    exact transition_sat hR _ _ k h s (progOf_sat hend _ (cInitTxs_sat hO) k h s)
      fun v t _ _ _ => Or.inl (by rw [ho]; rfl)
  case cpuInterfaceReady =>
    exact transition_sat hR _ _ k h s (progOf_sat hend _ (timerIrqTxs_sat hO _) k h s)
      fun v t _ _ _ => Or.inl (by rw [ho]; rfl)
  case timerInterruptConfigured =>
    exact transition_sat hR _ _ k h s (progOf_sat hend _ (tArmTxs_sat hO) k h s)
      fun v t _ _ _ => Or.inl (by rw [ho]; rfl)
  case timerArmed =>
    exact transition_sat hR _ _ k h s (progOf_sat hend _ (returnTxs_sat hO _) k h s)
      fun v t _ _ _ => Or.inl (by rw [ho]; rfl)
  all_goals exact progOf_sat hA.refl _ (returnTxs_sat hA _) k h s

theorem oPollTxs_sat (s₀ : State) : TxsSat R (oPollTxs s₀) := by
  have hA := hR.toKeptByAccess
  unfold oPollTxs
  split
  · intro tx htx
    obtain ⟨u, hu, rfl⟩ := List.mem_map.mp htx
    intro h s
    have := rGetPendTxs_sat hA 30#10 u hu h s
    refine mapReturn_sat _ _ _ this fun st v t he => ?_
    rw [he] at this
    unfold pollAnswer
    split
    · exact hR.trans s t _ this (hR.orch t _ fun hw => by simp [pastWake] at hw)
    · exact this
  · exact returnTxs_sat hA _

/-- One step of `MAIN` from the transaction it makes. -/
theorem runMain_cases {i : Instr} {p : Prog} {s t : State}
    (hp : (p (mainIndex s) (mainHeld s) s).Sat R s) (h : runMain i p s = .next t) :
    R s t ∨ syncEnter s = .ok t := by
  unfold runMain at h
  split at h <;> rename_i he <;> rw [he] at hp
  · left; injection h with h; subst h; exact hR.trans s _ _ hp (hR.inFlight _ _ _ _)
  · left; injection h with h; subst h; exact hR.trans s _ _ hp (hR.respond _ _ _)
  · right; injection h with h; subst h; exact hp
  · simp at h

/-- What a step of `MAIN` can do, whatever the command and wherever it stands in it: it keeps every relation its
operations keep, or it takes the synchronous exception in place of its access. -/
theorem exec_cases {i : Instr} {s t : State} (h : exec i s = .next t) : R s t ∨ syncEnter s = .ok t := by
  have hA := hR.toKeptByAccess
  have hl : ∀ l : List Tx, TxsSat R l → (progOf l (mainIndex s) (mainHeld s) s).Sat R s :=
    fun l hl => progOf_sat hA.refl l hl _ _ _
  cases i <;> unfold exec at h <;> dsimp only at h
  case rd32 =>
    refine runMain_cases hR (hl _ (TxsSat.cons (fun _ s => ?_) TxsSat.nil)) h
    exact bankReadTx_sat _ _ _ s fun _ => hA.refl s
  case wr32 =>
    refine runMain_cases hR (hl _ (TxsSat.cons (fun _ s => ?_) TxsSat.nil)) h
    exact bankWriteTx_sat _ _ _ _ s fun t ht => hA.bank s _ _ _ t ht
  case srrd =>
    refine runMain_cases hR (hl _ (TxsSat.cons (fun _ s => ?_) TxsSat.nil)) h
    exact sysReadTx_sat _ _ s fun _ => hA.refl s
  case srwr =>
    refine runMain_cases hR (hl _ (TxsSat.cons (fun _ s => ?_) TxsSat.nil)) h
    exact sysWriteTx_sat _ _ _ s fun t ht => hA.sys s _ _ t ht
  case frd => exact runMain_cases hR (hl _ (frdTxs_sat hA _ _ _ _)) h
  case fwr => exact runMain_cases hR (hl _ (fwrTxs_sat hA _ _ _ _ _)) h
  case dInit => exact runMain_cases hR (hl _ (dInitTxs_sat hA)) h
  case dSetGrp => exact runMain_cases hR (hl _ (dSetGrpTxs_sat hA _ _ _)) h
  case dSetEn => exact runMain_cases hR (hl _ (dSetEnTxs_sat hA _ _)) h
  case dClrEn => exact runMain_cases hR (hl _ (dClrEnTxs_sat hA _ _)) h
  case dSetPri => exact runMain_cases hR (hl _ (dSetPriTxs_sat hA _ _ _)) h
  case dSetTgt => exact runMain_cases hR (hl _ (dSetTgtTxs_sat hA _ _ _)) h
  case dSetCfg => exact runMain_cases hR (hl _ (dSetCfgTxs_sat hA _ _ _)) h
  case dSetPend => exact runMain_cases hR (hl _ (dSetPendTxs_sat hA _ _)) h
  case dClrPend => exact runMain_cases hR (hl _ (dClrPendTxs_sat hA _ _)) h
  case dGetPend => exact runMain_cases hR (hl _ (dGetPendTxs_sat hA _ _)) h
  case rInit => exact runMain_cases hR (rInitProg_sat hA _ _ _ _) h
  case rSetGrp => exact runMain_cases hR (hl _ (rSetGrpTxs_sat hA _ _)) h
  case rSetEn => exact runMain_cases hR (hl _ (rSetEnTxs_sat hA _)) h
  case rClrEn => exact runMain_cases hR (hl _ (rClrEnTxs_sat hA _)) h
  case rSetPri => exact runMain_cases hR (hl _ (rSetPriTxs_sat hA _ _)) h
  case rGetPri => exact runMain_cases hR (hl _ (rGetPriTxs_sat hA _)) h
  case rSetCfg => exact runMain_cases hR (hl _ (rSetCfgTxs_sat hA _ _)) h
  case rSetPend => exact runMain_cases hR (hl _ (rSetPendTxs_sat hA _)) h
  case rClrPend => exact runMain_cases hR (hl _ (rClrPendTxs_sat hA _)) h
  case rGetPend => exact runMain_cases hR (hl _ (rGetPendTxs_sat hA _)) h
  case cInit => exact runMain_cases hR (hl _ (cInitTxs_sat hA)) h
  case cSre => exact runMain_cases hR (hl _ (cSreTxs_sat hA)) h
  case cPmr => exact runMain_cases hR (hl _ (cPmrTxs_sat hA)) h
  case cGrp1en => exact runMain_cases hR (hl _ (cGrp1enTxs_sat hA)) h
  case cUnmask => exact runMain_cases hR (hl _ (cUnmaskTxs_sat hA)) h
  case cAck => exact runMain_cases hR (hl _ (cAckTxs_sat hA)) h
  case cEoi => exact runMain_cases hR (hl _ (cEoiTxs_sat hA)) h
  case vInstall => exact runMain_cases hR (hl _ (vInstallTxs_sat hA _)) h
  case vCurel => exact runMain_cases hR (hl _ (vCurelTxs_sat hA)) h
  case tArm => exact runMain_cases hR (hl _ (tArmTxs_sat hA)) h
  case tHandle => exact runMain_cases hR (hl _ (tHandleTxs_sat hA)) h
  case oStep => exact runMain_cases hR (oStepProg_sat hR _ _ _) h
  case oPoll => exact runMain_cases hR (hl _ (oPollTxs_sat hR _)) h

end

/-! ## Where a step of `MAIN` stands -/

@[simp] theorem mainIndex_idle {s : State} (h : s.seq.mainCmd = none) : mainIndex s = 0 := by simp [mainIndex, h]
@[simp] theorem mainHeld_idle {s : State} (h : s.seq.mainCmd = none) : mainHeld s = 0#64 := by simp [mainHeld, h]
@[simp] theorem mainIndex_inFlight (s : State) (i : Instr) (k : Nat) (v : DWord) : mainIndex (inFlight s i k v) = k := rfl
@[simp] theorem mainHeld_inFlight (s : State) (i : Instr) (k : Nat) (v : DWord) : mainHeld (inFlight s i k v) = v := rfl

/-- A command that ends in its first transaction leaves the response and nothing in flight. -/
theorem respond_idle {s : State} (h : s.seq.mainCmd = none) (st : Status) (v : DWord) :
    respond s st v = { s with rsp := { status := st.code, rdata := v } } := by
  obtain ⟨pe, d, r, c, ti, ⟨o, m, hc, di, cx, fv, td, tg⟩, ha, f, rs, cf, e⟩ := s
  simp only at h
  subst h
  rfl

end Sys2Proof.Machine
end

