-- ==== Sys2Proof/Laws/Encoding.lean ====
section
/-!
SUPPORT. The fields of the words the encoder writes, format by format (30_encoding.md R110 to R116): what each field of
the word reads back as, and which bits of the word the opcode table fixes.
-/

namespace Sys2Proof

/-! ## Format N -/

theorem wordN_bit (op : BitVec 8) (i : Nat) : (wordN op).getLsbD i =
    if i < 24 then false else op.getLsbD (i - 24) := by
  unfold wordN
  erw [BitVec.getLsbD_append]
  simp; try grind

theorem wordN_op (op : BitVec 8) (v : DWord) : (Descriptor.mk (wordN op) v).op = op := by
  apply BitVec.eq_of_getLsbD_eq; intro i hi
  simp [Descriptor.op, wordN]; try grind

theorem wordN_zero (op : BitVec 8) : (wordN op).extractLsb' 0 24 = 0#24 := by
  apply BitVec.eq_of_getLsbD_eq; intro i hi
  simp [wordN]; try grind

/-! ## Format I -/

theorem wordI_bit (op v : BitVec 8) (id : BitVec 10) (i : Nat) : (wordI op v id).getLsbD i =
    if i < 10 then id.getLsbD i else if i < 16 then false else
    if i < 24 then v.getLsbD (i - 16) else op.getLsbD (i - 24) := by
  unfold wordI
  erw [BitVec.getLsbD_append, BitVec.getLsbD_append, BitVec.getLsbD_append]
  simp; try grind

theorem wordI_op (op v : BitVec 8) (id : BitVec 10) (x : DWord) : (Descriptor.mk (wordI op v id) x).op = op := by
  apply BitVec.eq_of_getLsbD_eq; intro i hi
  simp [Descriptor.op, wordI]; try grind

theorem wordI_val (op v : BitVec 8) (id : BitVec 10) (x : DWord) : (Descriptor.mk (wordI op v id) x).val = v := by
  apply BitVec.eq_of_getLsbD_eq; intro i hi
  simp [Descriptor.val, wordI]; try grind

theorem wordI_id (op v : BitVec 8) (id : BitVec 10) (x : DWord) : (Descriptor.mk (wordI op v id) x).id = id := by
  apply BitVec.eq_of_getLsbD_eq; intro i hi
  simp [Descriptor.id, wordI]; try grind

theorem wordI_zero (op v : BitVec 8) (id : BitVec 10) : (wordI op v id).extractLsb' 10 6 = 0#6 := by
  apply BitVec.eq_of_getLsbD_eq; intro i hi
  simp [wordI]; try grind

/-! ## Format M -/

theorem wordM_bit (op : BitVec 8) (b : Bank) (off : BitVec 17) (i : Nat) : (wordM op b off).getLsbD i =
    if i < 17 then off.getLsbD i else if i < 23 then false else
    if i < 24 then b.bit.getLsbD (i - 23) else op.getLsbD (i - 24) := by
  unfold wordM
  erw [BitVec.getLsbD_append, BitVec.getLsbD_append, BitVec.getLsbD_append]
  simp; try grind

theorem wordM_op (op : BitVec 8) (b : Bank) (off : BitVec 17) (x : DWord) :
    (Descriptor.mk (wordM op b off) x).op = op := by
  apply BitVec.eq_of_getLsbD_eq; intro i hi
  simp [Descriptor.op, wordM]; try grind

theorem wordM_bank (op : BitVec 8) (b : Bank) (off : BitVec 17) (x : DWord) :
    (Descriptor.mk (wordM op b off) x).bank = b := by
  have : (wordM op b off).extractLsb' 23 1 = b.bit := by
    apply BitVec.eq_of_getLsbD_eq; intro i hi
    simp [wordM]; try grind
  simp only [Descriptor.bank, this]
  cases b <;> rfl

theorem wordM_off (op : BitVec 8) (b : Bank) (off : BitVec 17) (x : DWord) :
    (Descriptor.mk (wordM op b off) x).off = off := by
  apply BitVec.eq_of_getLsbD_eq; intro i hi
  simp [Descriptor.off, wordM]; try grind

theorem wordM_zero (op : BitVec 8) (b : Bank) (off : BitVec 17) : (wordM op b off).extractLsb' 17 6 = 0#6 := by
  apply BitVec.eq_of_getLsbD_eq; intro i hi
  simp [wordM]; try grind

/-! ## Format S -/

theorem wordS_bit (op : BitVec 8) (r : SysReg) (i : Nat) : (wordS op r).getLsbD i =
    if i < 5 then r.sel.getLsbD i else if i < 24 then false else op.getLsbD (i - 24) := by
  unfold wordS
  erw [BitVec.getLsbD_append, BitVec.getLsbD_append]
  simp; try grind

theorem wordS_op (op : BitVec 8) (r : SysReg) (x : DWord) : (Descriptor.mk (wordS op r) x).op = op := by
  apply BitVec.eq_of_getLsbD_eq; intro i hi
  simp [Descriptor.op, wordS]; try grind

theorem wordS_sel (op : BitVec 8) (r : SysReg) (x : DWord) : (Descriptor.mk (wordS op r) x).sel = r.sel := by
  apply BitVec.eq_of_getLsbD_eq; intro i hi
  simp [Descriptor.sel, wordS]; try grind

theorem sysRegOfSel_sel (r : SysReg) : sysRegOfSel r.sel = some r := by cases r <;> rfl

theorem wordS_zero (op : BitVec 8) (r : SysReg) : (wordS op r).extractLsb' 5 19 = 0#19 := by
  apply BitVec.eq_of_getLsbD_eq; intro i hi
  simp [wordS]; try grind

/-! ## Format F -/

theorem wordF_bit (op : BitVec 8) (b : Bank) (w : BitVec 3) (base : BitVec 17) (i : Nat) : (wordF op b w base).getLsbD i =
    if i < 17 then base.getLsbD i else if i < 20 then false else
    if i < 23 then w.getLsbD (i - 20) else if i < 24 then b.bit.getLsbD (i - 23) else op.getLsbD (i - 24) := by
  unfold wordF
  erw [BitVec.getLsbD_append, BitVec.getLsbD_append, BitVec.getLsbD_append, BitVec.getLsbD_append]
  simp; try grind

theorem wordF_op (op : BitVec 8) (b : Bank) (w : BitVec 3) (base : BitVec 17) (x : DWord) :
    (Descriptor.mk (wordF op b w base) x).op = op := by
  apply BitVec.eq_of_getLsbD_eq; intro i hi
  simp [Descriptor.op, wordF]; try grind

theorem wordF_bank (op : BitVec 8) (b : Bank) (w : BitVec 3) (base : BitVec 17) (x : DWord) :
    (Descriptor.mk (wordF op b w base) x).bank = b := by
  have : (wordF op b w base).extractLsb' 23 1 = b.bit := by
    apply BitVec.eq_of_getLsbD_eq; intro i hi
    simp [wordF]; try grind
  simp only [Descriptor.bank, this]
  cases b <;> rfl

theorem wordF_wlog (op : BitVec 8) (b : Bank) (w : BitVec 3) (base : BitVec 17) (x : DWord) :
    (Descriptor.mk (wordF op b w base) x).wlog = w := by
  apply BitVec.eq_of_getLsbD_eq; intro i hi
  simp [Descriptor.wlog, wordF]; try grind

theorem wordF_base (op : BitVec 8) (b : Bank) (w : BitVec 3) (base : BitVec 17) (x : DWord) :
    (Descriptor.mk (wordF op b w base) x).off = base := by
  apply BitVec.eq_of_getLsbD_eq; intro i hi
  simp [Descriptor.off, wordF]; try grind

theorem wordF_zero (op : BitVec 8) (b : Bank) (w : BitVec 3) (base : BitVec 17) :
    (wordF op b w base).extractLsb' 17 3 = 0#3 := by
  apply BitVec.eq_of_getLsbD_eq; intro i hi
  simp [wordF]; try grind

end Sys2Proof
end

