-- ==== Sys2Proof/Laws/Fields.lean ====
section
/-!
SUPPORT. Read-modify-write in its two steps, and what it comes to on each window of a bank.
-/

namespace Sys2Proof.Machine

/-! ## A command in flight does not show in the registers -/

theorem respond_inFlight (s : State) (i : Instr) (k : Nat) (v : DWord) (st : Status) (w : DWord) :
    respond (inFlight s i k v) st w = respond s st w := rfl

theorem regRead_inFlight (s : State) (i : Instr) (k : Nat) (v : DWord) (b : Bank) (r : BankReg) :
    regRead (inFlight s i k v) b r = regRead s b r := by
  cases b <;> cases r <;> rfl

theorem memRead_inFlight (s : State) (i : Instr) (k : Nat) (v : DWord) (b : Bank) (off : Nat) :
    memRead (inFlight s i k v) b off = memRead s b off := by
  unfold memRead
  simp only [regRead_inFlight]
  rfl

theorem regWrite_inFlight (s : State) (i : Instr) (k : Nat) (v : DWord) (b : Bank) (r : BankReg) (w : Word) :
    regWrite (inFlight s i k v) b r w = (regWrite s b r w).map (inFlight · i k v) := by
  cases b <;> cases r <;> simp only [regWrite] <;> (repeat' split) <;> first | rfl | simp_all

theorem memWrite_inFlight (s : State) (i : Instr) (k : Nat) (v : DWord) (b : Bank) (off : Nat) (w : Word) :
    memWrite (inFlight s i k v) b off w = (memWrite s b off w).map (inFlight · i k v) := by
  unfold memWrite
  simp only [regWrite_inFlight]
  have h1 : (inFlight s i k v).nIds = s.nIds := rfl
  have h2 : awake (inFlight s i k v) = awake s := rfl
  rw [h1, h2]
  split
  · split
    · rfl
    · split <;> rfl
  · rfl

/-! ## Read-modify-write -/

theorem setWidth_word (r : Word) : (r.setWidth 64).setWidth 32 = r := by
  apply BitVec.eq_of_toNat_eq
  simp only [BitVec.toNat_setWidth]
  omega

/-- The first transaction of a read-modify-write. -/
theorem runMain_rmw_read {i : Instr} {s : State} {b : Bank} {off : Nat} {f : Word → Word}
    (hm : s.seq.mainCmd = none) {r : Word} (hr : memRead s b off = .ok r) :
    runMain i (progOf (rmwTxs b off f)) s = .next (inFlight s i 1 (r.setWidth 64)) := by
  simp [runMain, hm, progOf, rmwTxs, readHoldTx, bankReadTx, hr]

/-- The second transaction: the value held, changed, is written, whatever other agents did in between. -/
theorem runMain_rmw_write {i : Instr} {s : State} {b : Bank} {off : Nat} {f : Word → Word} (r : Word) :
    runMain i (progOf (rmwTxs b off f)) (inFlight s i 1 (r.setWidth 64)) =
      match memWrite s b off (f r) with
      | .ok t => .next (respond t .ok 0#64)
      | .error e => .fault e := by
  simp only [runMain, mainIndex_inFlight, mainHeld_inFlight, progOf, rmwTxs, List.getD_cons_succ, List.getD_cons_zero,
    writeHeldTx, bankWriteTx, setWidth_word, memWrite_inFlight]
  cases memWrite s b off (f r) with
  | ok t => simp [Except.map, returnOk, respond_inFlight]
  | error e => simp [Except.map]

/-! ## Bits of a read-modify-write of each kind of window -/

theorem bitAt_field {k : Nat} (a : Vector Word k) (id : Nat) (v : Word) (hid : id < 32 * k) (j : Nat) :
    bitAt (a.setIfInBounds (id / 32) (fieldPut wlogBit id (wordAt a (id / 32)) v)) j =
      if j = id then v.getLsbD 0 else bitAt a j := by
  rw [bitAt_setIfInBounds _ _ _ _ (by omega)]
  by_cases h : j / 32 = id / 32
  · rw [if_pos h, fieldPut_bit _ _ _ _ (by omega)]
    by_cases hj : j = id
    · simp [hj]
    · have : j % 32 ≠ id % 32 := by omega
      simp [hj, this, bitAt, h]
  · have : j ≠ id := fun e => h (by rw [e])
    simp [h, this]

theorem byteAt_field {k : Nat} (a : Vector Word k) (id : Nat) (v : Word) (hid : id < 4 * k) (j : Nat) :
    byteAt (a.setIfInBounds (id / 4) (fieldPut wlogByte id (wordAt a (id / 4)) v)) j =
      if j = id then v.extractLsb' 0 8 else byteAt a j := by
  rw [byteAt_setIfInBounds _ _ _ _ (by omega)]
  by_cases h : j / 4 = id / 4
  · rw [if_pos h, fieldPut_byte _ _ _ _ (by omega)]
    by_cases hj : j = id
    · simp [hj]
    · have : j % 4 ≠ id % 4 := by omega
      simp [hj, this, byteAt, h]
  · have : j ≠ id := fun e => h (by rw [e])
    simp [h, this]

theorem pairAt_field {k : Nat} (a : Vector Word k) (id : Nat) (v : Word) (hid : id < 16 * k) (j : Nat) :
    pairAt (a.setIfInBounds (id / 16) (fieldPut wlogPair id (wordAt a (id / 16)) v)) j =
      if j = id then v.extractLsb' 0 2 else pairAt a j := by
  rw [pairAt_setIfInBounds _ _ _ _ (by omega)]
  by_cases h : j / 16 = id / 16
  · rw [if_pos h, fieldPut_pair _ _ _ _ (by omega)]
    by_cases hj : j = id
    · simp [hj]
    · have : j % 16 ≠ id % 16 := by omega
      simp [hj, this, pairAt, h]
  · have : j ≠ id := fun e => h (by rw [e])
    simp [h, this]

/-- Setting the ones of a word in a set window sets those entries. -/
theorem bitAt_or {k : Nat} (a : Vector Word k) (n : Nat) (v : Word) (hn : n < k) (j : Nat) :
    bitAt (a.setIfInBounds n (wordAt a n ||| v)) j = (bitAt a j || (decide (j / 32 = n) && v.getLsbD (j % 32))) := by
  rw [bitAt_setIfInBounds _ _ _ _ hn]
  by_cases h : j / 32 = n
  · simp only [BitVec.getLsbD_or, bitAt, h, if_true, decide_true, Bool.true_and]
  · simp [h]

/-- Writing ones to a clear window clears those entries. -/
theorem bitAt_andNot {k : Nat} (a : Vector Word k) (n : Nat) (v : Word) (hn : n < k) (j : Nat) :
    bitAt (a.setIfInBounds n (wordAt a n &&& ~~~v)) j = (bitAt a j && !(decide (j / 32 = n) && v.getLsbD (j % 32))) := by
  rw [bitAt_setIfInBounds _ _ _ _ hn]
  by_cases h : j / 32 = n
  · have hm : j % 32 < 32 := Nat.mod_lt _ (by omega)
    simp only [BitVec.getLsbD_and, BitVec.getLsbD_not, bitAt, h, hm, if_true, decide_true, Bool.true_and]
  · simp [h]

/-- The word a field write of 1 puts into a clear window, which reads as zero: the one bit. -/
theorem fieldPut_one_zero (id i : Nat) : (fieldPut wlogBit id 0#32 1#32).getLsbD i = (decide (i = id % 32)) := by
  by_cases hi : i < 32
  · rw [fieldPut_bit _ _ _ _ hi]
    by_cases h : i = id % 32 <;> simp [h]
  · have : i ≠ id % 32 := by omega
    simp [BitVec.getLsbD_of_ge _ _ (Nat.le_of_not_lt hi), this]

end Sys2Proof.Machine
end

