-- ==== Sys2Proof/Laws/PerInstr.lean ====
section
/-!
SUPPORT. Statements for all commands, made command by command: the word of a well-formed command has the bits its row of
spec/opcode_table.json fixes.
-/

namespace Sys2Proof.Laws

/-- The `mask` and the `match` of a command's row of spec/opcode_table.json. -/
def tableRow : Instr → Word × Word
  | .rd32 _ _ => (0xFF7E0000#32, 0x01000000#32)
  | .wr32 _ _ _ => (0xFF7E0000#32, 0x02000000#32)
  | .srrd _ => (0xFFFFFFE0#32, 0x03000000#32)
  | .srwr _ _ => (0xFFFFFFE0#32, 0x04000000#32)
  | .frd _ _ _ _ => (0xFF0E0000#32, 0x08000000#32)
  | .fwr _ _ _ _ _ => (0xFF0E0000#32, 0x09000000#32)
  | .dInit => (0xFFFFFFFF#32, 0x10000000#32)
  | .dSetGrp _ _ => (0xFFFEFC00#32, 0x11000000#32)
  | .dSetEn _ => (0xFFFFFC00#32, 0x12000000#32)
  | .dClrEn _ => (0xFFFFFC00#32, 0x13000000#32)
  | .dSetPri _ _ => (0xFF00FC00#32, 0x14000000#32)
  | .dSetTgt _ _ => (0xFF00FC00#32, 0x15000000#32)
  | .dSetCfg _ _ => (0xFF00FC00#32, 0x16000000#32)
  | .dSetPend _ => (0xFFFFFC00#32, 0x17000000#32)
  | .dClrPend _ => (0xFFFFFC00#32, 0x18000000#32)
  | .dGetPend _ => (0xFFFFFC00#32, 0x19000000#32)
  | .rInit _ => (0xFFFFFFFF#32, 0x20000000#32)
  | .rSetGrp _ _ => (0xFFFEFC00#32, 0x21000000#32)
  | .rSetEn _ => (0xFFFFFC00#32, 0x22000000#32)
  | .rClrEn _ => (0xFFFFFC00#32, 0x23000000#32)
  | .rSetPri _ _ => (0xFF00FC00#32, 0x24000000#32)
  | .rGetPri _ => (0xFFFFFC00#32, 0x25000000#32)
  | .rSetCfg _ _ => (0xFF00FC00#32, 0x26000000#32)
  | .rSetPend _ => (0xFFFFFC00#32, 0x27000000#32)
  | .rClrPend _ => (0xFFFFFC00#32, 0x28000000#32)
  | .rGetPend _ => (0xFFFFFC00#32, 0x29000000#32)
  | .cInit => (0xFFFFFFFF#32, 0x30000000#32)
  | .cSre => (0xFFFFFFFF#32, 0x31000000#32)
  | .cPmr => (0xFFFFFFFF#32, 0x32000000#32)
  | .cGrp1en => (0xFFFFFFFF#32, 0x33000000#32)
  | .cUnmask => (0xFFFFFFFF#32, 0x34000000#32)
  | .cAck => (0xFFFFFFFF#32, 0x35000000#32)
  | .cEoi => (0xFFFFFFFF#32, 0x36000000#32)
  | .vInstall _ => (0xFFFFFFFF#32, 0x40000000#32)
  | .vCurel => (0xFFFFFFFF#32, 0x41000000#32)
  | .tArm => (0xFFFFFFFF#32, 0x50000000#32)
  | .tHandle => (0xFFFFFFFF#32, 0x51000000#32)
  | .oStep => (0xFFFFFFFF#32, 0x60000000#32)
  | .oPoll => (0xFFFFFFFF#32, 0x61000000#32)

/-! ## The fixed bits of each format -/

theorem fixed_M (op : BitVec 8) (b : Bank) (off : BitVec 17) :
    wordM op b off &&& 0xFF7E0000#32 = op.setWidth 32 <<< 24 := by
  cases b <;> (apply BitVec.eq_of_getLsbD_eq; intro i hi; rw [BitVec.getLsbD_and, wordM_bit]; interval_cases i <;> simp [Bank.bit])

theorem fixed_S (op : BitVec 8) (r : SysReg) : wordS op r &&& 0xFFFFFFE0#32 = op.setWidth 32 <<< 24 := by
  apply BitVec.eq_of_getLsbD_eq; intro i hi; rw [BitVec.getLsbD_and, wordS_bit]; interval_cases i <;> simp

theorem fixed_F (op : BitVec 8) (b : Bank) (w : BitVec 3) (base : BitVec 17) :
    wordF op b w base &&& 0xFF0E0000#32 = op.setWidth 32 <<< 24 := by
  cases b <;> (apply BitVec.eq_of_getLsbD_eq; intro i hi; rw [BitVec.getLsbD_and, wordF_bit]; interval_cases i <;> simp [Bank.bit])

theorem fixed_IV (op v : BitVec 8) (id : BitVec 10) : wordI op v id &&& 0xFF00FC00#32 = op.setWidth 32 <<< 24 := by
  apply BitVec.eq_of_getLsbD_eq; intro i hi; rw [BitVec.getLsbD_and, wordI_bit]; interval_cases i <;> simp

theorem fixed_I (op : BitVec 8) (id : BitVec 10) : wordI op 0#8 id &&& 0xFFFFFC00#32 = op.setWidth 32 <<< 24 := by
  apply BitVec.eq_of_getLsbD_eq; intro i hi; rw [BitVec.getLsbD_and, wordI_bit]; interval_cases i <;> simp

theorem fixed_IG (op v : BitVec 8) (id : BitVec 10) (h : groupLegal v = true) :
    wordI op v id &&& 0xFFFEFC00#32 = op.setWidth 32 <<< 24 := by
  have hv : v = 0#8 ∨ v = 1#8 := by
    have h1 : v.toNat ≤ 1 := by simpa [groupLegal] using h
    rcases Nat.le_one_iff_eq_zero_or_eq_one.mp h1 with h2 | h2
    · exact Or.inl (BitVec.eq_of_toNat_eq h2)
    · exact Or.inr (BitVec.eq_of_toNat_eq h2)
  rcases hv with rfl | rfl <;>
    (apply BitVec.eq_of_getLsbD_eq; intro i hi; rw [BitVec.getLsbD_and, wordI_bit]; interval_cases i <;> simp)

/-- Under the mask of its row, the word of a well-formed command is the match of its row. -/
def EncodesItsRow.Statement (i : Instr) : Prop :=
  i.wellFormed = true → (encode i).cw &&& (tableRow i).1 = (tableRow i).2

theorem EncodesItsRow.rd32 (bank : Bank) (off : BitVec 17) :
    EncodesItsRow.Statement (.rd32 bank off) := fun _ => fixed_M _ bank off
theorem EncodesItsRow.wr32 (bank : Bank) (off : BitVec 17) (value : Word) :
    EncodesItsRow.Statement (.wr32 bank off value) := fun _ => fixed_M _ bank off
theorem EncodesItsRow.srrd (reg : SysReg) : EncodesItsRow.Statement (.srrd reg) := fun _ => fixed_S _ reg
theorem EncodesItsRow.srwr (reg : SysReg) (value : DWord) :
    EncodesItsRow.Statement (.srwr reg value) := fun _ => fixed_S _ reg
theorem EncodesItsRow.frd (bank : Bank) (wlog : BitVec 3) (base : BitVec 17) (index : Word) :
    EncodesItsRow.Statement (.frd bank wlog base index) := fun _ => fixed_F _ bank wlog base
theorem EncodesItsRow.fwr (bank : Bank) (wlog : BitVec 3) (base : BitVec 17) (index : Word) (value : BitVec 16) :
    EncodesItsRow.Statement (.fwr bank wlog base index value) := fun _ => fixed_F _ bank wlog base
theorem EncodesItsRow.dInit : EncodesItsRow.Statement .dInit := fun _ => rfl
theorem EncodesItsRow.dSetGrp (id : BitVec 10) (val : BitVec 8) :
    EncodesItsRow.Statement (.dSetGrp id val) := fun h => fixed_IG _ val id h
theorem EncodesItsRow.dSetEn (id : BitVec 10) : EncodesItsRow.Statement (.dSetEn id) := fun _ => fixed_I _ id
theorem EncodesItsRow.dClrEn (id : BitVec 10) : EncodesItsRow.Statement (.dClrEn id) := fun _ => fixed_I _ id
theorem EncodesItsRow.dSetPri (id : BitVec 10) (pri : BitVec 8) :
    EncodesItsRow.Statement (.dSetPri id pri) := fun _ => fixed_IV _ pri id
theorem EncodesItsRow.dSetTgt (id : BitVec 10) (cpu : BitVec 8) :
    EncodesItsRow.Statement (.dSetTgt id cpu) := fun _ => fixed_IV _ cpu id
theorem EncodesItsRow.dSetCfg (id : BitVec 10) (cfg : BitVec 8) :
    EncodesItsRow.Statement (.dSetCfg id cfg) := fun _ => fixed_IV _ cfg id
theorem EncodesItsRow.dSetPend (id : BitVec 10) : EncodesItsRow.Statement (.dSetPend id) := fun _ => fixed_I _ id
theorem EncodesItsRow.dClrPend (id : BitVec 10) : EncodesItsRow.Statement (.dClrPend id) := fun _ => fixed_I _ id
theorem EncodesItsRow.dGetPend (id : BitVec 10) : EncodesItsRow.Statement (.dGetPend id) := fun _ => fixed_I _ id
theorem EncodesItsRow.rInit (bound : Word) : EncodesItsRow.Statement (.rInit bound) :=
  fun _ => (by decide : wordN 0x20#8 &&& 0xFFFFFFFF#32 = 0x20000000#32)
theorem EncodesItsRow.rSetGrp (id : BitVec 10) (val : BitVec 8) :
    EncodesItsRow.Statement (.rSetGrp id val) := fun h => fixed_IG _ val id h
theorem EncodesItsRow.rSetEn (id : BitVec 10) : EncodesItsRow.Statement (.rSetEn id) := fun _ => fixed_I _ id
theorem EncodesItsRow.rClrEn (id : BitVec 10) : EncodesItsRow.Statement (.rClrEn id) := fun _ => fixed_I _ id
theorem EncodesItsRow.rSetPri (id : BitVec 10) (pri : BitVec 8) :
    EncodesItsRow.Statement (.rSetPri id pri) := fun _ => fixed_IV _ pri id
theorem EncodesItsRow.rGetPri (id : BitVec 10) : EncodesItsRow.Statement (.rGetPri id) := fun _ => fixed_I _ id
theorem EncodesItsRow.rSetCfg (id : BitVec 10) (cfg : BitVec 8) :
    EncodesItsRow.Statement (.rSetCfg id cfg) := fun _ => fixed_IV _ cfg id
theorem EncodesItsRow.rSetPend (id : BitVec 10) : EncodesItsRow.Statement (.rSetPend id) := fun _ => fixed_I _ id
theorem EncodesItsRow.rClrPend (id : BitVec 10) : EncodesItsRow.Statement (.rClrPend id) := fun _ => fixed_I _ id
theorem EncodesItsRow.rGetPend (id : BitVec 10) : EncodesItsRow.Statement (.rGetPend id) := fun _ => fixed_I _ id
theorem EncodesItsRow.cInit : EncodesItsRow.Statement .cInit := fun _ => rfl
theorem EncodesItsRow.cSre : EncodesItsRow.Statement .cSre := fun _ => rfl
theorem EncodesItsRow.cPmr : EncodesItsRow.Statement .cPmr := fun _ => rfl
theorem EncodesItsRow.cGrp1en : EncodesItsRow.Statement .cGrp1en := fun _ => rfl
theorem EncodesItsRow.cUnmask : EncodesItsRow.Statement .cUnmask := fun _ => rfl
theorem EncodesItsRow.cAck : EncodesItsRow.Statement .cAck := fun _ => rfl
theorem EncodesItsRow.cEoi : EncodesItsRow.Statement .cEoi := fun _ => rfl
theorem EncodesItsRow.vInstall (addr : DWord) : EncodesItsRow.Statement (.vInstall addr) :=
  fun _ => (by decide : wordN 0x40#8 &&& 0xFFFFFFFF#32 = 0x40000000#32)
theorem EncodesItsRow.vCurel : EncodesItsRow.Statement .vCurel := fun _ => rfl
theorem EncodesItsRow.tArm : EncodesItsRow.Statement .tArm := fun _ => rfl
theorem EncodesItsRow.tHandle : EncodesItsRow.Statement .tHandle := fun _ => rfl
theorem EncodesItsRow.oStep : EncodesItsRow.Statement .oStep := fun _ => rfl
theorem EncodesItsRow.oPoll : EncodesItsRow.Statement .oPoll := fun _ => rfl

end Sys2Proof.Laws
end

