-- ==== Sys2Proof/Laws/Steps.lean ====
section
/-!
SUPPORT. What one step of each agent, and one step of the block, can do, said once. A claim about every step cites
`step_ok` and then `agentStep_ok`; the program's commands come from `exec_cases` (Commands.lean).
-/

namespace Sys2Proof.Machine

/-! ## Around a step -/

/-- Edge capture writes pending latches and nothing else (60_exceptions.md R303). -/
theorem edgeCapture_frame (a s : State) : ∃ d r, edgeCapture a s =
    { s with dist.arr.platch := d, redist.arr.platch := r } := by
  unfold edgeCapture
  dsimp only
  split
  · generalize bankOf s timerId = b
    cases b
    · exact ⟨_, s.redist.arr.platch, rfl⟩
    · exact ⟨s.dist.arr.platch, _, rfl⟩
  · exact ⟨s.dist.arr.platch, s.redist.arr.platch, rfl⟩

/-- A step that goes on: no fault before it, a step of the agent, edge capture, and no Group 0 interrupt in the
delivery position. -/
theorem step_ok {s t : State} (h : step s = .next t) :
    s.fault = none ∧ ∃ u, agentStep (nextEvent s) (beginStep s) = .next u ∧ t = edgeCapture (beginStep s) u ∧
      group0InDelivery t = false := by
  unfold step at h
  split at h
  · simp at h
  · rename_i hf
    refine ⟨hf, ?_⟩
    unfold settleOutcome at h
    split at h
    · rename_i u hu
      exact ⟨u, hu, settle_next h⟩
    · simp at h
    · simp at h

/-! ## One step of each agent -/

/-- What a step of `MAIN` does: nothing, or one transaction of the command in flight or presented, or the answer to a
word that spells no command. The state before it differs from `s` only in `x` and `pc` (60_exceptions.md R324) and in
what is still to be presented. -/
theorem mainStep_ok {pe : Option PeRegs} {s u : State} (h : mainStep pe s = .next u) :
    u = s ∨ ∃ x pc cs, (∃ i, exec i { s with pe.x := x, pe.pc := pc, env.cmdIn := cs } = .next u) ∨
      u = illegalWord { s with pe.x := x, pe.pc := pc, env.cmdIn := cs } := by
  have ha : ∀ s : State, ∃ x pc, applyPe pe s = { s with pe.x := x, pe.pc := pc } := by
    intro s
    cases pe with
    | none => exact ⟨s.pe.x, s.pe.pc, rfl⟩
    | some r => exact ⟨r.x, r.pc, rfl⟩
  unfold mainStep at h
  split at h
  · obtain ⟨x, pc, he⟩ := ha s
    rw [he] at h
    exact Or.inr ⟨x, pc, s.env.cmdIn, Or.inl ⟨_, h⟩⟩
  · split at h
    · left; simpa using h.symm
    · rename_i rest _
      obtain ⟨x, pc, he⟩ := ha { s with env.cmdIn := rest }
      rw [he] at h
      split at h
      · exact Or.inr ⟨x, pc, rest, Or.inl ⟨_, h⟩⟩
      · exact Or.inr ⟨x, pc, rest, Or.inr (by simpa using h.symm)⟩

theorem tHandle_first (h : DWord) (s : State) : progOf tHandleTxs 0 h s =
    if s.pe.pstate.el = 0#2 then .fault .el0
    else .hold 0#64 { s with timer.cval := s.timer.cnt + s.seq.tDelta.signExtend 64 } := by
  have hd : (s.seq.tDelta.setWidth 64).setWidth 32 = s.seq.tDelta := by
    apply BitVec.eq_of_toNat_eq
    simp only [BitVec.toNat_setWidth]
    omega
  simp only [progOf, tHandleTxs, List.getD_cons_zero, sysWriteTx, sysWrite_tval]
  by_cases he : s.pe.pstate.el = 0#2
  · simp only [he, if_true]
  · simp only [he, if_false, goOn, sysStore, hd]

theorem tHandle_second (h : DWord) (s : State) : progOf tHandleTxs 1 h s =
    if s.pe.pstate.el = 0#2 then .fault .el0 else .ret .ok s.timer.cval { s with seq.tDiag := s.timer.cval } := by
  simp only [progOf, tHandleTxs, List.getD_cons_zero, List.getD_cons_succ, sysReadTx, sysRead_cval]
  by_cases he : s.pe.pstate.el = 0#2 <;> simp only [he, if_true, if_false]

theorem tHandle_past (n : Nat) (h : DWord) (s : State) : progOf tHandleTxs (n + 2) h s = .ret .ok 0#64 s := rfl

/-- What a step of `HANDLER` inside T.HANDLE does: the compare value is moved, or the command ends. -/
theorem handleStep_ok {s u : State} (h : handleStep s = .next u) :
    (u = { s with
        timer.cval := s.timer.cnt + s.seq.tDelta.signExtend 64
        seq.handlerCmd := some { cmd := .tHandle, index := 1, held := 0#64 } } ∧
      ∀ m, s.seq.handlerCmd = some m → m.index = 0) ∨
    (∃ d m, s.seq.handlerCmd = some m ∧ m.index ≠ 0 ∧
      u = { s with seq.tDiag := d, seq.handlerCmd := none, seq.disp := .inRoutine .irq 4 }) := by
  unfold handleStep at h
  by_cases he : s.pe.pstate.el = 0#2
  · rcases hc : s.seq.handlerCmd with _ | ⟨c, _ | _ | n, v⟩ <;>
      simp only [hc, Nat.zero_add, tHandle_first, tHandle_second, tHandle_past, he, if_true] at h
    · simp at h
    · simp at h
    · simp at h
    · exact Or.inr ⟨s.seq.tDiag, _, rfl, by simp, by simpa using h.symm⟩
  · rcases hc : s.seq.handlerCmd with _ | ⟨c, _ | _ | n, v⟩ <;>
      simp only [hc, Nat.zero_add, tHandle_first, tHandle_second, tHandle_past, he, if_false] at h
    · exact Or.inl ⟨by simpa using h.symm, by simp⟩
    · exact Or.inl ⟨by simpa using h.symm, by rintro m ⟨⟩; rfl⟩
    · exact Or.inr ⟨_, _, rfl, by simp, by simpa using h.symm⟩
    · exact Or.inr ⟨s.seq.tDiag, _, rfl, by simp, by simpa using h.symm⟩

/-- What a step of `HANDLER` does: nothing, one of the two transactions of T.HANDLE, or the acknowledge. -/
theorem handlerStep_ok {s u : State} (h : handlerStep s = .next u) :
    (u = s ∧ s.seq.disp ≠ .inRoutine .irq 3 ∧ s.seq.disp ≠ .inRoutine .irq 4) ∨
    (s.seq.disp = .inRoutine .irq 3 ∧ handleStep s = .next u) ∨
    (s.seq.disp = .inRoutine .irq 4 ∧ u = ackStep s) := by
  unfold handlerStep at h
  split at h
  · exact Or.inr (Or.inl ⟨‹_›, h⟩)
  · exact Or.inr (Or.inr ⟨‹_›, by simpa using h.symm⟩)
  · exact Or.inl ⟨by simpa using h.symm, ‹_›, ‹_›⟩

/-- What a step of `DISPATCH` does: nothing, `IRQ-ENTER`, `FRAME-SAVE` or `IRQ-RETURN`. -/
theorem dispatchStep_ok {s u : State} (h : dispatchStep s = .next u) :
    (u = s ∧ (s.seq.disp = .idle → takeIrq s = false) ∧ s.seq.disp ≠ .entered .irq ∧
      s.seq.disp ≠ .inRoutine .irq 5) ∨
    (s.seq.disp = .idle ∧ takeIrq s = true ∧ irqEnter s = .ok u) ∨
    (s.seq.disp = .entered .irq ∧ u = frameSave s) ∨
    (s.seq.disp = .inRoutine .irq 5 ∧ u = irqReturn s) := by
  unfold dispatchStep at h
  split at h
  · rename_i hd
    split at h
    · rename_i ht
      refine Or.inr (Or.inl ⟨hd, ht, ?_⟩)
      unfold outcomeOf at h
      split at h
      · rename_i t he; simp at h; rw [he, h]
      · simp at h
    · rename_i ht
      exact Or.inl ⟨by simpa using h.symm, fun _ => by simpa using ht, by rw [hd]; simp, by rw [hd]; simp⟩
  · exact Or.inr (Or.inr (Or.inl ⟨‹_›, by simpa using h.symm⟩))
  · exact Or.inr (Or.inr (Or.inr ⟨‹_›, by simpa using h.symm⟩))
  · rename_i h1 h2 h3
    exact Or.inl ⟨by simpa using h.symm, fun h => absurd h h1, h2, h3⟩

/-- A step of the thread (`MAIN`, `HANDLER`, `DISPATCH`) is taken only while it runs; `MAIN`'s only outside a trap. -/
theorem agentStep_ok {e : Event} {s u : State} (h : agentStep e s = .next u) :
    u = s ∨
    (∃ pe, e = .main pe ∧ s.halt = none ∧ s.seq.disp = .idle ∧ mainStep pe s = .next u) ∨
    (e = .handler ∧ s.halt = none ∧ handlerStep s = .next u) ∨
    (e = .dispatch ∧ s.halt = none ∧ dispatchStep s = .next u) ∨
    (e = .tick ∧ u = tickStep s) ∨
    (e = .wake ∧ s.redist.ps = false ∧ s.redist.ca = true ∧ u = { s with redist.ca := false }) ∨
    (e = .reset ∧ u = resetStep s) := by
  have hn : threadRuns s = true → s.halt = none := fun h => by simpa [threadRuns] using h
  cases e with
  | main pe =>
    simp only [agentStep] at h
    split at h
    · rename_i hc
      simp only [Bool.and_eq_true, decide_eq_true_eq] at hc
      exact Or.inr (Or.inl ⟨pe, rfl, hn hc.1, hc.2, h⟩)
    · exact Or.inl (by simpa using h.symm)
  | handler =>
    simp only [agentStep] at h
    split at h
    · exact Or.inr (Or.inr (Or.inl ⟨rfl, hn ‹_›, h⟩))
    · exact Or.inl (by simpa using h.symm)
  | dispatch =>
    simp only [agentStep] at h
    split at h
    · exact Or.inr (Or.inr (Or.inr (Or.inl ⟨rfl, hn ‹_›, h⟩)))
    · exact Or.inl (by simpa using h.symm)
  | tick => exact Or.inr (Or.inr (Or.inr (Or.inr (Or.inl ⟨rfl, by simpa [agentStep] using h.symm⟩))))
  | wake =>
    simp only [agentStep, wakeStep] at h
    split at h
    · rename_i hc
      simp only [Bool.and_eq_true, Bool.not_eq_true'] at hc
      exact Or.inr (Or.inr (Or.inr (Or.inr (Or.inr (Or.inl ⟨rfl, hc.1, hc.2, by simpa using h.symm⟩)))))
    · exact Or.inl (by simpa using h.symm)
  | reset => exact Or.inr (Or.inr (Or.inr (Or.inr (Or.inr (Or.inr ⟨rfl, by simpa [agentStep] using h.symm⟩)))))

end Sys2Proof.Machine
end

