-- ==== Sys2Proof/Tests/Slice0.lean ====
section
/-!
SUPPORT. The model's own tests. Expected values come from the worked vectors of 95_test_vectors.md (their ids stand in
the comments) or from the encoding tables of 30_encoding.md; then, for every statement with hypotheses, a state and
operands that meet them.
-/

namespace Sys2Proof.Tests

open Sys2Proof.Machine Sys2Proof.Claims

/-! ## Helpers: start states and short runs -/

/-- Awake: reset, and the wake handshake done. -/
def awakeState : State := { State.reset with redist := { State.reset.redist with ps := false, ca := false } }

/-- Ready: awake, the vector base installed, the distributor and the CPU interface open, the core unmasked. -/
def ready : State :=
  { awakeState with
    pe := { State.reset.pe with vbar := 0x80000#64, vbarValid := true, pstate.i := false }
    dist.ctlr := { enG0 := true, enG1 := true, are := true, ds := true }
    cpu := { State.reset.cpu with sre := true, grp1en := true, pmr := 0xFF#8 } }

/-- Ready, with private interrupt 5 in Group 1, enabled, latched, at priority 0. -/
def signalled : State :=
  { ready with redist.arr := { ready.redist.arr with grp := #v[0x20#32], en := #v[0x20#32], platch := #v[0x20#32] } }

/-- In the interrupt routine of interrupt 5, at place `d`, masks set. -/
def inIrq (d : Disp) (frame : Bool) : State :=
  { signalled with
    pe.pstate.i := true
    cpu.curId := some 5
    seq := { signalled.seq with disp := d, frameValid := frame } }

/-- The state after an outcome that goes on. -/
def after (o : Host.Outcome State Fault Refusal) : Option State :=
  match o with
  | .next t => some t
  | _ => none

/-- The fault of an outcome. -/
def faultOf (o : Host.Outcome State Fault Refusal) : Option Fault :=
  match o with
  | .fault r => some r
  | _ => none

/-- `n` steps of the agents of a schedule. -/
def play (es : List Event) (s : State) : Option State := after (steps es.length { s with env.sched := es })

/-- A descriptor presented, and `n` steps of `MAIN`. -/
def give (cw : Word) (data : DWord) (n : Nat) (s : State) : Option State :=
  play (List.replicate n (.main none)) { s with env.cmdIn := [⟨cw, data⟩] }

/-- The fault of the `n`-th step of `MAIN` on a descriptor. -/
def giveFault (cw : Word) (data : DWord) (n : Nat) (s : State) : Option Fault :=
  faultOf (steps n { s with env.cmdIn := [⟨cw, data⟩], env.sched := List.replicate n (.main none) })

/-- The response. -/
def rspOf (o : Option State) : Option (BitVec 4 × DWord) := o.map fun t => (t.rsp.status, t.rsp.rdata)

/-- An outcome that goes on. -/
theorem goes_on {o : Host.Outcome State Fault Refusal} (h : (after o).isSome = true) : ∃ t, o = .next t := by
  cases o with
  | next t => exact ⟨t, rfl⟩
  | fault r => simp [after] at h
  | refused r => simp [after] at h

/-! ## WellFormed refuses an ill-formed term, for each of its checks -/

theorem test_wf_frd_wlog : (Instr.frd .D 5#3 0#17 0#32).wellFormed = false := by decide
theorem test_wf_fwr_wlog : (Instr.fwr .R 7#3 0#17 0#32 0#16).wellFormed = false := by decide
theorem test_wf_dSetGrp : (Instr.dSetGrp 0#10 2#8).wellFormed = false := by decide
theorem test_wf_rSetGrp : (Instr.rSetGrp 0#10 0xFF#8).wellFormed = false := by decide

/-! ## Decoding: every command's word, written out from 30_encoding.md R111 to R118 -/

theorem test_decode_rd32 : decode ⟨0x0181FFFC#32, 0#64⟩ = .ok (.rd32 .R 0x1FFFC#17) ∧
    decode ⟨0x01810084#32, 0#64⟩ = .ok (.rd32 .R 0x10084#17) := by decide
theorem test_decode_wr32 : decode ⟨0x0200041C#32, 0x11223344#64⟩ = .ok (.wr32 .D 0x41C#17 0x11223344#32) := by decide
theorem test_decode_srrd : decode ⟨0x0300000C#32, 0#64⟩ = .ok (.srrd .currentEL) := by decide
theorem test_decode_srwr : decode ⟨0x04000008#32, 0x3E8#64⟩ = .ok (.srwr .cntpTval 0x3E8#64) := by decide
theorem test_decode_frd : decode ⟨0x08B10400#32, 0x1E#64⟩ = .ok (.frd .R 3#3 0x10400#17 30#32) := by decide
theorem test_decode_fwr :
    decode ⟨0x09100C00#32, 0x000000020000001E#64⟩ = .ok (.fwr .D 1#3 0xC00#17 30#32 2#16) := by decide
theorem test_decode_dInit : decode ⟨0x10000000#32, 0#64⟩ = .ok .dInit := by decide
theorem test_decode_dSetGrp : decode ⟨0x1101001E#32, 0#64⟩ = .ok (.dSetGrp 30#10 1#8) := by decide
theorem test_decode_dSetEn : decode ⟨0x1200003F#32, 0#64⟩ = .ok (.dSetEn 63#10) := by decide
theorem test_decode_dClrEn : decode ⟨0x1300003F#32, 0#64⟩ = .ok (.dClrEn 63#10) := by decide
theorem test_decode_dSetPri : decode ⟨0x14A0001E#32, 0#64⟩ = .ok (.dSetPri 30#10 0xA0#8) := by decide
theorem test_decode_dSetTgt : decode ⟨0x15030021#32, 0#64⟩ = .ok (.dSetTgt 33#10 3#8) := by decide
theorem test_decode_dSetCfg : decode ⟨0x1601002F#32, 0#64⟩ = .ok (.dSetCfg 47#10 1#8) := by decide
theorem test_decode_dSetPend : decode ⟨0x17000028#32, 0#64⟩ = .ok (.dSetPend 40#10) := by decide
theorem test_decode_dClrPend : decode ⟨0x18000028#32, 0#64⟩ = .ok (.dClrPend 40#10) := by decide
theorem test_decode_dGetPend : decode ⟨0x19000028#32, 0#64⟩ = .ok (.dGetPend 40#10) := by decide
theorem test_decode_rInit : decode ⟨0x20000000#32, 0xFFFFFFFF00000003#64⟩ = .ok (.rInit 3#32) := by decide
theorem test_decode_rSetGrp : decode ⟨0x2101001E#32, 0#64⟩ = .ok (.rSetGrp 30#10 1#8) := by decide
theorem test_decode_rSetEn : decode ⟨0x2200001F#32, 0#64⟩ = .ok (.rSetEn 31#10) := by decide
theorem test_decode_rClrEn : decode ⟨0x2300001E#32, 0#64⟩ = .ok (.rClrEn 30#10) := by decide
theorem test_decode_rSetPri : decode ⟨0x2480001E#32, 0#64⟩ = .ok (.rSetPri 30#10 0x80#8) := by decide
theorem test_decode_rGetPri : decode ⟨0x25000020#32, 0#64⟩ = .ok (.rGetPri 32#10) := by decide
theorem test_decode_rSetCfg : decode ⟨0x2603000F#32, 0#64⟩ = .ok (.rSetCfg 15#10 3#8) := by decide
theorem test_decode_rSetPend : decode ⟨0x27000003#32, 0#64⟩ = .ok (.rSetPend 3#10) := by decide
theorem test_decode_rClrPend : decode ⟨0x28000003#32, 0#64⟩ = .ok (.rClrPend 3#10) := by decide
theorem test_decode_rGetPend : decode ⟨0x29000003#32, 0#64⟩ = .ok (.rGetPend 3#10) := by decide
theorem test_decode_cInit : decode ⟨0x30000000#32, 0#64⟩ = .ok .cInit := by decide
theorem test_decode_cSre : decode ⟨0x31000000#32, 0#64⟩ = .ok .cSre := by decide
theorem test_decode_cPmr : decode ⟨0x32000000#32, 0#64⟩ = .ok .cPmr := by decide
theorem test_decode_cGrp1en : decode ⟨0x33000000#32, 0#64⟩ = .ok .cGrp1en := by decide
theorem test_decode_cUnmask : decode ⟨0x34000000#32, 0#64⟩ = .ok .cUnmask := by decide
theorem test_decode_cAck : decode ⟨0x35000000#32, 0#64⟩ = .ok .cAck := by decide
theorem test_decode_cEoi : decode ⟨0x36000000#32, 0#64⟩ = .ok .cEoi := by decide
theorem test_decode_vInstall : decode ⟨0x40000000#32, 0x80000#64⟩ = .ok (.vInstall 0x80000#64) := by decide
theorem test_decode_vCurel : decode ⟨0x41000000#32, 0#64⟩ = .ok .vCurel := by decide
theorem test_decode_tArm : decode ⟨0x50000000#32, 0#64⟩ = .ok .tArm := by decide
theorem test_decode_tHandle : decode ⟨0x51000000#32, 0#64⟩ = .ok .tHandle := by decide
theorem test_decode_oStep : decode ⟨0x60000000#32, 0#64⟩ = .ok .oStep := by decide
theorem test_decode_oPoll : decode ⟨0x61000000#32, 0#64⟩ = .ok .oPoll := by decide

/-- The refusals, each with its reason (vectors E of 95_test_vectors.md). -/
theorem test_decode_refusals :
    decode ⟨0x05000000#32, 0#64⟩ = .error (.reservedOpcode 5#8) ∧
    decode ⟨0x10000001#32, 0#64⟩ = .error .mustBeZero ∧
    decode ⟨0x12010021#32, 0#64⟩ = .error .valNotZero ∧
    decode ⟨0x1102001E#32, 0#64⟩ = .error .groupNotBit ∧
    decode ⟨0x08500400#32, 0#64⟩ = .error .reservedWlog ∧
    decode ⟨0x0300000D#32, 0#64⟩ = .error .reservedSel := by decide

/-- Every system register's selector (30_encoding.md R118). -/
theorem test_selectors : (List.range 14).map (fun k => sysRegOfSel (BitVec.ofNat 5 k)) =
    [some .vbar, some .iccSre, some .iccIgrpen1, some .iccPmr, some .iccStatus, some .iccBpr, some .cntfrq,
     some .cntpCtl, some .cntpTval, some .cntpCval, some .cntpct, some .daif, some .currentEL, none] := by decide

/-! ## One command each -/

/-- T7. -/
theorem test_wr32 : (give 0x0200041C#32 0xA00000#64 1 State.reset).map
    (fun t => (t.rsp.status, (List.range 4).map fun k => priority t .D (28 + k))) =
    some (0#4, [0#8, 0#8, 0xA0#8, 0#8]) := by decide +kernel
/-- T8, T9: `D_CTLR` takes its enables only where `DS` was already 1. -/
theorem test_wr32_ctlr : (give 0x02000000#32 0x53#64 1 State.reset).map (fun t => ctlrWord t.dist.ctlr) = some 0x40#32 ∧
    (give 0x02000000#32 0#64 1 ready).map (fun t => ctlrWord t.dist.ctlr) = some 0x40#32 := by decide
/-- T11, T1. -/
theorem test_rd32 : rspOf (give 0x01800014#32 0#64 1 State.reset) = some (0#4, 6#64) ∧
    giveFault 0x01000002#32 0#64 1 State.reset = some .misaligned := by decide
/-- T4, T5, T16, T13. -/
theorem test_rd32_wr32_faults : giveFault 0x01000088#32 0#64 1 State.reset = some .unmapped ∧
    giveFault 0x01810084#32 0#64 1 State.reset = some .unmapped ∧
    giveFault 0x02810100#32 1#64 1 State.reset = some .asleep ∧
    giveFault 0x02800014#32 2#64 1 awakeState = some .reservedWrite := by decide
/-- S-3, S-11. -/
theorem test_srrd : rspOf (give 0x0300000B#32 0#64 1 State.reset) = some (0#4, 0x3C0#64) ∧
    rspOf (give 0x03000008#32 0#64 1 { State.reset with timer.cnt := 6003#64, timer.cval := 6000#64 }) =
      some (0#4, 0xFFFFFFFD#64) := by decide
/-- S-12, S-13, S-2. -/
theorem test_srwr : (give 0x04000008#32 0x80000000#64 1 { State.reset with timer.cnt := 6003#64 }).map
      (fun t => t.timer.cval) = some 0xFFFFFFFF80001773#64 ∧
    (give 0x04000008#32 0xFFFFFFFF00000010#64 1 { State.reset with timer.cnt := 6003#64 }).map
      (fun t => t.timer.cval) = some 6019#64 ∧
    giveFault 0x04000006#32 5#64 1 State.reset = some .reservedWrite := by decide
/-- S-17, S-18: a gated register traps; the trap needs a vector base. -/
theorem test_srrd_trap : giveFault 0x03000003#32 0#64 1 awakeState = some .noVector ∧
    (give 0x03000003#32 0#64 1 { awakeState with pe.vbar := 0x80000#64, pe.vbarValid := true }).map
      (fun t => (t.pe.elr, t.pe.spsr, t.pe.pc, t.halt)) =
      some (0x40001000#64, 0x3C5#64, 0x80200#64, some .syncException) := by decide
/-- S1: index 30 of the 8-bit window is byte 2 of its register. -/
theorem test_frd : rspOf (give 0x08300400#32 0x1E#64 1
    { State.reset with dist.arr.pri := State.reset.dist.arr.pri.setIfInBounds 7 0x11A03344#32 }) =
    some (0#4, 0xA0#64) := by decide +kernel
/-- S1, S2. -/
theorem test_fwr : (give 0x09300400#32 0x000001A00000001E#64 2
    { State.reset with dist.arr.pri := State.reset.dist.arr.pri.setIfInBounds 7 0x11223344#32 }).map
    (fun t => wordAt t.dist.arr.pri 7) = some 0x11A03344#32 := by decide +kernel
/-- DV1. -/
theorem test_dInit : (List.range 7).map (fun n => (give 0x10000000#32 0#64 n State.reset).map fun t =>
    ctlrWord t.dist.ctlr) =
    [some 0#32, some 0#32, some 0x40#32, some 0x40#32, some 0x43#32, some 0x43#32, some 0x53#32] := by decide +kernel
/-- DV2. -/
theorem test_dSetGrp : (give 0x1101001E#32 0#64 2 State.reset).map (fun t => wordAt t.dist.arr.grp 0) =
    some 0x40000000#32 := by decide
/-- DV8, DV9. -/
theorem test_dSetEn : (give 0x1200003F#32 0#64 2 State.reset).map (fun t => wordAt t.dist.arr.en 1) =
    some 0x80000000#32 ∧ rspOf (give 0x12000040#32 0#64 1 State.reset) = some (1#4, 0#64) := by decide
/-- S3: the other enables of the register stay. -/
theorem test_dClrEn : (give 0x1300003E#32 0#64 2
    { State.reset with dist.arr.en := State.reset.dist.arr.en.setIfInBounds 1 0x40000002#32 }).map
    (fun t => wordAt t.dist.arr.en 1) = some 0x2#32 := by decide
/-- DV5. -/
theorem test_dSetPri : (give 0x1410001F#32 0#64 2
    { State.reset with dist.arr.pri := State.reset.dist.arr.pri.setIfInBounds 7 0x00A00000#32 }).map
    (fun t => wordAt t.dist.arr.pri 7) = some 0x10A00000#32 := by decide +kernel
/-- DV6, DV10. -/
theorem test_dSetTgt : (give 0x1507001E#32 0#64 2
    { State.reset with dist.tgt := State.reset.dist.tgt.setIfInBounds 7 0x00010000#32 }).map
    (fun t => wordAt t.dist.tgt 7) = some 0x00810000#32 ∧
    rspOf (give 0x15080040#32 0#64 1 State.reset) = some (1#4, 0#64) := by decide +kernel
/-- DV7, S6. -/
theorem test_dSetCfg : (give 0x1601002F#32 0#64 2 State.reset).map (fun t => wordAt t.dist.arr.cfg 2) =
    some 0x40000000#32 ∧ rspOf (give 0x1604001E#32 0#64 1 State.reset) = some (1#4, 0#64) := by decide
/-- S4. -/
theorem test_dSetPend : (give 0x17000028#32 0#64 2 State.reset).map (fun t => wordAt t.dist.arr.platch 1) =
    some 0x100#32 := by decide
/-- S4: one latch is cleared, its neighbour stays. -/
theorem test_dClrPend : (give 0x18000028#32 0#64 2
    { State.reset with dist.arr.platch := State.reset.dist.arr.platch.setIfInBounds 1 0x300#32 }).map
    (fun t => wordAt t.dist.arr.platch 1) = some 0x200#32 := by decide
/-- S4. -/
theorem test_dGetPend : rspOf (give 0x19000028#32 0#64 1
    { State.reset with dist.arr.platch := State.reset.dist.arr.platch.setIfInBounds 1 0x100#32 }) =
    some (0#4, 1#64) := by decide
/-- S7.2, S7.3. -/
theorem test_rInit_timeout : rspOf (give 0x20000000#32 3#64 5 State.reset) = some (2#4, 3#64) ∧
    (give 0x20000000#32 0#64 2 State.reset).map (fun t => (t.rsp.status, t.rsp.rdata, wakerWord t.redist)) =
      some (2#4, 0#64, 4#32) := by decide +kernel
/-- S7.1: `WAKE` after the second poll. -/
theorem test_rInit_wake : rspOf (play [.main none, .main none, .main none, .main none, .wake, .main none]
    { State.reset with env.cmdIn := [⟨0x20000000#32, 3#64⟩] }) = some (0#4, 2#64) := by decide +kernel
/-- RV1. -/
theorem test_rSetGrp : (give 0x2101001E#32 0#64 2 awakeState).map (fun t => wordAt t.redist.arr.grp 0) =
    some 0x40000000#32 := by decide
/-- RV7, RV13. -/
theorem test_rSetEn : (give 0x2200001F#32 0#64 2
      { awakeState with redist.arr.en := #v[0x40000000#32] }).map (fun t => wordAt t.redist.arr.en 0) =
      some 0xC0000000#32 ∧ giveFault 0x2200001E#32 0#64 2 State.reset = some .asleep := by decide
/-- RV8. -/
theorem test_rClrEn : (give 0x2300001E#32 0#64 2
    { awakeState with redist.arr.en := #v[0xC0000000#32] }).map (fun t => wordAt t.redist.arr.en 0) =
    some 0x80000000#32 := by decide
/-- RV2, RV12. -/
theorem test_rSetPri : (give 0x2480001E#32 0#64 2 awakeState).map (fun t => wordAt t.redist.arr.pri 7) =
    some 0x00800000#32 ∧ giveFault 0x2401001E#32 0#64 2 State.reset = some .asleep := by decide
/-- RV3, RV4. -/
theorem test_rGetPri : rspOf (give 0x2500001E#32 0#64 1
      { State.reset with redist.arr.pri := State.reset.redist.arr.pri.setIfInBounds 7 0x00800000#32 }) =
      some (0#4, 0x80#64) ∧ rspOf (give 0x25000020#32 0#64 1 State.reset) = some (1#4, 0#64) := by decide
/-- RV6. -/
theorem test_rSetCfg : (give 0x2603000F#32 0#64 2 awakeState).map (fun t => wordAt t.redist.arr.cfg 0) =
    some 0xC0000000#32 := by decide
/-- S4 in bank R. -/
theorem test_rSetPend : (give 0x27000003#32 0#64 2 awakeState).map (fun t => wordAt t.redist.arr.platch 0) =
    some 8#32 := by decide
/-- S4 in bank R. -/
theorem test_rClrPend : (give 0x28000003#32 0#64 2
    { awakeState with redist.arr.platch := #v[0xC#32] }).map (fun t => wordAt t.redist.arr.platch 0) =
    some 4#32 := by decide
/-- RV11. -/
theorem test_rGetPend : rspOf (give 0x29000003#32 0#64 1 { State.reset with redist.arr.platch := #v[8#32] }) =
    some (0#4, 1#64) ∧ rspOf (give 0x2900001E#32 0#64 1 State.reset) = some (0#4, 0#64) := by decide
/-- CV4, CV3. -/
theorem test_cInit : (give 0x30000000#32 0#64 6 awakeState).map
      (fun t => (t.rsp.status, t.cpu.sre, t.cpu.pmr, t.cpu.grp1en, daifWord t.pe.pstate)) =
      some (0#4, true, 0xFF#8, true, 0x340#64) ∧
    (give 0x30000000#32 0#64 3 { awakeState with cfg.sreSticks := false }).map
      (fun t => (t.rsp.status, t.cpu.pmr, t.cpu.grp1en, t.pe.pstate.i)) = some (4#4, 0#8, false, true) := by decide +kernel
/-- CV1, CV2. -/
theorem test_cSre : (give 0x31000000#32 0#64 3 awakeState).map (fun t => (t.rsp.status, t.cpu.sre)) =
      some (0#4, true) ∧
    rspOf (give 0x31000000#32 0#64 3 { awakeState with cfg.sreSticks := false }) = some (4#4, 0#64) := by decide +kernel
/-- CV11. -/
theorem test_cPmr : (give 0x32000000#32 0#64 1 { ready with cpu.pmr := 0#8 }).map (fun t => t.cpu.pmr) =
    some 0xFF#8 := by decide
/-- CV9, CV10. -/
theorem test_cGrp1en : giveFault 0x33000000#32 0#64 1 awakeState = some .noVector ∧
    (give 0x33000000#32 0#64 1 { awakeState with pe.vbar := 0x80000#64, pe.vbarValid := true }).map
      (fun t => (t.halt, t.cpu.grp1en)) = some (some .syncException, false) := by decide
/-- CV8. -/
theorem test_cUnmask : (give 0x34000000#32 0#64 1 State.reset).map (fun t => daifWord t.pe.pstate) =
    some 0x340#64 := by decide
/-- CV6. -/
theorem test_cAck : rspOf (give 0x35000000#32 0#64 1 ready) = some (0#4, 1023#64) := by decide
/-- CV7. -/
theorem test_cEoi : rspOf (give 0x36000000#32 0#64 1 ready) = some (0#4, 0#64) := by decide
/-- V1, V6: the base is not validated. -/
theorem test_vInstall : (give 0x40000000#32 0x80400#64 1 State.reset).map
    (fun t => (t.rsp.status, t.pe.vbar, t.pe.vbarValid)) = some (0#4, 0x80400#64, true) := by decide
/-- V2, V3. -/
theorem test_vCurel : rspOf (give 0x41000000#32 0#64 1 State.reset) = some (0#4, 1#64) ∧
    giveFault 0x41000000#32 0#64 1 { State.reset with pe.pstate.el := 0#2 } = some .el0 := by decide
/-- TM1. -/
theorem test_tArm : (give 0x50000000#32 0#64 4 State.reset).map
    (fun t => (t.rsp.rdata, t.seq.tDelta, t.timer.cval, t.seq.tDiag, t.timer.enable, t.timer.imask)) =
    some (0x1770#64, 1000#32, 6000#64, 6000#64, true, false) := by decide
/-- TM5. -/
theorem test_tHandle : (give 0x51000000#32 0#64 2
    { State.reset with
      timer := { cnt := 6003#64, cval := 6000#64, enable := true, imask := false }, seq.tDelta := 1000#32 }).map
    (fun t => (t.rsp.rdata, t.timer.cval, t.seq.tDiag, timerLine t)) =
    some (0x1B5B#64, 7003#64, 7003#64, false) := by decide
/-- O2, O8. -/
theorem test_oStep : (give 0x60000000#32 0#64 1 State.reset).map
      (fun t => (t.rsp.status, t.rsp.rdata, t.seq.orch, t.pe.vbar)) =
      some (0#4, 1#64, .vectorInstalled, 0x80000#64) ∧
    rspOf (give 0x60000000#32 0#64 1 { ready with seq.orch := .running }) = some (5#4, 0#64) := by decide
/-- O1, O10. -/
theorem test_oPoll : rspOf (give 0x61000000#32 0#64 1 State.reset) = some (5#4, 0#64) ∧
    (give 0x61000000#32 0#64 1 { ready with seq.orch := .running, redist.arr.platch := #v[0x40000000#32] }).map
      (fun t => (t.rsp.status, t.rsp.rdata, t.seq.orch)) = some (3#4, 1#64, .failed .pending) := by decide

/-! ## The other agents -/

/-- V7: `IRQ-ENTER`. -/
theorem test_irq_enter : (play [.dispatch] signalled).map
    (fun t => (t.cpu.curId, t.pe.elr, t.pe.spsr, t.pe.pc, daifWord t.pe.pstate, t.seq.disp)) =
    some (some 5, 0x40001000#64, 0x345#64, 0x80280#64, 0x3C0#64, .entered .irq) := by decide +kernel
/-- V6: the base is not a multiple of 0x800. -/
theorem test_irq_no_vector :
    faultOf (step { signalled with pe.vbar := 0x80400#64, env.sched := [.dispatch] }) = some .noVector := by decide +kernel
/-- V9 and P2: the six steps of the interrupt give the context back, and the latch is consumed. -/
theorem test_irq_six_steps : (play [.dispatch, .dispatch, .handler, .handler, .handler, .dispatch] signalled).map
    (fun t => (t.seq.disp, t.pe.pc, t.pe.x[30], daifWord t.pe.pstate, latch t .R 5 || acked t 5)) =
    some (.idle, 0x40001000#64, 0x101E#64, 0x340#64, false) := by decide +kernel
/-- TM3, TM4: the line rises when the counter reaches the compare value. -/
theorem test_tick : (play [.tick] { State.reset with
      timer := { cnt := 5999#64, cval := 6000#64, enable := true, imask := false } }).map
    (fun t => (t.timer.cnt, timerLine t)) = some (6000#64, true) := by decide
/-- X1: priority `0xFF` never passes the mask `0xFF`; `0xFE` does. -/
theorem test_strict_mask :
    hppi { signalled with redist.arr.pri := Vector.replicate 8 0xFFFFFFFF#32 } = none ∧
    hppi { signalled with redist.arr.pri := Vector.replicate 8 0xFEFEFEFE#32 } = some 5 := by decide +kernel
/-- The reset event: asleep again, nothing enabled, the level kept. -/
theorem test_reset_event : (play [.reset] signalled).map
    (fun t => (wakerWord t.redist, enabled t .R 5, t.cpu.sre, t.pe.pstate.el, t.seq.orch)) =
    some (6#32, false, false, 1#2, .uninitialized) := by decide +kernel

/-! ## Hypotheses: for every statement that has some, a state and operands that meet them

Boundary values are named where a statement has ranges: with 64 IDs, register 1 of a 1-bit window, 15 of an 8-bit and 3
of a 2-bit one are the last of bank D, 0, 7 and 1 the last of bank R; IDs 63 and 31 are the last in range. -/

theorem test_hyp_DecodeInvertsEncode : (Instr.fwr .R 4#3 0x1FFFF#17 0xFFFFFFFF#32 0xFFFF#16).wellFormed = true ∧
    (Instr.dSetGrp 1023#10 1#8).wellFormed = true := by decide
theorem test_hyp_DecodedWordIsTheCommandsOwn :
    decode ⟨0x09B10400#32, 0x000001A00000001E#64⟩ = .ok (.fwr .R 3#3 0x10400#17 30#32 0x1A0#16) := by decide
/-- One illegal word of every format (vectors E), and a state that takes it up. -/
theorem test_hyp_IllegalWordsAnswerIllegal :
    (IllegalWord 0xFF000000#32 ∧ IllegalWord 0x10000001#32 ∧ IllegalWord 0x12010021#32 ∧ IllegalWord 0x1400041E#32 ∧
      IllegalWord 0x1102001E#32 ∧ IllegalWord 0x01020000#32 ∧ IllegalWord 0x0300000D#32 ∧ IllegalWord 0x08500400#32) ∧
    State.reset.fault = none ∧ State.reset.halt = none ∧ State.reset.seq.disp = .idle ∧
    State.reset.seq.mainCmd = none ∧ group0InDelivery State.reset = false := by
  refine ⟨?_, rfl, rfl, rfl, rfl, by decide⟩
  simp [IllegalWord, formatOf]
theorem test_hyp_OffsetSelectsTheTabledRegister :
    (0x1FFFC : Nat) < 2 ^ 17 ∧ (0x1FFFC : Nat) % 4 = 0 := by decide
theorem test_hyp_StepRunsTheDecodedCommand :
    let s := { State.reset with
      env := { State.reset.env with cmdIn := [⟨0x41000000#32, 0#64⟩], sched := [.main none] } }
    let t := inMid { s with env.cmdIn := [] } .dInit 1 0#64
    s.fault = none ∧ s.halt = none ∧ s.seq.disp = .idle ∧ s.seq.mainCmd = none ∧
    decode ⟨0x41000000#32, 0#64⟩ = .ok .vCurel ∧
    t.fault = none ∧ t.halt = none ∧ t.seq.disp = .idle ∧ t.env.sched = [.main none] ∧
    t.seq.mainCmd = some { cmd := .dInit, index := 1, held := 0#64 } := by
  exact ⟨rfl, rfl, rfl, rfl, by decide, rfl, rfl, rfl, rfl, rfl⟩
/-- A misaligned, an unmapped and a mapped offset. -/
theorem test_hyp_BankReadOutcome : State.reset.seq.mainCmd = none ∧ (0x1FFFF#17).toNat % 4 ≠ 0 ∧
    (0x88#17).toNat % 4 = 0 ∧ bankReg State.reset.nIds .D (0x88#17).toNat = none ∧
    (0x84#17).toNat % 4 = 0 ∧ bankReg State.reset.nIds .D (0x84#17).toNat = some (.grp 1) := by decide
/-- Also an offset of the SGI region, asleep and awake, and a write that faults. -/
theorem test_hyp_BankWriteOutcome : State.reset.seq.mainCmd = none ∧ awakeState.seq.mainCmd = none ∧
    (0x1FFFF#17).toNat % 4 ≠ 0 ∧ bankReg State.reset.nIds .R (0x10084#17).toNat = none ∧
    bankReg State.reset.nIds .R (0x10080#17).toNat = some (.grp 0) ∧ 0x10000 ≤ (0x10080#17).toNat ∧
    awake State.reset = false ∧ awake awakeState = true ∧
    (regWrite awakeState .R (.grp 0) 0#32).isOk = true ∧
    (regWrite awakeState .R .waker 2#32).isOk = false := by decide
theorem test_hyp_DistributorControlGating : State.reset.seq.mainCmd = none := rfl
theorem test_hyp_PlainWindowsStoreWhatIsWritten : awakeState.seq.mainCmd = none ∧
    1 < idCount awakeState .D / 32 ∧ 15 < idCount awakeState .D / 4 ∧ 3 < idCount awakeState .D / 16 ∧
    0 < idCount awakeState .R / 32 ∧ 7 < idCount awakeState .R / 4 ∧ 1 < idCount awakeState .R / 16 ∧
    15 < awakeState.cfg.nIds / 4 ∧ canWrite awakeState .D ∧ canWrite awakeState .R :=
  ⟨rfl, by decide, by decide, by decide, by decide, by decide, by decide, by decide, trivial, rfl⟩
theorem test_hyp_SetAndClearWindows : awakeState.seq.mainCmd = none ∧ 1 < idCount awakeState .D / 32 ∧
    0 < idCount awakeState .R / 32 ∧ canWrite awakeState .D ∧ canWrite awakeState .R :=
  ⟨rfl, by decide, by decide, trivial, rfl⟩
theorem test_hyp_WakerReadAndWrite : State.reset.seq.mainCmd = none ∧ awakeState.seq.mainCmd = none ∧
    (4#32).getLsbD 1 = false ∧ (6#32).getLsbD 1 = true ∧ State.reset.redist.ps = true ∧
    awakeState.redist.ps = false := by decide
theorem test_hyp_WritesWhileAsleepFault : State.reset.seq.mainCmd = none ∧ awake State.reset = false ∧
    State.reset.pe.pstate.el ≠ 0#2 ∧ 0x10000 ≤ (0x10080#17).toNat ∧ (0x10080#17).toNat % 4 = 0 ∧
    bankReg State.reset.nIds .R (0x10080#17).toNat ≠ none ∧ SysReg.iccBpr ∈ sleepRegs ∧
    bankReg State.reset.nIds .D (0x000#17).toNat = some .ctlr ∧ (31#10).toNat < 32 ∧ (1#8).toNat ≤ 1 ∧
    (3#8).toNat ≤ 3 ∧ SysReg.currentEL ∈ roRegs ∧ SysReg.currentEL ∉ gatedRegs ∧ State.reset.cpu.sre = false ∧
    SysReg.iccStatus ∈ gatedRegs ∧ ¬vectorReady State.reset ∧
    awake { State.reset with pe := { State.reset.pe with vbar := 0x80000#64, vbarValid := true } } = false ∧
    vectorReady { State.reset with pe := { State.reset.pe with vbar := 0x80000#64, vbarValid := true } } := by
  unfold vectorReady; decide
theorem test_hyp_SystemRegisterReads : State.reset.seq.mainCmd = none ∧ State.reset.pe.pstate.el ≠ 0#2 ∧
    State.reset.timer.enable = false ∧ ready.seq.mainCmd = none ∧ ready.pe.pstate.el ≠ 0#2 ∧ ready.cpu.sre = true ∧
    { State.reset with timer.enable := true }.timer.enable = true := by decide
theorem test_hyp_SystemRegisterWrites : ready.seq.mainCmd = none ∧ ready.pe.pstate.el ≠ 0#2 ∧
    ready.cpu.sre = true ∧ awake ready = true := by decide
theorem test_hyp_SystemRegisterTrapIsTaken :
    let s := { awakeState with pe.vbar := 0x80000#64, pe.vbarValid := true }
    s.seq.mainCmd = none ∧ s.pe.pstate.el ≠ 0#2 ∧ s.cpu.sre = false ∧ awake s = true ∧ vectorReady s ∧
    SysReg.iccPmr ∈ gatedRegs ∧ awakeState.seq.mainCmd = none ∧ awakeState.cpu.sre = false ∧
    ¬vectorReady awakeState := by
  refine ⟨rfl, by decide, rfl, rfl, ⟨rfl, by decide⟩, by decide, rfl, rfl, ?_⟩
  intro h
  exact absurd h.1 (by decide)
theorem test_hyp_LevelZeroFaults : let s := { State.reset with pe.pstate.el := 0#2 }
    s.seq.mainCmd = none ∧ s.pe.pstate.el = 0#2 := ⟨rfl, rfl⟩
theorem test_hyp_FieldGeometry : (4#3).toNat ≤ 4 ∧ (0#3).toNat ≤ 4 ∧ (2 : Nat) ^ 17 ≤ 2 ^ 17 := by decide
theorem test_hyp_FieldReadReturnsTheField : State.reset.seq.mainCmd = none ∧ (4#3).toNat ≤ 4 ∧
    (memRead State.reset .D (fieldOff 3#3 0x400 30)).isOk = true ∧
    (memRead State.reset .D (fieldOff 0#3 0x100 64)).isOk = false := by decide
theorem test_hyp_FieldWriteIsReadThenWrite : State.reset.seq.mainCmd = none ∧ (4#3).toNat ≤ 4 ∧
    (memRead State.reset .D (fieldOff 3#3 0x400 30)).isOk = true ∧
    (memRead State.reset .D (fieldOff 0#3 0x100 64)).isOk = false ∧
    (memWrite State.reset .D (fieldOff 3#3 0x400 30) 0#32).isOk = true ∧
    (memWrite State.reset .R (fieldOff 3#3 0x10400 30) 0#32).isOk = false := by decide
/-- The last field of a window and its neighbour in the same register. -/
theorem test_hyp_FieldWriteThenFieldRead : awakeState.seq.mainCmd = none ∧ canWrite awakeState .R ∧
    (3#3).toNat ≤ 4 ∧ (0x10400#17).toNat % 4 = 0 ∧
    bankReg awakeState.nIds .R (fieldOff 3#3 (0x10400#17).toNat (31#32).toNat) = some (.pri 7) ∧
    (30#32 ≠ 31#32) ∧
    bankReg awakeState.nIds .R (fieldOff 3#3 (0x10400#17).toNat (30#32).toNat) = some (.pri 7) := by
  refine ⟨rfl, rfl, ?_⟩
  decide
theorem test_hyp_DistributorInitOrder : State.reset.seq.mainCmd = none := rfl
theorem test_hyp_DistributorSetsOneEntry : State.reset.seq.mainCmd = none ∧ (63#10).toNat < State.reset.cfg.nIds ∧
    State.reset.cfg.nIds ≤ (64#10).toNat ∧ (1#8).toNat ≤ 1 ∧ (3#8).toNat ≤ 3 ∧ 3 < (4#8).toNat := by decide
theorem test_hyp_DistributorAddsATarget : State.reset.seq.mainCmd = none ∧ (63#10).toNat < State.reset.cfg.nIds ∧
    (7#8).toNat ≤ 7 ∧ 7 < (8#8).toNat ∧ State.reset.cfg.nIds ≤ (64#10).toNat := by decide
theorem test_hyp_EnableCommandsMoveOneBit : awakeState.seq.mainCmd = none ∧
    (63#10).toNat < awakeState.cfg.nIds ∧ awakeState.cfg.nIds ≤ (64#10).toNat ∧ (31#10).toNat < 32 ∧
    awake awakeState = true ∧ 32 ≤ (32#10).toNat := by decide
theorem test_hyp_RedistributorSetsOneEntry : awakeState.seq.mainCmd = none ∧ awake awakeState = true ∧
    (31#10).toNat < 32 ∧ 32 ≤ (32#10).toNat ∧ (1#8).toNat ≤ 1 ∧ (3#8).toNat ≤ 3 ∧ 3 < (4#8).toNat := by decide
theorem test_hyp_PendingCommands : awakeState.seq.mainCmd = none ∧ awake awakeState = true ∧
    (63#10).toNat < awakeState.cfg.nIds ∧ awakeState.cfg.nIds ≤ (64#10).toNat ∧ (31#10).toNat < 32 ∧
    32 ≤ (32#10).toNat := by decide
theorem test_hyp_WakeSequenceTransactions : State.reset.seq.mainCmd = none := rfl
theorem test_hyp_WakePollCounts : State.reset.seq.mainCmd = none ∧ State.reset.redist.ca = true ∧
    0 < (1#32).toNat := by decide
theorem test_hyp_WakeResponder :
    let s := { State.reset with redist.ps := false }
    let t := { awakeState with env.sched := [.tick] }
    (s.redist.ps = false ∧ s.redist.ca = true) ∧ ¬(awakeState.redist.ps = false ∧ awakeState.redist.ca = true) ∧
    awake t = true ∧ nextEvent t ≠ .reset ∧ ∃ u, step t = .next u :=
  ⟨⟨rfl, rfl⟩, by decide, rfl, by decide, goes_on (by decide)⟩
theorem test_hyp_CpuInterfaceSteps :
    let noSre := { awakeState with cfg.sreSticks := false }
    awakeState.seq.mainCmd = none ∧ awakeState.pe.pstate.el ≠ 0#2 ∧ awake awakeState = true ∧
    awakeState.cfg.sreSticks = true ∧ noSre.cfg.sreSticks = false ∧ noSre.cpu.sre = false ∧ awake noSre = true ∧
    ready.cpu.sre = true ∧ awake ready = true ∧ awake State.reset = false := by decide
theorem test_hyp_CpuInterfaceInit :
    let noSre := { awakeState with cfg.sreSticks := false }
    awakeState.seq.mainCmd = none ∧ awakeState.pe.pstate.el ≠ 0#2 ∧ awake awakeState = true ∧
    awakeState.cfg.sreSticks = true ∧ awake noSre = true ∧ noSre.cfg.sreSticks = false ∧
    noSre.cpu.sre = false := by decide
/-- No run has a current interrupt while `MAIN` steps; the statement holds there too, of a state that has one. -/
theorem test_hyp_AcknowledgeAndEndOfInterrupt :
    let s := { ready with cpu.curId := some 63 }
    ready.seq.mainCmd = none ∧ ready.cpu.curId = none ∧ s.seq.mainCmd = none ∧ s.cpu.curId = some 63 ∧
    63 < s.cfg.nIds := ⟨rfl, rfl, rfl, rfl, by decide⟩
theorem test_hyp_VectorCommands : State.reset.seq.mainCmd = none ∧ State.reset.pe.pstate.el ≠ 0#2 := by decide
theorem test_hyp_VectorAddressAndSavedState : vectorReady ready ∧ ¬vectorReady State.reset ∧
    (ExcClass.irq, 0x080) ∈ [(ExcClass.sync, 0x000), (.irq, 0x080), (.fiq, 0x100), (.serror, 0x180)] :=
  ⟨⟨rfl, by decide⟩, fun h => absurd h.1 (by decide), by decide⟩
theorem test_hyp_TimerArmOrder : State.reset.seq.mainCmd = none ∧ State.reset.pe.pstate.el ≠ 0#2 ∧
    State.reset.cfg.timerDelta.toNat < 2 ^ 31 := by decide
/-- The smallest delta, and the compare value just reached. -/
theorem test_hyp_TimerHandlerRearms :
    let s := { State.reset with
      timer := { cnt := 6000#64, cval := 6000#64, enable := true, imask := false }, seq.tDelta := 1#32 }
    s.seq.mainCmd = none ∧ s.pe.pstate.el ≠ 0#2 ∧ timerCond s = true ∧ 1 ≤ s.seq.tDelta.toNat ∧
    s.seq.tDelta.toNat < 2 ^ 31 ∧ s.timer.cnt.toNat + s.seq.tDelta.toNat < 2 ^ 64 := by decide
theorem test_hyp_TickAdvancesTheCounter : let s := { State.reset with env.sched := [.tick] }
    s.fault = none ∧ nextEvent s = .tick ∧ ∃ t, step s = .next t := ⟨rfl, rfl, goes_on (by decide)⟩
theorem test_hyp_SequencerTransitions :
    let at_ := fun o : Orch => { awakeState with seq.orch := o }
    (∀ o, (at_ o).seq.mainCmd = none ∧ (at_ o).pe.pstate.el ≠ 0#2 ∧ awake (at_ o) = true ∧ (at_ o).seq.orch = o ∧
      (at_ o).cfg.sreSticks = true ∧ (at_ o).cfg.timerDelta.toNat < 2 ^ 31) ∧
    { awakeState with cfg.sreSticks := false }.cpu.sre = false :=
  ⟨fun _ => ⟨rfl, (by decide : awakeState.pe.pstate.el ≠ 0#2), rfl, rfl, rfl,
    (by decide : awakeState.cfg.timerDelta.toNat < 2 ^ 31)⟩, rfl⟩
theorem test_hyp_SequencerRunsTheCommand : State.reset.halt = none ∧ State.reset.seq.mainCmd = none ∧
    transitionOf State.reset.cfg State.reset.seq.orch =
      some (.vInstall 0x80000#64, .vectorInstalled, 1#64) := by decide
theorem test_hyp_SequencerConfiguresTheTimerInterrupt :
    let s := { awakeState with seq.orch := .cpuInterfaceReady }
    s.seq.mainCmd = none ∧ s.seq.orch = .cpuInterfaceReady ∧ awake s = true ∧
    elevenCommands[21 / 2]? = some (.rSetEn 30#10, 2) := ⟨rfl, rfl, rfl, rfl⟩
theorem test_hyp_SteadyStatePoll :
    let s := { awakeState with seq.orch := .running }
    let t := { s with redist.arr.platch := #v[0x40000000#32] }
    State.reset.seq.mainCmd = none ∧ State.reset.seq.orch ≠ .running ∧ s.seq.mainCmd = none ∧
    s.seq.orch = .running ∧ pend s .R 30 = false ∧ t.seq.mainCmd = none ∧ t.seq.orch = .running ∧
    pend t .R 30 = true := by decide
/-- What the chain's statements speak of happens: an interrupt in the delivery position, taken. -/
theorem test_hyp_InterruptChain : hppi signalled = some 5 ∧ takeIrq signalled = true ∧
    { signalled with cpu.pmr := 0#8 }.cpu.pmr = 0#8 := ⟨by decide, by decide, rfl⟩
theorem test_hyp_RisingEdgeIsLatched :
    let s := { State.reset with
      timer := { cnt := 5999#64, cval := 6000#64, enable := true, imask := false }
      dist.arr := { State.reset.dist.arr with cfg := Vector.replicate 64 0xFFFFFFFF#32 }
      env.sched := [.tick] }
    s.fault = none ∧ (∃ t, step s = .next t) ∧
    (after (step s)).map (fun t => (latch t .D 30, latch t .D 29)) = some (true, false) :=
  ⟨rfl, goes_on (by decide +kernel), by decide +kernel⟩
/-- An enabled, latched interrupt of Group 0 faults at the end of the step. -/
theorem test_hyp_GroupZeroIsNeverDelivered :
    let s := { signalled with redist.arr := { signalled.redist.arr with grp := #v[0#32] }, env.sched := [.tick] }
    s.fault = none ∧ (∃ u, agentStep (nextEvent s) (beginStep s) = .next u) ∧
    hppi (edgeCapture (beginStep s) (tickStep (beginStep s))) = some 5 ∧
    faultOf (step s) = some .group0Delivery ∧ ∃ t, step { signalled with env.sched := [.tick] } = .next t :=
  ⟨rfl, goes_on (by decide), by decide +kernel, by decide +kernel, goes_on (by decide +kernel)⟩
theorem test_hyp_InterruptEntry : signalled.halt = none ∧ signalled.seq.disp = .idle ∧ takeIrq signalled = true ∧
    vectorReady signalled ∧ takeIrq ready = false ∧ ¬vectorReady { signalled with pe.vbarValid := false } :=
  ⟨rfl, rfl, by decide, ⟨rfl, by decide⟩, by decide, fun h => absurd h.1 (by decide)⟩
theorem test_hyp_FrameSaveAndInterruptReturn :
    (inIrq (.entered .irq) false).halt = none ∧ (inIrq (.entered .irq) false).seq.disp = .entered .irq ∧
    (inIrq (.inRoutine .irq 5) true).halt = none ∧
    (inIrq (.inRoutine .irq 5) true).seq.disp = .inRoutine .irq 5 ∧
    (inIrq (.inRoutine .irq 5) true).cpu.curId = some 5 ∧ 5 < (inIrq (.inRoutine .irq 5) true).cfg.nIds :=
  ⟨rfl, rfl, rfl, rfl, rfl, by decide⟩
theorem test_hyp_InterruptRoutineSteps :
    let s := inIrq (.inRoutine .irq 3) true
    let t := { s with seq.handlerCmd := some { cmd := .tHandle, index := 1, held := 0#64 } }
    let u := inIrq (.inRoutine .irq 4) true
    s.halt = none ∧ s.pe.pstate.el ≠ 0#2 ∧ s.seq.disp = .inRoutine .irq 3 ∧ s.seq.handlerCmd = none ∧
    t.halt = none ∧ t.pe.pstate.el ≠ 0#2 ∧ t.seq.disp = .inRoutine .irq 3 ∧
    t.seq.handlerCmd = some { cmd := .tHandle, index := 1, held := 0#64 } ∧
    u.halt = none ∧ u.pe.pstate.el ≠ 0#2 ∧ u.seq.disp = .inRoutine .irq 4 ∧ u.cpu.curId = some 5 ∧
    5 < u.cfg.nIds :=
  ⟨rfl, by decide, rfl, rfl, rfl, by decide, rfl, rfl, rfl, by decide, rfl, rfl, by decide⟩

/-- The invariant of the dispatch router in the routine, at each of its places. -/
theorem inIrq_dispatchInv (frame : Bool) (d : Disp)
    (h : d = .entered .irq ∧ frame = false ∨
      (d = .inRoutine .irq 3 ∨ d = .inRoutine .irq 4 ∨ d = .inRoutine .irq 5) ∧ frame = true) (es : List Event) :
    DispatchInv { inIrq d frame with env.sched := es } := by
  have ha : ∀ id, acked { inIrq d frame with env.sched := es } id = false := fun id => bitAt_zero 32 id
  refine ⟨?_, ?_, fun _ => ⟨⟨rfl, rfl, rfl, rfl⟩, rfl⟩, ?_, ?_, ?_, ?_⟩
  · show d = .idle ∨ d = .entered .irq ∨ d = .inRoutine .irq 3 ∨ d = .inRoutine .irq 4 ∨ d = .inRoutine .irq 5
    rcases h with ⟨rfl, _⟩ | ⟨rfl | rfl | rfl, _⟩ <;> simp
  · show d = .idle ↔ some 5 = none
    rcases h with ⟨rfl, _⟩ | ⟨rfl | rfl | rfl, _⟩ <;> simp
  · show frame = true ↔ ∃ k, d = .inRoutine .irq k
    rcases h with ⟨rfl, rfl⟩ | ⟨rfl | rfl | rfl, rfl⟩ <;> simp
  · intro m hm
    exact absurd hm (by simp [inIrq, signalled, ready, awakeState, State.reset, State.resetWith])
  · intro id hid
    rw [ha] at hid
    simp at hid
  · intro hh
    exact absurd rfl hh

theorem test_hyp_RoutineComesToItsEnd :
    let s := { inIrq (.inRoutine .irq 5) true with env.sched := [.dispatch] }
    let t := { inIrq (.inRoutine .irq 3) true with env.sched := [.handler] }
    let u := { inIrq (.entered .irq) false with env.sched := [.main none] }
    DispatchInv s ∧ s.seq.disp ≠ .idle ∧ (∃ v, step s = .next v) ∧ nextEvent s = .dispatch ∧
      agentEnabled (nextEvent s) s = true ∧
    DispatchInv t ∧ t.seq.disp ≠ .idle ∧ (∃ v, step t = .next v) ∧ nextEvent t = .handler ∧
      agentEnabled (nextEvent t) t = true ∧
    DispatchInv u ∧ u.seq.disp ≠ .idle ∧ (∃ v, step u = .next v) ∧ nextEvent u = .main none ∧
      agentEnabled (nextEvent u) u = false :=
  ⟨inIrq_dispatchInv _ _ (by simp) _, by decide, goes_on (by decide +kernel), rfl, by decide,
    inIrq_dispatchInv _ _ (by simp) _, by decide, goes_on (by decide +kernel), rfl, by decide,
    inIrq_dispatchInv _ _ (by simp) _, by decide, goes_on (by decide +kernel), rfl, by decide⟩

/-- The six steps of an interrupt. -/
def sixSteps : List Event := [.dispatch, .dispatch, .handler, .handler, .handler, .dispatch]

theorem test_hyp_InterruptedContextIsRestored :
    let s := { signalled with env.sched := sixSteps ++ [] }
    (∀ e ∈ sixSteps, e = .handler ∨ e = .dispatch ∨ e = .tick ∨ e = .wake) ∧ s.seq.disp = .idle ∧
    s.seq.handlerCmd = none ∧ takeIrq s = true ∧
    ∃ t, steps sixSteps.length s = .next t ∧ t.seq.disp = .idle := by
  refine ⟨by decide, rfl, rfl, by decide, ?_⟩
  have h : (after (steps sixSteps.length { signalled with env.sched := sixSteps ++ [] })).map (fun t => t.seq.disp) =
      some .idle := by decide +kernel
  cases hs : steps sixSteps.length { signalled with env.sched := sixSteps ++ [] } with
  | next t => rw [hs] at h; exact ⟨t, rfl, by simpa [after] using h⟩
  | fault r => rw [hs] at h; simp [after] at h
  | refused r => rw [hs] at h; simp [after] at h

theorem test_hyp_CommandInFlightSurvives : let s := { signalled with env.sched := [.dispatch] }
    (∃ t, step s = .next t) ∧ (∀ pe, nextEvent s ≠ .main pe) ∧ nextEvent s ≠ .reset :=
  ⟨goes_on (by decide +kernel), fun _ => by simp [nextEvent], by simp [nextEvent]⟩
/-- A transaction that goes on, and one that takes the synchronous exception. -/
theorem test_hyp_NoCommandTouchesTheContext : (∃ t, exec .dInit State.reset = .next t) ∧
    ∃ t, exec .cPmr { awakeState with pe.vbar := 0x80000#64, pe.vbarValid := true } = .next t :=
  ⟨goes_on (by decide), goes_on (by decide)⟩
theorem test_hyp_HaltAndFaultAreSticky :
    let s := { State.reset with halt := some .syncException, env.sched := [.handler] }
    { State.reset with fault := some .asleep }.fault = some .asleep ∧ s.halt = some .syncException ∧
    (∃ t, step s = .next t) ∧ nextEvent s = .handler := ⟨rfl, rfl, goes_on (by decide), rfl⟩
theorem test_hyp_ResetLeavesTheTabledValues : let s := { signalled with env.sched := [.reset] }
    s.fault = none ∧ nextEvent s = .reset := ⟨rfl, rfl⟩

theorem reset_levelInv (es : List Event) : LevelInv { State.reset with env.sched := es } :=
  ⟨rfl, rfl, fun h => absurd h (by simp [State.reset, State.resetWith]),
    fun k h => absurd h (by simp [State.reset, State.resetWith])⟩

theorem test_hyp_EveryStepKeepsTheLevel : let s := { State.reset with env.sched := [.tick] }
    LevelInv s ∧ ∃ t, step s = .next t := ⟨reset_levelInv _, goes_on (by decide)⟩
theorem test_hyp_EveryStepKeepsDispatchConsistent :
    let s := { inIrq (.inRoutine .irq 4) true with env.sched := [.handler] }
    DispatchInv s ∧ ∃ t, step s = .next t :=
  ⟨inIrq_dispatchInv _ _ (by simp) _, goes_on (by decide +kernel)⟩
/-- Both invariants of the handshake and the gates, of a state between the wake write and the wake. -/
theorem test_hyp_EveryStepKeepsHandshakeAndGates :
    let s := { State.reset with redist.ps := false, env.sched := [.wake] }
    (∃ t, step s = .next t) ∧ WakeInv s ∧ GateInv s :=
  ⟨goes_on (by decide),
    ⟨fun _ => rfl, fun _ => ⟨rfl, rfl, rfl, fun id => bitAt_zero 1 id⟩, fun h => absurd h (by decide)⟩,
    ⟨fun _ => ⟨rfl, rfl, rfl⟩, fun _ => rfl⟩⟩

/-- Five rounds of `HANDLER` and `DISPATCH`. -/
def fiveRounds : List Event := (List.replicate 5 [Event.handler, .dispatch]).flatten

theorem test_hyp_RoutineEndsInFiveRounds :
    let s := { inIrq (.entered .irq) false with env.sched := fiveRounds ++ [] }
    DispatchInv s ∧ fiveRounds.Sublist fiveRounds ∧ ∃ t, steps fiveRounds.length s = .next t :=
  ⟨inIrq_dispatchInv _ _ (by simp) _, List.Sublist.refl _, goes_on (by decide +kernel)⟩

end Sys2Proof.Tests
end

section
/-!
PROOFS. The family of 00_scope.md: what a step of `MAIN` runs (O6), what the other agents leave to `MAIN` (O52), and what
the reset event leaves behind (O55).
-/

namespace Sys2Proof.Proofs

open Sys2Proof Sys2Proof.Machine Sys2Proof.Claims

/-! ## One step, opened along its parts -/

/-- After no fault, a step is the scheduled agent's step with edge capture and the Group 0 check after it. -/
theorem step_of_fault_none {s : State} (hf : s.fault = none) :
    step s = settleOutcome (beginStep s) (agentStep (nextEvent s) (beginStep s)) := by
  simp only [step, hf]

theorem nextEvent_of_sched {s : State} {e : Event} {es : List Event} (h : s.env.sched = e :: es) :
    nextEvent s = e := by
  simp only [nextEvent, h]

/-- `MAIN` steps while the thread runs and no trap is in progress (10_state.md R49, R51). -/
theorem agentStep_main {s : State} (pe : Option PeRegs) (hh : s.halt = none) (hd : s.seq.disp = .idle) :
    agentStep (.main pe) s = mainStep pe s := by
  simp [agentStep, threadRuns, hh, hd]

theorem mainStep_of_inFlight {s : State} {m : InFlight} (pe : Option PeRegs) (hm : s.seq.mainCmd = some m) :
    mainStep pe s = exec m.cmd (applyPe pe s) := by
  simp only [mainStep, hm]

theorem mainStep_of_presented {s : State} {d : Descriptor} {rest : List Descriptor} {i : Instr} (pe : Option PeRegs)
    (hm : s.seq.mainCmd = none) (hc : s.env.cmdIn = d :: rest) (hi : decode d = .ok i) :
    mainStep pe s = exec i (applyPe pe { s with env.cmdIn := rest }) := by
  simp only [mainStep, hm, hc, hi]

/-- Settles O6: the step is opened down to `mainStep`, whose two cases are the two clauses. -/
theorem stepRunsTheDecodedCommand : Obligations.StepRunsTheDecodedCommand := by
  intro s pe es hf hh hd hs
  have hstep : step s = settleOutcome (beginStep s) (mainStep pe (beginStep s)) := by
    rw [step_of_fault_none hf, nextEvent_of_sched hs, agentStep_main (s := beginStep s) pe hh hd]
  constructor
  · intro d rest i hm hc hi
    rw [hstep, mainStep_of_presented (s := beginStep s) pe hm hc hi]
  · intro m hm
    rw [hstep, mainStep_of_inFlight (s := beginStep s) pe hm]

/-! ## What `HANDLER`, `DISPATCH`, `TICK` and `WAKE` leave to `MAIN` -/

/-- From `s` to `t` nothing that `MAIN` holds between two transactions has changed: the command in flight, the
orchestration state, the response and what is still to be presented (10_state.md R48, R49, R59). -/
def KeepsMain (s t : State) : Prop :=
  t.seq.mainCmd = s.seq.mainCmd ∧ t.seq.orch = s.seq.orch ∧ t.rsp = s.rsp ∧ t.env.cmdIn = s.env.cmdIn

theorem KeepsMain.refl (s : State) : KeepsMain s s := ⟨rfl, rfl, rfl, rfl⟩

theorem KeepsMain.trans {s t u : State} (hst : KeepsMain s t) (htu : KeepsMain t u) : KeepsMain s u := by
  obtain ⟨hcmd, horch, hrsp, hin⟩ := hst
  obtain ⟨hcmd', horch', hrsp', hin'⟩ := htu
  exact ⟨hcmd'.trans hcmd, horch'.trans horch, hrsp'.trans hrsp, hin'.trans hin⟩

theorem beginStep_keepsMain (s : State) : KeepsMain s (beginStep s) := ⟨rfl, rfl, rfl, rfl⟩

theorem edgeCapture_keepsMain (a s : State) : KeepsMain s (edgeCapture a s) := by
  simp [KeepsMain]

theorem ackStep_keepsMain (s : State) : KeepsMain s (ackStep s) := by
  unfold ackStep
  split
  · exact ⟨rfl, rfl, rfl, rfl⟩
  · simp [KeepsMain]

theorem irqReturn_keepsMain (s : State) : KeepsMain s (irqReturn s) := by
  simp [KeepsMain, irqReturn]

/-- T.HANDLE inside the routine discards its statuses and results: `RSP` is `MAIN`'s (60_exceptions.md R310). -/
theorem handleStep_keepsMain {s u : State} (h : handleStep s = .next u) : KeepsMain s u := by
  obtain ⟨rfl, -⟩ | ⟨_, _, -, -, rfl⟩ := handleStep_ok h
  · exact ⟨rfl, rfl, rfl, rfl⟩
  · exact ⟨rfl, rfl, rfl, rfl⟩

theorem handlerStep_keepsMain {s u : State} (h : handlerStep s = .next u) : KeepsMain s u := by
  obtain ⟨rfl, -, -⟩ | ⟨-, hu⟩ | ⟨-, rfl⟩ := handlerStep_ok h
  · exact KeepsMain.refl _
  · exact handleStep_keepsMain hu
  · exact ackStep_keepsMain s

/-- An interrupt taken, saved and returned from leaves the interrupted command where it was (60_exceptions.md R308). -/
theorem dispatchStep_keepsMain {s u : State} (h : dispatchStep s = .next u) : KeepsMain s u := by
  obtain ⟨rfl, -⟩ | ⟨-, -, hu⟩ | ⟨-, rfl⟩ | ⟨-, rfl⟩ := dispatchStep_ok h
  · exact KeepsMain.refl _
  · obtain ⟨-, rfl⟩ := irqEnter_ok hu
    exact ⟨rfl, rfl, rfl, rfl⟩
  · exact ⟨rfl, rfl, rfl, rfl⟩
  · exact irqReturn_keepsMain s

theorem agentStep_keepsMain {e : Event} {s u : State} (h : agentStep e s = .next u) (hm : ∀ pe, e ≠ .main pe)
    (hr : e ≠ .reset) : KeepsMain s u := by
  obtain rfl | ⟨pe, he, -⟩ | ⟨-, -, hu⟩ | ⟨-, -, hu⟩ | ⟨-, rfl⟩ | ⟨-, -, -, rfl⟩ | ⟨he, -⟩ := agentStep_ok h
  · exact KeepsMain.refl _
  · exact absurd he (hm pe)
  · exact handlerStep_keepsMain hu
  · exact dispatchStep_keepsMain hu
  · exact ⟨rfl, rfl, rfl, rfl⟩
  · exact ⟨rfl, rfl, rfl, rfl⟩
  · exact absurd he hr

/-- Settles O52: the beginning of a step, the agent's own step and edge capture each leave `MAIN`'s values alone. -/
theorem commandInFlightSurvives : Obligations.CommandInFlightSurvives := by
  intro s t h hm hr
  obtain ⟨-, u, hu, rfl, -⟩ := step_ok h
  exact ((beginStep_keepsMain s).trans (agentStep_keepsMain hu hm hr)).trans (edgeCapture_keepsMain _ u)

/-! ## The reset event -/

/-- Where no ID is a candidate there is no highest-priority pending interrupt (10_state.md R56). -/
theorem bestBelow_eq_none {s : State} (h : ∀ id, cand s id = false) (n : Nat) : bestBelow s n = none := by
  induction n with
  | zero => rfl
  | succ n ih => simp [bestBelow, h n, ih]

/-- While the redistributor is not awake it forwards nothing (10_state.md R56). -/
theorem cand_of_asleep {s : State} (ha : awake s = false) (id : Nat) : cand s id = false := by
  simp [cand, fwd, ha]

theorem group0InDelivery_of_asleep {s : State} (ha : awake s = false) : group0InDelivery s = false := by
  simp [group0InDelivery, hppi, bestBelow_eq_none (cand_of_asleep ha)]

/-- A disabled timer drives no wire, so edge capture finds no rising one (10_state.md R47, 60_exceptions.md R303). -/
theorem edgeCapture_of_timer_disabled (a : State) {s : State} (h : s.timer.enable = false) : edgeCapture a s = s := by
  simp [edgeCapture, timerLine, h]

/-- Nothing after the step disturbs a state whose timer is disabled and whose redistributor is asleep. -/
theorem settle_of_quiet (a : State) {s : State} (ht : s.timer.enable = false) (ha : awake s = false) :
    settle a s = .next s := by
  simp [settle, edgeCapture_of_timer_disabled a ht, group0InDelivery_of_asleep ha]

/-- The reset event is the whole step: the reset state is quiet. -/
theorem step_reset {s : State} (hf : s.fault = none) (he : nextEvent s = .reset) :
    step s = .next (resetStep (beginStep s)) := by
  rw [step_of_fault_none hf, he]
  exact settle_of_quiet (beginStep s) (s := resetStep (beginStep s)) rfl rfl

theorem enabled_resetStep (s : State) (b : Bank) (id : Nat) : enabled (resetStep s) b id = false := by
  cases b
  · exact bitAt_replicate_zero 32 id
  · exact bitAt_replicate_zero 1 id

theorem acked_resetStep (s : State) (id : Nat) : acked (resetStep s) id = false := bitAt_replicate_zero 32 id

/-- Settles O55: the step is `resetStep`; the two arrays of the table are read bit by bit, the rest is what
`State.resetWith` writes. -/
theorem resetLeavesTheTabledValues : Obligations.ResetLeavesTheTabledValues := by
  intro s hf he
  have hfault : (resetStep (beginStep s)).fault = none := hf
  exact ⟨_, step_reset hf he, rfl, rfl, rfl, enabled_resetStep _, rfl, rfl, rfl, rfl, rfl, acked_resetStep _, rfl, rfl,
    rfl, rfl, rfl, rfl, rfl, rfl, rfl, rfl, rfl, rfl, hfault, rfl, rfl⟩

end Sys2Proof.Proofs
end

section
/-!
PROOFS. The family of 10_state.md: what a command leaves alone (O53), the level invariant (O57, O56), the
highest-priority pending interrupt (O43), the counter (O38), and what a halted thread still does (O54).
-/

namespace Sys2Proof.Proofs

open Sys2Proof Sys2Proof.Machine

/-! ## What no command writes -/

/-- The parts of the state that a transaction of a command leaves alone, the synchronous exception apart. -/
structure CommandFrame where
  x : Vector DWord 31
  el : BitVec 2
  spSel : Bool
  pc : DWord
  elr : DWord
  spsr : DWord
  cnt : DWord
  ca : Bool
  curId : Option Nat
  ctx : Vector DWord 33
  frameValid : Bool
  handlerCmd : Option InFlight
  disp : Disp
  halt : Option Halt
  cfg : Config
  env : Env
  fault : Option Fault

/-- Those parts of a state. -/
def commandFrame (s : State) : CommandFrame where
  x := s.pe.x
  el := s.pe.pstate.el
  spSel := s.pe.pstate.spSel
  pc := s.pe.pc
  elr := s.pe.elr
  spsr := s.pe.spsr
  cnt := s.timer.cnt
  ca := s.redist.ca
  curId := s.cpu.curId
  ctx := s.seq.ctx
  frameValid := s.seq.frameValid
  handlerCmd := s.seq.handlerCmd
  disp := s.seq.disp
  halt := s.halt
  cfg := s.cfg
  env := s.env
  fault := s.fault

theorem commandFrame_memWrite {s t : State} {b : Bank} {off : Nat} {v : Word} (h : memWrite s b off v = .ok t) :
    commandFrame t = commandFrame s := by
  obtain ⟨hpe, hcpu, htimer, hseq, hhalt, hfault, -, hcfg, henv⟩ := memWrite_frame h
  obtain ⟨hca, -, -⟩ := memWrite_redist h
  simp only [commandFrame, hpe, hcpu, htimer, hseq, hhalt, hfault, hcfg, henv, hca]

theorem commandFrame_sysStore (s : State) (r : SysReg) (v : DWord) :
    commandFrame (sysStore s r v) = commandFrame s := by
  obtain ⟨-, hredist, hseq, hhalt, hfault, -, hcfg, henv, hx, hpc, helr, hspsr, hel, hsp, -, hcur, hcnt⟩ :=
    sysStore_frame s r v
  simp only [commandFrame, hredist, hseq, hhalt, hfault, hcfg, henv, hx, hpc, helr, hspsr, hel, hsp, hcur, hcnt]

/-- Every operation a transaction is made of keeps the frame. -/
theorem commandFrame_keptByMain : KeptByMain fun s t => commandFrame t = commandFrame s where
  refl _ := rfl
  trans _ _ _ hst htu := htu.trans hst
  bank _ _ _ _ _ h := commandFrame_memWrite h
  sys s r v t h := by
    obtain ⟨-, -, -, -, rfl⟩ := sysWrite_ok h
    exact commandFrame_sysStore s r v
  unmask _ := rfl
  ack s id _ := by simp [commandFrame]
  eoi s := by simp [commandFrame]
  delta _ _ := rfl
  diag _ _ := rfl
  orch _ _ _ := rfl
  respond _ _ _ := rfl
  inFlight _ _ _ _ := rfl

/-- Settles O53: a transaction keeps the frame, or it takes the synchronous exception, whose exact state is known. -/
theorem noCommandTouchesTheContext : Obligations.NoCommandTouchesTheContext := by
  intro i s t h
  obtain hframe | htrap := exec_cases commandFrame_keptByMain h
  · obtain ⟨hx, hel, hsp, hpc, helr, hspsr, hcnt, hca, hcur, hctx, hvalid, hhandler, hdisp, hhalt, hcfg, henv,
      hfault⟩ := CommandFrame.mk.inj hframe
    exact ⟨hx, hel, hsp, hcnt, hca, hcur, hctx, hvalid, hhandler, hdisp, hcfg, henv, hfault,
      Or.inl ⟨hpc, helr, hspsr, hhalt⟩⟩
  · obtain ⟨-, rfl⟩ := syncEnter_ok htrap
    exact ⟨rfl, rfl, rfl, rfl, rfl, rfl, rfl, rfl, rfl, rfl, rfl, rfl, rfl, Or.inr ⟨rfl, rfl, rfl, rfl, rfl⟩⟩

/-! ## The exception level -/

/-- The level and the stack-pointer select that a processor state has are the launch parameters' (10_state.md R22). -/
def AtLaunchLevel (c : Config) (p : PState) : Prop := p.el = c.bootEl ∧ p.spSel = c.spSel

/-! The invariant at each place the dispatch router can stand: outside a trap only the processor state counts, after the
entry also `spsr`, inside the routine also slot 32 of the frame. -/

theorem levelInv_idle {s : State} (hd : s.seq.disp = .idle) : LevelInv s ↔ AtLaunchLevel s.cfg s.pe.pstate := by
  simp [LevelInv, AtLaunchLevel, hd]

theorem levelInv_entered {s : State} (hd : s.seq.disp = .entered .irq) :
    LevelInv s ↔ AtLaunchLevel s.cfg s.pe.pstate ∧ AtLaunchLevel s.cfg (unpackPState s.pe.spsr) := by
  simp [LevelInv, AtLaunchLevel, hd, and_assoc]

theorem levelInv_inRoutine {s : State} {k : Nat} (hd : s.seq.disp = .inRoutine .irq k) :
    LevelInv s ↔ AtLaunchLevel s.cfg s.pe.pstate ∧ AtLaunchLevel s.cfg (unpackPState (frameSpsr s.seq.ctx)) := by
  simp [LevelInv, AtLaunchLevel, hd, and_assoc]

theorem resetWith_levelInv (c : Config) (u : Unspec) (e : Env) (f : Option Fault) :
    LevelInv (State.resetWith c u e f) :=
  (levelInv_idle rfl).mpr ⟨rfl, rfl⟩

/-- `MAIN` steps outside a trap only, and no command writes the level (60_exceptions.md R316). -/
theorem mainStep_keepsLevel {pe : Option PeRegs} {s u : State} (hd : s.seq.disp = .idle) (hi : LevelInv s)
    (h : mainStep pe s = .next u) : LevelInv u ∧ u.cfg = s.cfg := by
  obtain rfl | ⟨x, pc, cs, ⟨i, hu⟩ | rfl⟩ := mainStep_ok h
  · exact ⟨hi, rfl⟩
  · obtain ⟨-, hel, hsp, -, -, -, -, -, -, hdisp, hcfg, -⟩ := noCommandTouchesTheContext i _ _ hu
    obtain ⟨hel₀, hsp₀⟩ := (levelInv_idle hd).mp hi
    refine ⟨(levelInv_idle (hdisp.trans hd)).mpr ⟨?_, ?_⟩, hcfg⟩
    · rw [hel, hcfg]; exact hel₀
    · rw [hsp, hcfg]; exact hsp₀
  · exact ⟨(levelInv_idle hd).mpr ((levelInv_idle hd).mp hi), rfl⟩

/-- Moving on inside the routine keeps the invariant, which does not ask where in it the handler stands. -/
theorem levelInv_moveInRoutine {s t : State} {j k : Nat} (hs : s.seq.disp = .inRoutine .irq j)
    (ht : t.seq.disp = .inRoutine .irq k) (hpe : t.pe = s.pe) (hctx : t.seq.ctx = s.seq.ctx) (hcfg : t.cfg = s.cfg)
    (hi : LevelInv s) : LevelInv t := by
  rw [levelInv_inRoutine ht, hpe, hctx, hcfg]
  exact (levelInv_inRoutine hs).mp hi

theorem handlerStep_keepsLevel {s u : State} (hi : LevelInv s) (h : handlerStep s = .next u) :
    LevelInv u ∧ u.cfg = s.cfg := by
  obtain ⟨rfl, -, -⟩ | ⟨hd, hu⟩ | ⟨hd, rfl⟩ := handlerStep_ok h
  · exact ⟨hi, rfl⟩
  · obtain ⟨rfl, -⟩ | ⟨_, _, -, -, rfl⟩ := handleStep_ok hu
    · exact ⟨levelInv_moveInRoutine hd hd rfl rfl rfl hi, rfl⟩
    · exact ⟨levelInv_moveInRoutine hd rfl rfl rfl rfl hi, rfl⟩
  · unfold ackStep
    split
    · exact ⟨levelInv_moveInRoutine hd rfl rfl rfl rfl hi, rfl⟩
    · exact ⟨levelInv_moveInRoutine hd rfl (by simp) (by simp) (by simp) hi, by simp⟩

/-- The entry packs the level into `spsr`, the frame save copies that into the frame, the return unpacks it
(60_exceptions.md R308, R309, R312, R316). -/
theorem dispatchStep_keepsLevel {s u : State} (hi : LevelInv s) (h : dispatchStep s = .next u) :
    LevelInv u ∧ u.cfg = s.cfg := by
  obtain ⟨rfl, -⟩ | ⟨hd, -, hu⟩ | ⟨hd, rfl⟩ | ⟨hd, rfl⟩ := dispatchStep_ok h
  · exact ⟨hi, rfl⟩
  · obtain ⟨-, rfl⟩ := irqEnter_ok hu
    have hlevel := (levelInv_idle hd).mp hi
    refine ⟨(levelInv_entered rfl).mpr ⟨hlevel, ?_⟩, rfl⟩
    simpa only [unpack_pack] using hlevel
  · obtain ⟨hlevel, hsaved⟩ := (levelInv_entered hd).mp hi
    obtain ⟨-, -, hspsr⟩ := frame_of s.pe
    refine ⟨(levelInv_inRoutine (k := 3) rfl).mpr ⟨hlevel, ?_⟩, rfl⟩
    simpa only [frameSave, hspsr] using hsaved
  · obtain ⟨-, hsaved⟩ := (levelInv_inRoutine hd).mp hi
    have hcfg : (irqReturn s).cfg = s.cfg := endOfInterrupt_cfg s
    refine ⟨(levelInv_idle rfl).mpr ?_, hcfg⟩
    rw [hcfg]
    exact hsaved

theorem agentStep_keepsLevel {e : Event} {s u : State} (hi : LevelInv s) (h : agentStep e s = .next u) :
    LevelInv u ∧ u.cfg = s.cfg := by
  obtain rfl | ⟨_, -, -, hd, hu⟩ | ⟨-, -, hu⟩ | ⟨-, -, hu⟩ | ⟨-, rfl⟩ | ⟨-, -, -, rfl⟩ | ⟨-, rfl⟩ := agentStep_ok h
  · exact ⟨hi, rfl⟩
  · exact mainStep_keepsLevel hd hi hu
  · exact handlerStep_keepsLevel hi hu
  · exact dispatchStep_keepsLevel hi hu
  · exact ⟨hi, rfl⟩
  · exact ⟨hi, rfl⟩
  · exact ⟨resetWith_levelInv _ _ _ _, rfl⟩

theorem edgeCapture_keepsLevel (a : State) {s : State} (hi : LevelInv s) : LevelInv (edgeCapture a s) := by
  simpa [LevelInv] using hi

/-- Settles O57: each agent's step keeps the invariant, and neither the schedule nor edge capture is part of it. -/
theorem everyStepKeepsTheLevel : Obligations.EveryStepKeepsTheLevel := by
  intro s t hi h
  obtain ⟨-, u, hu, rfl, -⟩ := step_ok h
  obtain ⟨hlevel, hcfg⟩ := agentStep_keepsLevel (s := beginStep s) hi hu
  exact ⟨edgeCapture_keepsLevel _ hlevel, (edgeCapture_cfg _ u).trans hcfg⟩

/-! ## The highest-priority pending interrupt -/

/-- `id` is no worse than `k`: a smaller priority value, or the same one and no larger an ID (10_state.md R56). -/
def NoWorse (s : State) (id k : Nat) : Prop :=
  (priority s (bankOf s id) id).toNat < (priority s (bankOf s k) k).toNat ∨
    (priority s (bankOf s id) id = priority s (bankOf s k) k ∧ id ≤ k)

theorem NoWorse.refl (s : State) (id : Nat) : NoWorse s id id := Or.inr ⟨rfl, Nat.le_refl id⟩

theorem NoWorse.trans {s : State} {i j k : Nat} (hij : NoWorse s i j) (hjk : NoWorse s j k) : NoWorse s i k := by
  unfold NoWorse at *
  simp only [← BitVec.toNat_inj] at *
  omega

theorem NoWorse.antisymm {s : State} {i j : Nat} (hij : NoWorse s i j) (hji : NoWorse s j i) : i = j := by
  unfold NoWorse at *
  simp only [← BitVec.toNat_inj] at *
  omega

/-- `id` is the best candidate below `n`. -/
def IsBest (s : State) (n id : Nat) : Prop :=
  id < n ∧ cand s id = true ∧ ∀ k < n, cand s k = true → NoWorse s id k

theorem IsBest.unique {s : State} {n i j : Nat} (hi : IsBest s n i) (hj : IsBest s n j) : i = j := by
  obtain ⟨hin, hci, hbi⟩ := hi
  obtain ⟨hjn, hcj, hbj⟩ := hj
  exact (hbi j hjn hcj).antisymm (hbj i hin hci)

/-- A best candidate below `n` stays the best with ID `n` looked at, where `n` is no better candidate. -/
theorem IsBest.succ {s : State} {n b : Nat} (hb : IsBest s n b) (hn : cand s n = true → NoWorse s b n) :
    IsBest s (n + 1) b := by
  obtain ⟨hlt, hcand, hbest⟩ := hb
  refine ⟨Nat.lt_succ_of_lt hlt, hcand, fun k hk hck => ?_⟩
  obtain hk | rfl := Nat.lt_succ_iff_lt_or_eq.mp hk
  · exact hbest k hk hck
  · exact hn hck

/-- A candidate `n` no worse than every candidate before it is the best with ID `n` looked at. -/
theorem isBest_last {s : State} {n : Nat} (hc : cand s n = true)
    (hbefore : ∀ k < n, cand s k = true → NoWorse s n k) : IsBest s (n + 1) n := by
  refine ⟨Nat.lt_succ_self n, hc, fun k hk hck => ?_⟩
  obtain hk | rfl := Nat.lt_succ_iff_lt_or_eq.mp hk
  · exact hbefore k hk hck
  · exact NoWorse.refl s k

/-! The search, one ID further. -/

theorem bestBelow_succ_of_not_cand {s : State} {n : Nat} (hc : ¬ cand s n = true) :
    bestBelow s (n + 1) = bestBelow s n := by
  simp [bestBelow, hc]

theorem bestBelow_succ_of_none {s : State} {n : Nat} (hc : cand s n = true) (hb : bestBelow s n = none) :
    bestBelow s (n + 1) = some n := by
  simp [bestBelow, hc, hb]

theorem bestBelow_succ_of_some {s : State} {n b : Nat} (hc : cand s n = true) (hb : bestBelow s n = some b) :
    bestBelow s (n + 1) =
      if priority s (bankOf s n) n < priority s (bankOf s b) b then some n else some b := by
  simp [bestBelow, hc, hb]

/-- Where there is a candidate the search finds one. -/
theorem bestBelow_ne_none {s : State} {n k : Nat} (hk : k < n) (hck : cand s k = true) : bestBelow s n ≠ none := by
  induction n with
  | zero => exact absurd hk (Nat.not_lt_zero k)
  | succ n ih =>
    by_cases hc : cand s n = true
    · cases hb : bestBelow s n with
      | none => simp [bestBelow_succ_of_none hc hb]
      | some b => rw [bestBelow_succ_of_some hc hb]; split <;> simp
    · obtain hk | rfl := Nat.lt_succ_iff_lt_or_eq.mp hk
      · exact bestBelow_succ_of_not_cand hc ▸ ih hk
      · exact absurd hck hc

/-- What the search finds is the best candidate. -/
theorem isBest_of_bestBelow {s : State} {n id : Nat} (h : bestBelow s n = some id) : IsBest s n id := by
  induction n generalizing id with
  | zero => simp [bestBelow] at h
  | succ n ih =>
    by_cases hc : cand s n = true
    · cases hb : bestBelow s n with
      | none =>
        obtain rfl : n = id := by simpa [bestBelow_succ_of_none hc hb] using h
        exact isBest_last hc fun k hk hck => absurd hb (bestBelow_ne_none hk hck)
      | some b =>
        obtain ⟨hbn, hcb, hbest⟩ := ih hb
        rw [bestBelow_succ_of_some hc hb] at h
        split at h
        next hlt =>
          obtain rfl := Option.some.inj h
          exact isBest_last hc fun k hk hck => NoWorse.trans (Or.inl hlt) (hbest k hk hck)
        next hle =>
          obtain rfl := Option.some.inj h
          refine (ih hb).succ fun _ => ?_
          obtain hlt | heq := Nat.lt_or_eq_of_le (BitVec.not_lt.mp hle)
          · exact Or.inl hlt
          · exact Or.inr ⟨BitVec.eq_of_toNat_eq heq, hbn.le⟩
    · rw [bestBelow_succ_of_not_cand hc] at h
      exact (ih h).succ fun hn => absurd hn hc

/-- The search answers exactly the best candidate. -/
theorem bestBelow_eq_some_iff (s : State) (n id : Nat) : bestBelow s n = some id ↔ IsBest s n id := by
  refine ⟨isBest_of_bestBelow, fun hbest => ?_⟩
  have ⟨hlt, hc, _⟩ := hbest
  obtain ⟨b, hb⟩ := Option.ne_none_iff_exists'.mp (bestBelow_ne_none hlt hc)
  rw [hb, (isBest_of_bestBelow hb).unique hbest]

/-- Settles O43: `hppi` is that search over the implemented IDs. -/
theorem highestPriorityPendingInterrupt : Obligations.HighestPriorityPendingInterrupt :=
  fun s id => bestBelow_eq_some_iff s s.nIds id

/-! ## The counter -/

/-- A step of `TICK` is the counter's increment with what every step ends with after it. -/
theorem step_tick {s : State} (hf : s.fault = none) (he : nextEvent s = .tick) :
    step s = settle (beginStep s) (tickStep (beginStep s)) := by
  rw [step_of_fault_none hf, he]
  rfl

/-- Edge capture after a step of `TICK` writes pending latches and nothing else. -/
theorem edgeCapture_tick_frame (s : State) {t : State} (ht : t = edgeCapture (beginStep s) (tickStep (beginStep s))) :
    t = { s with
      timer.cnt := s.timer.cnt + 1#64
      dist.arr.platch := t.dist.arr.platch
      redist.arr.platch := t.redist.arr.platch
      env := { cmdIn := s.env.cmdIn, sched := s.env.sched.tail, clock := s.env.clock + 1 } } := by
  obtain ⟨d, r, hframe⟩ := edgeCapture_frame (beginStep s) (tickStep (beginStep s))
  rw [hframe] at ht
  subst ht
  rfl

theorem timerLine_eq (s : State) : timerLine s =
    (s.timer.enable && !s.timer.imask && decide (s.timer.cval.toNat ≤ s.timer.cnt.toNat)) := rfl

/-- Settles O38: the step is `step_tick`; what it leaves and latches is what edge capture does. -/
theorem tickAdvancesTheCounter : Obligations.TickAdvancesTheCounter := by
  refine ⟨fun s hf he => ⟨step_tick hf he, fun t h => ?_⟩, timerLine_eq⟩
  rw [step_tick hf he] at h
  obtain ⟨ht, -⟩ := settle_next h
  refine ⟨edgeCapture_tick_frame s ht, fun b id => ?_⟩
  rw [ht]
  exact latch_edgeCapture (beginStep s) (tickStep (beginStep s)) b id

/-! ## Halt and fault -/

/-- After a fault no agent steps (10_state.md R52). -/
theorem step_of_fault {s : State} {r : Fault} (hf : s.fault = some r) : step s = .fault r := by
  simp only [step, hf]

/-- A halted thread takes no step (10_state.md R51). -/
theorem agentStep_of_halted {e : Event} {s : State} {h : Halt} (hh : s.halt = some h)
    (he : (∃ pe, e = .main pe) ∨ e = .handler ∨ e = .dispatch) : agentStep e s = .next s := by
  obtain ⟨pe, rfl⟩ | rfl | rfl := he <;> simp [agentStep, threadRuns, hh]

/-- The agents that are no part of the thread leave its registers, the sequencer, the halt and the response alone,
`RESET` apart. -/
theorem agentStep_halted_frame {e : Event} {s u : State} {h : Halt} (hh : s.halt = some h) (hr : e ≠ .reset)
    (hu : agentStep e s = .next u) : u.halt = some h ∧ u.seq = s.seq ∧ u.pe = s.pe ∧ u.rsp = s.rsp := by
  have hrun : s.halt ≠ none := by simp [hh]
  obtain rfl | ⟨_, -, hn, -⟩ | ⟨-, hn, -⟩ | ⟨-, hn, -⟩ | ⟨-, rfl⟩ | ⟨-, -, -, rfl⟩ | ⟨he, -⟩ := agentStep_ok hu
  · exact ⟨hh, rfl, rfl, rfl⟩
  · exact absurd hn hrun
  · exact absurd hn hrun
  · exact absurd hn hrun
  · exact ⟨hh, rfl, rfl, rfl⟩
  · exact ⟨hh, rfl, rfl, rfl⟩
  · exact absurd he hr

/-- Settles O54: a halted thread's own agents stutter, and edge capture after a stutter finds no rising line. -/
theorem haltAndFaultAreSticky : Obligations.HaltAndFaultAreSticky := by
  refine ⟨fun s r hf => step_of_fault hf, fun s t h hh hst => ?_⟩
  obtain ⟨-, u, hu, rfl, -⟩ := step_ok hst
  constructor
  · intro hr
    simpa using agentStep_halted_frame (s := beginStep s) hh hr hu
  · intro he
    rw [agentStep_of_halted (s := beginStep s) hh he] at hu
    obtain rfl := Host.Outcome.next.inj hu
    exact edgeCapture_of_line rfl

/-! ## The invariants at reset -/

/-- No trap is in progress, nothing is acknowledged and nothing is halted (10_state.md R60). -/
theorem resetWith_dispatchInv (c : Config) (u : Unspec) (e : Env) (f : Option Fault) :
    DispatchInv (State.resetWith c u e f) := by
  have hacked : ∀ id, acked (State.resetWith c u e f) id = false := bitAt_replicate_zero 32
  have hidle : ∀ k, Disp.idle ≠ .inRoutine .irq k := fun k h => Disp.noConfusion h
  exact ⟨Or.inl rfl, iff_of_true rfl rfl, fun h => absurd rfl h,
    iff_of_false Bool.false_ne_true fun ⟨k, hk⟩ => hidle k hk,
    fun m hm => absurd hm (Option.some_ne_none m).symm,
    fun id hid => absurd (hacked id) (ne_false_of_eq_true hid), fun h => absurd rfl h⟩

/-- The redistributor is asleep and everything behind the handshake has its reset value (10_state.md R60). -/
theorem resetWith_wakeInv (c : Config) (u : Unspec) (e : Env) (f : Option Fault) :
    WakeInv (State.resetWith c u e f) :=
  ⟨fun _ => rfl, fun _ => ⟨rfl, rfl, rfl, bitAt_replicate_zero 1⟩, fun h => Bool.noConfusion h⟩

theorem resetWith_gateInv (c : Config) (u : Unspec) (e : Env) (f : Option Fault) :
    GateInv (State.resetWith c u e f) :=
  ⟨fun _ => ⟨rfl, rfl, rfl⟩, fun _ => rfl⟩

/-- Settles O56, one lemma an invariant. -/
theorem resetMeetsTheInvariants : Obligations.ResetMeetsTheInvariants := fun c u e =>
  ⟨resetWith_levelInv c u e none, resetWith_dispatchInv c u e none, resetWith_wakeInv c u e none,
    resetWith_gateInv c u e none, rfl⟩

end Sys2Proof.Proofs
end

section
/-!
PROOFS. The family of 20_memory.md: the register a bank offset selects is the one of the table of matches and masks (O5).
-/

namespace Sys2Proof.Proofs

open Sys2Proof Sys2Proof.Machine Sys2Proof.Claims

/-! ## A mask takes an aligned block of offsets -/

/-- A mask of the high bits from bit `k` on rounds down to a multiple of `2 ^ k`. -/
theorem and_highMask {m k x : Nat} (hk : k ≤ m) (hx : x < 2 ^ m) : x &&& (2 ^ m - 2 ^ k) = 2 ^ k * (x / 2 ^ k) := by
  have hmask : 2 ^ m - 2 ^ k = (2 ^ (m - k) - 1) <<< k := by
    rw [Nat.shiftLeft_eq, Nat.sub_mul, one_mul, ← pow_add, Nat.sub_add_cancel hk]
  have hshift : x &&& (2 ^ (m - k) - 1) <<< k = ((x >>> k) &&& (2 ^ (m - k) - 1)) <<< k := by
    refine Nat.eq_of_testBit_eq fun i => ?_
    by_cases hi : k ≤ i <;> simp [Nat.testBit_shiftLeft, hi, Bool.and_comm]
  have hquot : x / 2 ^ k < 2 ^ (m - k) := by
    rw [Nat.div_lt_iff_lt_mul (Nat.two_pow_pos k), ← pow_add, Nat.sub_add_cancel hk]
    exact hx
  rw [hmask, hshift, Nat.and_two_pow_sub_one_eq_mod, Nat.shiftRight_eq_div_pow, Nat.mod_eq_of_lt hquot,
    Nat.shiftLeft_eq, mul_comm]

theorem and_highMask_eq_iff {m k x p : Nat} (hk : k ≤ m) (hx : x < 2 ^ m) (hp : 2 ^ k ∣ p) :
    x &&& (2 ^ m - 2 ^ k) = p ↔ p ≤ x ∧ x < p + 2 ^ k := by
  obtain ⟨q, rfl⟩ := hp
  have hpos := Nat.two_pow_pos k
  rw [and_highMask hk hx, Nat.mul_right_inj hpos.ne', Nat.div_eq_iff hpos, mul_comm q]
  omega

/-! ## The rows of the table (30_encoding.md R129) -/

/-- The number of offsets the mask of a row takes. -/
def rowSpan (r : DecodeRow) : Nat := 2 ^ 17 - r.mask

/-- Row `r` has register `(off - match) div 4` at offset `off` of bank `b`. -/
def Covers (b : Bank) (off : Nat) (r : DecodeRow) : Prop := r.bank = b ∧ inWindow r.pattern r.count off = true

/-- Every mask of the table keeps the high bits, and every match is aligned to its mask. -/
theorem decodeRows_aligned (n : Nat) :
    ∀ r ∈ decodeRows n, ∃ k ≤ 17, r.mask = 2 ^ 17 - 2 ^ k ∧ 2 ^ k ∣ r.pattern := by
  simp only [decodeRows, List.forall_mem_cons]
  exact ⟨⟨2, by decide⟩, ⟨7, by decide⟩, ⟨7, by decide⟩, ⟨7, by decide⟩, ⟨7, by decide⟩, ⟨7, by decide⟩,
    ⟨10, by decide⟩, ⟨10, by decide⟩, ⟨8, by decide⟩, ⟨2, by decide⟩, ⟨2, by decide⟩, ⟨2, by decide⟩, ⟨2, by decide⟩,
    ⟨2, by decide⟩, ⟨2, by decide⟩, ⟨5, by decide⟩, ⟨3, by decide⟩, List.forall_mem_nil _⟩

theorem decodeRows_mask_iff {n off : Nat} {r : DecodeRow} (hr : r ∈ decodeRows n) (hoff : off < 2 ^ 17) :
    off &&& r.mask = r.pattern ↔ r.pattern ≤ off ∧ off < r.pattern + rowSpan r := by
  obtain ⟨k, hk, hmask, hdvd⟩ := decodeRows_aligned n r hr
  have hspan : rowSpan r = 2 ^ k := by
    rw [rowSpan, hmask, Nat.sub_sub_self (Nat.pow_le_pow_right (by decide) hk)]
  rw [hspan, hmask, and_highMask_eq_iff hk hoff hdvd]

/-- The registers of a row fit in what its mask takes: this is the bound `N_IDS <= 1024` (20_memory.md R82). -/
theorem decodeRows_count_le {n : Nat} (hn : n ≤ 1024) : ∀ r ∈ decodeRows n, 4 * r.count ≤ rowSpan r := by
  simp only [decodeRows, List.forall_mem_cons, rowSpan]
  refine ⟨?_, ?_, ?_, ?_, ?_, ?_, ?_, ?_, ?_, ?_, ?_, ?_, ?_, ?_, ?_, ?_, ?_, List.forall_mem_nil _⟩ <;> omega

/-- In each bank the rows stand in the order of their offsets, and no two masks take the same offset. -/
theorem decodeRows_ascending (n : Nat) :
    (decodeRows n).Pairwise fun r r' => r.bank = r'.bank → r.pattern + rowSpan r ≤ r'.pattern := by
  simp [decodeRows, rowSpan]

/-- At most one row of a bank has its match at the masked offset. -/
theorem decodeRows_unique {n off : Nat} {r r' : DecodeRow} (hoff : off < 2 ^ 17) (hr : r ∈ decodeRows n)
    (hr' : r' ∈ decodeRows n) (hbank : r.bank = r'.bank) (hmatch : off &&& r.mask = r.pattern)
    (hmatch' : off &&& r'.mask = r'.pattern) : r = r' := by
  by_contra hne
  have hapart : r.pattern + rowSpan r ≤ r'.pattern ∨ r'.pattern + rowSpan r' ≤ r.pattern := by
    obtain ⟨i, hi, rfl⟩ := List.mem_iff_getElem.mp hr
    obtain ⟨j, hj, rfl⟩ := List.mem_iff_getElem.mp hr'
    have hasc := List.pairwise_iff_getElem.mp (decodeRows_ascending n)
    rcases lt_trichotomy i j with hij | rfl | hji
    · exact Or.inl (hasc i j hi hj hij hbank)
    · exact absurd rfl hne
    · exact Or.inr (hasc j i hj hi hji hbank.symm)
  rw [decodeRows_mask_iff hr hoff] at hmatch
  rw [decodeRows_mask_iff hr' hoff] at hmatch'
  omega

/-! ## The lookup in the table -/

/-- The lookup answers the register of the row that covers the offset. -/
theorem rowLookup_of_covers {n off : Nat} {b : Bank} {r : DecodeRow} (hn : n ≤ 1024) (hoff : off < 2 ^ 17)
    (hr : r ∈ decodeRows n) (hc : Covers b off r) : rowLookup n b off = some (r.reg ((off - r.pattern) / 4)) := by
  obtain ⟨hbank, hwin⟩ := hc
  rw [inWindow_iff] at hwin
  have hmatch : off &&& r.mask = r.pattern := by
    have := decodeRows_count_le hn r hr
    rw [decodeRows_mask_iff hr hoff]
    omega
  have hindex : (off - r.pattern) / 4 < r.count := by omega
  unfold rowLookup
  split
  next hf => exact absurd (List.find?_eq_none.mp hf r hr) (by simp [hbank, hmatch])
  next r' hf =>
    have hsel := List.find?_some hf
    simp only [Bool.and_eq_true, decide_eq_true_eq, beq_iff_eq] at hsel
    obtain ⟨hbank', hmatch'⟩ := hsel
    obtain rfl := decodeRows_unique hoff hr (List.mem_of_find?_eq_some hf) (hbank.trans hbank'.symm) hmatch hmatch'
    exact if_pos hindex

/-- Where no row covers the offset the lookup answers nothing. -/
theorem rowLookup_eq_none {n off : Nat} {b : Bank} (hoff : off < 2 ^ 17)
    (h : ∀ r ∈ decodeRows n, ¬ Covers b off r) : rowLookup n b off = none := by
  unfold rowLookup
  split
  · rfl
  next r hf =>
    have hr := List.mem_of_find?_eq_some hf
    have hsel := List.find?_some hf
    simp only [Bool.and_eq_true, decide_eq_true_eq, beq_iff_eq] at hsel
    obtain ⟨hbank, hmatch⟩ := hsel
    rw [decodeRows_mask_iff hr hoff] at hmatch
    refine if_neg fun hindex => h r hr ⟨hbank, ?_⟩
    rw [inWindow_iff]
    omega

/-! ## The model's own selection -/

/-- The model has each register of each row at the row's place for it. -/
theorem bankReg_at_row (c : Config) :
    ∀ r ∈ decodeRows c.nIds, ∀ k < r.count, bankReg c.nIds r.bank (r.pattern + 4 * k) = some (r.reg k) := by
  have hD := bankReg_windows c .D
  have hR := bankReg_windows c .R
  simp only [imp_and, forall_and, idsOf, windowBase, sgiOff, Nat.reduceDiv, Nat.reduceAdd] at hD hR
  obtain ⟨⟨hgrpD, hsetEnD, hclrEnD, hsetPendD, hclrPendD⟩, hpriD, hcfgD⟩ := hD
  obtain ⟨⟨hgrpR, hsetEnR, hclrEnR, hsetPendR, hclrPendR⟩, hpriR, hcfgR⟩ := hR
  have hctlr : ∀ k < 1, bankReg c.nIds .D (0x000 + 4 * k) = some .ctlr := by simp
  have hwaker : ∀ k < 1, bankReg c.nIds .R (0x014 + 4 * k) = some .waker := by simp
  simp only [decodeRows, List.forall_mem_cons]
  exact ⟨hctlr, hgrpD, hsetEnD, hclrEnD, hsetPendD, hclrPendD, hpriD, bankReg_tgt c, hcfgD, hwaker, hgrpR, hsetEnR,
    hclrEnR, hsetPendR, hclrPendR, hpriR, hcfgR, List.forall_mem_nil _⟩

theorem bankReg_of_covers {c : Config} {b : Bank} {off : Nat} {r : DecodeRow} (halign : off % 4 = 0)
    (hr : r ∈ decodeRows c.nIds) (hc : Covers b off r) :
    bankReg c.nIds b off = some (r.reg ((off - r.pattern) / 4)) := by
  obtain ⟨rfl, hwin⟩ := hc
  rw [inWindow_iff] at hwin
  have hword : r.pattern % 4 = 0 := by
    revert r
    simp [decodeRows]
  have hplace : r.pattern + 4 * ((off - r.pattern) / 4) = off := by omega
  have hat := bankReg_at_row c r hr ((off - r.pattern) / 4) (by omega)
  rwa [hplace] at hat

/-- A window of the SGI region, from the beginning of the bank. -/
theorem inWindow_sub_sgiOff {base count off : Nat} (h : sgiOff ≤ off) :
    inWindow base count (off - sgiOff) = inWindow (sgiOff + base) count off := by
  rw [Bool.eq_iff_iff, inWindow_iff, inWindow_iff]
  omega

/-- Where no row covers the offset the model has no register. -/
theorem bankReg_eq_none {n off : Nat} {b : Bank} (h : ∀ r ∈ decodeRows n, ¬ Covers b off r) :
    bankReg n b off = none := by
  cases b with
  | D =>
    simp [decodeRows, Covers] at h
    simp [bankReg, windowReg, h]
  | R =>
    simp [decodeRows, Covers] at h
    by_cases hs : sgiOff ≤ off
    · have hwindows : windowReg 32 (off - sgiOff) = none := by
        simp only [windowReg, inWindow_sub_sgiOff hs]
        simp [sgiOff, h]
      simp [bankReg, hwindows, h]
    · simp [bankReg, hs, h]

/-- Settles O5: a row that covers the offset gives both sides their register; without one both answer nothing. -/
theorem offsetSelectsTheTabledRegister : Obligations.OffsetSelectsTheTabledRegister := by
  intro c b off hoff halign
  by_cases h : ∃ r ∈ decodeRows c.nIds, Covers b off r
  · obtain ⟨r, hr, hc⟩ := h
    obtain ⟨-, hn, -⟩ := nIds_bounds c
    rw [bankReg_of_covers halign hr hc, rowLookup_of_covers hn hoff hr hc]
  · have hnone : ∀ r ∈ decodeRows c.nIds, ¬ Covers b off r := fun r hr hc => h ⟨r, hr, hc⟩
    rw [bankReg_eq_none hnone, rowLookup_eq_none hoff hnone]

end Sys2Proof.Proofs
end

section
/-!
PROOFS. The family of 30_encoding.md: decoding undoes encoding (O1), a legal word is its command's own word (O2), sample
words of every format (O3), and exactly the illegal words are refused and answered `ERR_ILLEGAL` (O4).
-/

namespace Sys2Proof.Proofs

open Sys2Proof Sys2Proof.Machine Sys2Proof.Claims

/-! ## Fields and masks of a word -/

theorem extractLsb'_eq_zero_iff_bits (x : Word) (start len : Nat) :
    x.extractLsb' start len = 0#len ↔ ∀ i, start ≤ i → i < start + len → x.getLsbD i = false := by
  constructor
  · intro h i hlo hhi
    obtain ⟨j, rfl⟩ := Nat.exists_eq_add_of_le hlo
    have hj : j < len := by omega
    simpa [hj] using congrArg (BitVec.getLsbD · j) h
  · intro h
    refine BitVec.eq_of_getLsbD_eq fun i hi => ?_
    simp [hi, h (start + i) (by omega) (by omega)]

/-- The mask of the field of `len` bits from bit `start` on. -/
def fieldMask (start len : Nat) : Word := BitVec.ofNat 32 (2 ^ len - 1) <<< start

/-- A field is zero exactly if the word is zero under the field's mask. -/
theorem and_fieldMask_eq_zero_iff (x : Word) (start len : Nat) (h : start + len ≤ 32) :
    x &&& fieldMask start len = 0#32 ↔ x.extractLsb' start len = 0#len := by
  have hbit (i : Nat) : (fieldMask start len).getLsbD i = decide (start ≤ i ∧ i < start + len) := by
    simp only [fieldMask, BitVec.getLsbD_shiftLeft, BitVec.getLsbD_ofNat, Nat.testBit_two_pow_sub_one]
    grind
  rw [extractLsb'_eq_zero_iff_bits]
  constructor
  · intro hz i hlo hhi
    simpa [hbit, hlo, hhi] using congrArg (BitVec.getLsbD · i) hz
  · intro hz
    refine BitVec.eq_of_getLsbD_eq fun i _ => ?_
    by_cases hin : start ≤ i ∧ i < start + len
    · simp [hz i hin.1 hin.2]
    · simp [hbit, hin]

/-- A word is zero under two masks together exactly if it is under each. -/
theorem and_or_eq_zero_iff (x a b : Word) : x &&& (a ||| b) = 0#32 ↔ x &&& a = 0#32 ∧ x &&& b = 0#32 := by
  rw [BitVec.and_or_distrib_left, BitVec.or_eq_zero_iff]

/-- A field's number, by shift and mask. -/
theorem extractLsb'_toNat_eq_shift_and (x : Word) (start : Nat) {len : Nat} (h : len ≤ 32) :
    (x.extractLsb' start len).toNat = (x >>> start &&& BitVec.ofNat 32 (2 ^ len - 1)).toNat := by
  have hlt : 2 ^ len - 1 < 2 ^ 32 := by
    have hpow := Nat.pow_le_pow_right (n := 2) (by decide) h
    omega
  rw [BitVec.toNat_and, BitVec.toNat_ofNat, Nat.mod_eq_of_lt hlt, Nat.and_two_pow_sub_one_eq_mod,
    BitVec.extractLsb'_toNat, BitVec.toNat_ushiftRight]

theorem op_toNat (d : Descriptor) : d.op.toNat = (d.cw >>> 24).toNat := by
  have hlt := d.cw.isLt
  simp only [Descriptor.op, BitVec.extractLsb'_toNat, BitVec.toNat_ushiftRight, Nat.shiftRight_eq_div_pow]
  omega

/-! ## The fields of a legal word make up the word (30_encoding.md R111 to R115) -/

theorem bankOfBit_bit (b : BitVec 1) : (bankOfBit b).bit = b := by
  obtain rfl | rfl := BitVec.eq_zero_or_eq_one b <;> rfl

theorem wordN_of_zero {d : Descriptor} (h : d.cw.extractLsb' 0 24 = 0#24) : wordN d.op = d.cw := by
  rw [extractLsb'_eq_zero_iff_bits] at h
  refine BitVec.eq_of_getLsbD_eq fun i hi => ?_
  rw [wordN_bit]
  simp only [Descriptor.op, BitVec.getLsbD_extractLsb']
  grind

theorem wordI_of_zero {d : Descriptor} (h : d.cw.extractLsb' 10 6 = 0#6) : wordI d.op d.val d.id = d.cw := by
  rw [extractLsb'_eq_zero_iff_bits] at h
  refine BitVec.eq_of_getLsbD_eq fun i hi => ?_
  rw [wordI_bit]
  simp only [Descriptor.op, Descriptor.val, Descriptor.id, BitVec.getLsbD_extractLsb']
  grind

theorem wordM_of_zero {d : Descriptor} (h : d.cw.extractLsb' 17 6 = 0#6) : wordM d.op d.bank d.off = d.cw := by
  rw [extractLsb'_eq_zero_iff_bits] at h
  refine BitVec.eq_of_getLsbD_eq fun i hi => ?_
  rw [wordM_bit]
  simp only [Descriptor.op, Descriptor.bank, Descriptor.off, bankOfBit_bit, BitVec.getLsbD_extractLsb']
  grind

theorem wordF_of_zero {d : Descriptor} (h : d.cw.extractLsb' 17 3 = 0#3) :
    wordF d.op d.bank d.wlog d.off = d.cw := by
  rw [extractLsb'_eq_zero_iff_bits] at h
  refine BitVec.eq_of_getLsbD_eq fun i hi => ?_
  rw [wordF_bit]
  simp only [Descriptor.op, Descriptor.bank, Descriptor.wlog, Descriptor.off, bankOfBit_bit,
    BitVec.getLsbD_extractLsb']
  grind

theorem sel_of_sysRegOfSel {sel : BitVec 5} {r : SysReg} (h : sysRegOfSel sel = some r) : r.sel = sel := by
  unfold sysRegOfSel at h
  split at h <;> cases h <;> exact BitVec.eq_of_toNat_eq (Eq.symm ‹_›)

theorem sysRegOfSel_eq_none_iff (sel : BitVec 5) : sysRegOfSel sel = none ↔ 12 < sel.toNat := by
  revert sel
  decide

theorem wordS_of_zero {d : Descriptor} {r : SysReg} (h : d.cw.extractLsb' 5 19 = 0#19)
    (hr : sysRegOfSel d.sel = some r) : wordS d.op r = d.cw := by
  rw [extractLsb'_eq_zero_iff_bits] at h
  refine BitVec.eq_of_getLsbD_eq fun i hi => ?_
  rw [wordS_bit, sel_of_sysRegOfSel hr]
  simp only [Descriptor.op, Descriptor.sel, BitVec.getLsbD_extractLsb']
  grind

/-! ## What each format accepts (30_encoding.md R111 to R115, R122, R125) -/

theorem decodeN_ok_iff {d : Descriptor} {i j : Instr} :
    decodeN d i = .ok j ↔ d.cw.extractLsb' 0 24 = 0#24 ∧ i = j := by
  unfold decodeN
  split <;> simp [*]

theorem decodeI_ok_iff {d : Descriptor} {k : BitVec 10 → Instr} {j : Instr} :
    decodeI d k = .ok j ↔ (d.cw.extractLsb' 10 6 = 0#6 ∧ d.val = 0#8) ∧ k d.id = j := by
  unfold decodeI
  split <;> [split; skip] <;> simp [*]

theorem decodeIV_ok_iff {d : Descriptor} {k : BitVec 10 → BitVec 8 → Instr} {j : Instr} :
    decodeIV d k = .ok j ↔ d.cw.extractLsb' 10 6 = 0#6 ∧ k d.id d.val = j := by
  unfold decodeIV
  split <;> simp [*]

theorem decodeIG_ok_iff {d : Descriptor} {k : BitVec 10 → BitVec 8 → Instr} {j : Instr} :
    decodeIG d k = .ok j ↔ (d.cw.extractLsb' 10 6 = 0#6 ∧ groupLegal d.val = true) ∧ k d.id d.val = j := by
  unfold decodeIG
  split <;> [split; skip] <;> simp [*]

theorem decodeM_ok_iff {d : Descriptor} {k : Bank → BitVec 17 → Instr} {j : Instr} :
    decodeM d k = .ok j ↔ d.cw.extractLsb' 17 6 = 0#6 ∧ k d.bank d.off = j := by
  unfold decodeM
  split <;> simp [*]

theorem decodeS_ok_iff {d : Descriptor} {k : SysReg → Instr} {j : Instr} :
    decodeS d k = .ok j ↔ d.cw.extractLsb' 5 19 = 0#19 ∧ ∃ r, sysRegOfSel d.sel = some r ∧ k r = j := by
  unfold decodeS
  split <;> [split; skip] <;> simp [*]

theorem decodeF_ok_iff {d : Descriptor} {k : Bank → BitVec 3 → BitVec 17 → Instr} {j : Instr} :
    decodeF d k = .ok j ↔
      (d.cw.extractLsb' 17 3 = 0#3 ∧ wlogLegal d.wlog = true) ∧ k d.bank d.wlog d.off = j := by
  unfold decodeF
  split <;> [split; skip] <;> simp [*]

/-! ## The decoder, format by format (30_encoding.md R116, R130) -/

/-- The decoder reads `d` by the rules of a format, and every command the format's fields can name is well formed and
has the word made of `d`'s opcode and those fields; without a format the opcode is reserved. -/
inductive DecodesBy (d : Descriptor) : Option Format → Prop where
  | reserved (h : decode d = .error (.reservedOpcode d.op)) : DecodesBy d none
  | N (i : Instr) (h : decode d = decodeN d i) (hwf : i.wellFormed = true) (hcw : (encode i).cw = wordN d.op) :
      DecodesBy d (some .N)
  | I (k : BitVec 10 → Instr) (h : decode d = decodeI d k) (hwf : ∀ id, (k id).wellFormed = true)
      (hcw : ∀ id, (encode (k id)).cw = wordI d.op 0#8 id) : DecodesBy d (some .I)
  | IV (k : BitVec 10 → BitVec 8 → Instr) (h : decode d = decodeIV d k) (hwf : ∀ id v, (k id v).wellFormed = true)
      (hcw : ∀ id v, (encode (k id v)).cw = wordI d.op v id) : DecodesBy d (some .IV)
  | IG (k : BitVec 10 → BitVec 8 → Instr) (h : decode d = decodeIG d k)
      (hwf : ∀ id v, (k id v).wellFormed = groupLegal v) (hcw : ∀ id v, (encode (k id v)).cw = wordI d.op v id) :
      DecodesBy d (some .IG)
  | M (k : Bank → BitVec 17 → Instr) (h : decode d = decodeM d k) (hwf : ∀ b off, (k b off).wellFormed = true)
      (hcw : ∀ b off, (encode (k b off)).cw = wordM d.op b off) : DecodesBy d (some .M)
  | S (k : SysReg → Instr) (h : decode d = decodeS d k) (hwf : ∀ r, (k r).wellFormed = true)
      (hcw : ∀ r, (encode (k r)).cw = wordS d.op r) : DecodesBy d (some .S)
  | F (k : Bank → BitVec 3 → BitVec 17 → Instr) (h : decode d = decodeF d k)
      (hwf : ∀ b w base, (k b w base).wellFormed = wlogLegal w)
      (hcw : ∀ b w base, (encode (k b w base)).cw = wordF d.op b w base) : DecodesBy d (some .F)

theorem op_eq_ofNat {d : Descriptor} {n : Nat} (h : d.op.toNat = n) : d.op = BitVec.ofNat 8 n := by
  rw [← h, BitVec.ofNat_toNat, BitVec.setWidth_eq]

/-- The decoder reads every descriptor by the format that the table of R116 has for its opcode: each opcode of the
format's list selects the command that the encoder gives that opcode. -/
theorem decode_by_format (d : Descriptor) : DecodesBy d (formatOf d.op.toNat) := by
  unfold formatOf
  split_ifs with hM hS hF hN hIG hIV hI
  all_goals simp only [List.mem_cons, List.not_mem_nil, or_false, not_or] at *
  · rcases hM with h | h <;>
      exact .M _ (by simp only [decode, h]; rfl) (by intros; rfl) (by intros; rw [op_eq_ofNat h]; rfl)
  · rcases hS with h | h <;>
      exact .S _ (by simp only [decode, h]; rfl) (by intros; rfl) (by intros; rw [op_eq_ofNat h]; rfl)
  · rcases hF with h | h <;>
      exact .F _ (by simp only [decode, h]; rfl) (by intros; rfl) (by intros; rw [op_eq_ofNat h]; rfl)
  · rcases hN with h | h | h | h | h | h | h | h | h | h | h | h | h | h | h <;>
      exact .N _ (by simp only [decode, h]; rfl) rfl (by rw [op_eq_ofNat h]; rfl)
  · rcases hIG with h | h <;>
      exact .IG _ (by simp only [decode, h]; rfl) (by intros; rfl) (by intros; rw [op_eq_ofNat h]; rfl)
  · rcases hIV with h | h | h | h | h <;>
      exact .IV _ (by simp only [decode, h]; rfl) (by intros; rfl) (by intros; rw [op_eq_ofNat h]; rfl)
  · rcases hI with h | h | h | h | h | h | h | h | h | h | h <;>
      exact .I _ (by simp only [decode, h]; rfl) (by intros; rfl) (by intros; rw [op_eq_ofNat h]; rfl)
  · exact .reserved (by simp [decode, *])

/-! ## The data operand (30_encoding.md R110, R115) -/

@[simp] theorem dataLow_setWidth (cw v : Word) : (Descriptor.mk cw (v.setWidth 64)).dataLow = v := by
  refine BitVec.eq_of_getLsbD_eq fun i hi => ?_
  simp only [Descriptor.dataLow, BitVec.getLsbD_extractLsb', BitVec.getLsbD_setWidth]
  grind

/-- The bits of FWR's data operand, from the top: the ignored 16, the value, the index. -/
theorem fwrData_bit (v : BitVec 16) (index : Word) (i : Nat) : BitVec.getLsbD (w := 64) (0#16 ++ v ++ index) i =
    if i < 32 then index.getLsbD i else v.getLsbD (i - 32) := by
  erw [BitVec.getLsbD_append, BitVec.getLsbD_append]
  grind

@[simp] theorem dataLow_append (cw index : Word) (v : BitVec 16) :
    (Descriptor.mk cw (0#16 ++ v ++ index)).dataLow = index := by
  refine BitVec.eq_of_getLsbD_eq fun i hi => ?_
  simp only [Descriptor.dataLow, BitVec.getLsbD_extractLsb', fwrData_bit]
  grind

@[simp] theorem dataMid_append (cw index : Word) (v : BitVec 16) :
    (Descriptor.mk cw (0#16 ++ v ++ index)).dataMid = v := by
  refine BitVec.eq_of_getLsbD_eq fun i hi => ?_
  simp only [Descriptor.dataMid, BitVec.getLsbD_extractLsb', fwrData_bit]
  grind

/-! ## Decoding the encoder's words, format by format -/

theorem decodeN_wordN (op : BitVec 8) (x : DWord) (i : Instr) : decodeN ⟨wordN op, x⟩ i = .ok i :=
  decodeN_ok_iff.mpr ⟨wordN_zero op, rfl⟩

theorem decodeI_wordI (op : BitVec 8) (id : BitVec 10) (x : DWord) (k : BitVec 10 → Instr) :
    decodeI ⟨wordI op 0#8 id, x⟩ k = .ok (k id) :=
  decodeI_ok_iff.mpr ⟨⟨wordI_zero op _ id, wordI_val op _ id x⟩, by rw [wordI_id]⟩

theorem decodeIV_wordI (op v : BitVec 8) (id : BitVec 10) (x : DWord) (k : BitVec 10 → BitVec 8 → Instr) :
    decodeIV ⟨wordI op v id, x⟩ k = .ok (k id v) :=
  decodeIV_ok_iff.mpr ⟨wordI_zero op v id, by rw [wordI_id, wordI_val]⟩

theorem decodeIG_wordI (op : BitVec 8) {v : BitVec 8} (id : BitVec 10) (x : DWord)
    (k : BitVec 10 → BitVec 8 → Instr) (hv : groupLegal v = true) : decodeIG ⟨wordI op v id, x⟩ k = .ok (k id v) :=
  decodeIG_ok_iff.mpr ⟨⟨wordI_zero op v id, by rwa [wordI_val]⟩, by rw [wordI_id, wordI_val]⟩

theorem decodeM_wordM (op : BitVec 8) (b : Bank) (off : BitVec 17) (x : DWord) (k : Bank → BitVec 17 → Instr) :
    decodeM ⟨wordM op b off, x⟩ k = .ok (k b off) :=
  decodeM_ok_iff.mpr ⟨wordM_zero op b off, by rw [wordM_bank, wordM_off]⟩

theorem decodeS_wordS (op : BitVec 8) (r : SysReg) (x : DWord) (k : SysReg → Instr) :
    decodeS ⟨wordS op r, x⟩ k = .ok (k r) :=
  decodeS_ok_iff.mpr ⟨wordS_zero op r, r, by rw [wordS_sel, sysRegOfSel_sel], rfl⟩

theorem decodeF_wordF (op : BitVec 8) (b : Bank) {w : BitVec 3} (base : BitVec 17) (x : DWord)
    (k : Bank → BitVec 3 → BitVec 17 → Instr) (hw : wlogLegal w = true) :
    decodeF ⟨wordF op b w base, x⟩ k = .ok (k b w base) :=
  decodeF_ok_iff.mpr ⟨⟨wordF_zero op b w base, by rwa [wordF_wlog]⟩, by rw [wordF_bank, wordF_wlog, wordF_base]⟩

/-- Settles O1: the opcode of the encoder's word selects the command's format, whose fields read back. -/
theorem decodeInvertsEncode : Obligations.DecodeInvertsEncode := by
  intro i hwf
  cases i with
  | rd32 b off | wr32 b off v => simp [decode, encode, wordM_op, decodeM_wordM]
  | srrd r | srwr r v => simp [decode, encode, wordS_op, decodeS_wordS]
  | frd b w base index | fwr b w base index v => simp [decode, encode, wordF_op, decodeF_wordF _ _ _ _ _ hwf]
  | dSetGrp id v | rSetGrp id v => simp [decode, encode, wordI_op, decodeIG_wordI _ _ _ _ hwf]
  | dSetPri id v | dSetTgt id v | dSetCfg id v | rSetPri id v | rSetCfg id v =>
    simp [decode, encode, wordI_op, decodeIV_wordI]
  | dSetEn id | dClrEn id | dSetPend id | dClrPend id | dGetPend id | rSetEn id | rClrEn id | rGetPri id
  | rSetPend id | rClrPend id | rGetPend id => simp [decode, encode, wordI_op, decodeI_wordI]
  | _ => simp [decode, encode, wordN_op, decodeN_wordN]

/-! ## The word of a decoded command -/

/-- A format accepts only words that its fields make up, and names well-formed commands. -/
theorem DecodesBy.ok_wordOf {d : Descriptor} {f : Option Format} {i : Instr} (hf : DecodesBy d f)
    (hi : decode d = .ok i) : i.wellFormed = true ∧ (encode i).cw = d.cw := by
  cases hf with
  | reserved h => simp [h] at hi
  | N j h hwf hcw =>
    obtain ⟨hz, rfl⟩ := decodeN_ok_iff.mp (h.symm.trans hi)
    exact ⟨hwf, hcw.trans (wordN_of_zero hz)⟩
  | I k h hwf hcw =>
    obtain ⟨⟨hz, hv⟩, rfl⟩ := decodeI_ok_iff.mp (h.symm.trans hi)
    exact ⟨hwf _, (hcw _).trans (hv ▸ wordI_of_zero hz)⟩
  | IV k h hwf hcw =>
    obtain ⟨hz, rfl⟩ := decodeIV_ok_iff.mp (h.symm.trans hi)
    exact ⟨hwf _ _, (hcw _ _).trans (wordI_of_zero hz)⟩
  | IG k h hwf hcw =>
    obtain ⟨⟨hz, hv⟩, rfl⟩ := decodeIG_ok_iff.mp (h.symm.trans hi)
    exact ⟨(hwf _ _).trans hv, (hcw _ _).trans (wordI_of_zero hz)⟩
  | M k h hwf hcw =>
    obtain ⟨hz, rfl⟩ := decodeM_ok_iff.mp (h.symm.trans hi)
    exact ⟨hwf _ _, (hcw _ _).trans (wordM_of_zero hz)⟩
  | S k h hwf hcw =>
    obtain ⟨hz, r, hr, rfl⟩ := decodeS_ok_iff.mp (h.symm.trans hi)
    exact ⟨hwf _, (hcw _).trans (wordS_of_zero hz hr)⟩
  | F k h hwf hcw =>
    obtain ⟨⟨hz, hw⟩, rfl⟩ := decodeF_ok_iff.mp (h.symm.trans hi)
    exact ⟨(hwf _ _ _).trans hw, (hcw _ _ _).trans (wordF_of_zero hz)⟩

/-- Settles O2, by the format of the opcode. -/
theorem decodedWordIsTheCommandsOwn : Obligations.DecodedWordIsTheCommandsOwn :=
  fun d _ hi => (decode_by_format d).ok_wordOf hi

/-- Settles O3: the decoder is run on each word. -/
theorem sampleWordsDecode : Obligations.SampleWordsDecode :=
  ⟨rfl, rfl, rfl, rfl, rfl, rfl, rfl, rfl, rfl, rfl, rfl⟩

/-! ## The words the decoder refuses (30_encoding.md R125) -/

theorem exists_error_iff {ε α : Type} {x : Except ε α} : (∃ e, x = .error e) ↔ ¬ ∃ a, x = .ok a := by
  cases x <;> simp

/-- `val` has bits 7:1 zero exactly if they are zero in the word. -/
theorem groupLegal_val_iff (d : Descriptor) : groupLegal d.val = true ↔ d.cw.extractLsb' 17 7 = 0#7 := by
  simp only [groupLegal, decide_eq_true_eq, Descriptor.val, ← BitVec.toNat_inj, BitVec.extractLsb'_toNat,
    Nat.shiftRight_eq_div_pow, BitVec.toNat_ofNat]
  omega

theorem wlogLegal_wlog_iff (d : Descriptor) : wlogLegal d.wlog = true ↔ ¬ 4 < (d.cw >>> 20 &&& 7#32).toNat := by
  rw [wlogLegal, decide_eq_true_eq, Nat.not_lt, Descriptor.wlog, extractLsb'_toNat_eq_shift_and d.cw 20 (by decide)]
  rfl

theorem exists_sysRegOfSel_iff (d : Descriptor) :
    (∃ r, sysRegOfSel d.sel = some r) ↔ ¬ 12 < (d.cw &&& 0x1F#32).toNat := by
  rw [← Option.ne_none_iff_exists', ne_eq, sysRegOfSel_eq_none_iff, Descriptor.sel,
    extractLsb'_toNat_eq_shift_and d.cw 0 (by decide), BitVec.ushiftRight_zero]
  rfl

/-! The masks of R125 take the fields that the formats check. -/

theorem and_maskN_eq_zero_iff (cw : Word) : cw &&& 0x00FFFFFF#32 = 0#32 ↔ cw.extractLsb' 0 24 = 0#24 :=
  and_fieldMask_eq_zero_iff cw 0 24 (by decide)

theorem and_maskIV_eq_zero_iff (cw : Word) : cw &&& 0x0000FC00#32 = 0#32 ↔ cw.extractLsb' 10 6 = 0#6 :=
  and_fieldMask_eq_zero_iff cw 10 6 (by decide)

theorem and_maskM_eq_zero_iff (cw : Word) : cw &&& 0x007E0000#32 = 0#32 ↔ cw.extractLsb' 17 6 = 0#6 :=
  and_fieldMask_eq_zero_iff cw 17 6 (by decide)

theorem and_maskS_eq_zero_iff (cw : Word) : cw &&& 0x00FFFFE0#32 = 0#32 ↔ cw.extractLsb' 5 19 = 0#19 :=
  and_fieldMask_eq_zero_iff cw 5 19 (by decide)

theorem and_maskF_eq_zero_iff (cw : Word) : cw &&& 0x000E0000#32 = 0#32 ↔ cw.extractLsb' 17 3 = 0#3 :=
  and_fieldMask_eq_zero_iff cw 17 3 (by decide)

theorem and_maskI_eq_zero_iff (cw : Word) :
    cw &&& 0x00FFFC00#32 = 0#32 ↔ cw.extractLsb' 10 6 = 0#6 ∧ cw.extractLsb' 16 8 = 0#8 := by
  rw [← and_fieldMask_eq_zero_iff cw 10 6 (by decide), ← and_fieldMask_eq_zero_iff cw 16 8 (by decide),
    ← and_or_eq_zero_iff]
  rfl

theorem and_maskIG_eq_zero_iff (cw : Word) :
    cw &&& 0x00FEFC00#32 = 0#32 ↔ cw.extractLsb' 10 6 = 0#6 ∧ cw.extractLsb' 17 7 = 0#7 := by
  rw [← and_fieldMask_eq_zero_iff cw 10 6 (by decide), ← and_fieldMask_eq_zero_iff cw 17 7 (by decide),
    ← and_or_eq_zero_iff]
  rfl

/-- What a format refuses is what R125 calls illegal of it. -/
theorem DecodesBy.error_iff {d : Descriptor} (hf : DecodesBy d (formatOf d.op.toNat)) :
    (∃ e, decode d = .error e) ↔ IllegalWord d.cw := by
  rw [exists_error_iff]
  unfold IllegalWord
  rw [← op_toNat]
  generalize formatOf d.op.toNat = f at hf ⊢
  cases hf with
  | reserved h => simp [h]
  | N i h => simp [h, decodeN_ok_iff, and_maskN_eq_zero_iff]
  | I k h => simp [h, decodeI_ok_iff, and_maskI_eq_zero_iff, Descriptor.val]
  | IV k h => simp [h, decodeIV_ok_iff, and_maskIV_eq_zero_iff]
  | IG k h => simp [h, decodeIG_ok_iff, and_maskIG_eq_zero_iff, groupLegal_val_iff]
  | M k h => simp [h, decodeM_ok_iff, and_maskM_eq_zero_iff]
  | S k h =>
    have hok : (∃ j, decodeS d k = .ok j) ↔
        d.cw.extractLsb' 5 19 = 0#19 ∧ ∃ r, sysRegOfSel d.sel = some r := by simp [decodeS_ok_iff]
    rw [h, hok, exists_sysRegOfSel_iff, not_and_or, not_not, ← and_maskS_eq_zero_iff]
  | F k h =>
    have hok : (∃ j, decodeF d k = .ok j) ↔ d.cw.extractLsb' 17 3 = 0#3 ∧ wlogLegal d.wlog = true := by
      simp [decodeF_ok_iff]
    rw [h, hok, wlogLegal_wlog_iff, not_and_or, not_not, ← and_maskF_eq_zero_iff]

/-! ## The step that takes up an illegal word -/

theorem mainStep_of_illegal {s : State} {d : Descriptor} {rest : List Descriptor} {e : DecodeError}
    (pe : Option PeRegs) (hm : s.seq.mainCmd = none) (hc : s.env.cmdIn = d :: rest) (he : decode d = .error e) :
    mainStep pe s = .next (illegalWord (applyPe pe { s with env.cmdIn := rest })) := by
  simp only [mainStep, hm, hc, he]

/-- The highest-priority pending interrupt depends neither on the response nor on the environment. -/
theorem hppi_withRspEnv (s : State) (r : Rsp) (e : Env) : hppi { s with rsp := r, env := e } = hppi s := by
  have hbest (n : Nat) : bestBelow { s with rsp := r, env := e } n = bestBelow s n := by
    induction n with
    | zero => rfl
    | succ n ih =>
      have hcand : cand { s with rsp := r, env := e } n = cand s n := rfl
      have hpri (k : Nat) : priority { s with rsp := r, env := e } (bankOf { s with rsp := r, env := e } k) k =
        priority s (bankOf s k) k := rfl
      simp only [bestBelow, ih, hcand, hpri]
  exact hbest s.nIds

theorem group0InDelivery_withRspEnv (s : State) (r : Rsp) (e : Env) :
    group0InDelivery { s with rsp := r, env := e } = group0InDelivery s := by
  simp only [group0InDelivery, hppi_withRspEnv]
  rfl

/-- Nothing after the step disturbs a state that differs from the one before in its response and environment only. -/
theorem settle_withRspEnv {s : State} (r : Rsp) (e : Env) (hg : group0InDelivery s = false) :
    settle (beginStep s) { s with rsp := r, env := e } = .next { s with rsp := r, env := e } := by
  have hedge : edgeCapture (beginStep s) { s with rsp := r, env := e } = { s with rsp := r, env := e } :=
    edgeCapture_of_line rfl
  rw [settle, hedge, group0InDelivery_withRspEnv, hg]
  rfl

/-- Settles O4: the formats refuse the illegal words, and the step that takes one up only writes the response. -/
theorem illegalWordsAnswerIllegal : Obligations.IllegalWordsAnswerIllegal := by
  refine ⟨fun d => (decode_by_format d).error_iff, ?_⟩
  intro s d rest es hillegal hf hh hd hm hc hs hg
  obtain ⟨e, he⟩ := (decode_by_format d).error_iff.mpr hillegal
  obtain rfl : s.env.sched.tail = es := by rw [hs, List.tail_cons]
  rw [step_of_fault_none hf, nextEvent_of_sched hs, agentStep_main (s := beginStep s) none hh hd,
    mainStep_of_illegal (s := beginStep s) none hm hc he, illegalWord,
    respond_idle (s := applyPe none { beginStep s with env.cmdIn := rest }) hm]
  exact settle_withRspEnv (answered 15#4 0#64) _ hg

end Sys2Proof.Proofs
end

section
/-!
PROOFS. The family of 40_transactions.md, first part: what stands behind the wake handshake and the gates of `D_CTLR`
and `ICC_SRE` (O59), and the step of `WAKE` (O30).
-/

namespace Sys2Proof.Proofs

open Sys2Proof Sys2Proof.Machine Sys2Proof.Claims

/-! ## What the two invariants read -/

/-- The parts of the state that the wake handshake and the gates speak of (40_transactions.md R142, R148, R149,
R163). -/
structure GateFrame where
  ps : Bool
  ca : Bool
  rEnables : Vector Word 1
  sre : Bool
  grp1en : Bool
  pmr : BitVec 8
  orch : Orch
  ctlr : DCtlr
  sreSticks : Bool

/-- Those parts of a state. -/
def gateFrame (s : State) : GateFrame where
  ps := s.redist.ps
  ca := s.redist.ca
  rEnables := s.redist.arr.en
  sre := s.cpu.sre
  grp1en := s.cpu.grp1en
  pmr := s.cpu.pmr
  orch := s.seq.orch
  ctlr := s.dist.ctlr
  sreSticks := s.cfg.sreSticks

theorem gateFrame_acknowledge (s : State) (id : Nat) : gateFrame (acknowledge s id) = gateFrame s := by
  have hen : (acknowledge s id).redist.arr.en = s.redist.arr.en := by
    unfold acknowledge
    cases bankOf s id <;> rfl
  simp [gateFrame, hen]

theorem gateFrame_endOfInterrupt (s : State) : gateFrame (endOfInterrupt s) = gateFrame s := by
  simp [gateFrame]

theorem gateFrame_edgeCapture (a s : State) : gateFrame (edgeCapture a s) = gateFrame s := by
  obtain ⟨d, r, hframe⟩ := edgeCapture_frame a s
  rw [hframe]
  rfl

theorem gateFrame_syncEnter {s t : State} (h : syncEnter s = .ok t) : gateFrame t = gateFrame s := by
  obtain ⟨-, rfl⟩ := syncEnter_ok h
  rfl

theorem gateFrame_handlerStep {s u : State} (h : handlerStep s = .next u) : gateFrame u = gateFrame s := by
  obtain ⟨rfl, -, -⟩ | ⟨-, hu⟩ | ⟨-, rfl⟩ := handlerStep_ok h
  · rfl
  · obtain ⟨rfl, -⟩ | ⟨_, _, -, -, rfl⟩ := handleStep_ok hu <;> rfl
  · unfold ackStep
    split
    · rfl
    · exact gateFrame_acknowledge s _

theorem gateFrame_dispatchStep {s u : State} (h : dispatchStep s = .next u) : gateFrame u = gateFrame s := by
  obtain ⟨rfl, -⟩ | ⟨-, -, hu⟩ | ⟨-, rfl⟩ | ⟨-, rfl⟩ := dispatchStep_ok h
  · rfl
  · obtain ⟨-, rfl⟩ := irqEnter_ok hu
    rfl
  · rfl
  · exact gateFrame_endOfInterrupt s

/-! ## Every step but reset -/

/-- A relation kept by whatever a step can do to those parts: a bank write, a system-register write, a move of the
sequencer, the completion of the handshake, and everything that leaves them alone. -/
structure KeptAtTheGates (R : State → State → Prop) : Prop where
  trans : ∀ s t u, R s t → R t u → R s u
  frame : ∀ s t, gateFrame t = gateFrame s → R s t
  bank : ∀ s b off v t, memWrite s b off v = .ok t → R s t
  store : ∀ s r v, (wakeGated r = true → awake s = true) → R s (sysStore s r v)
  orch : ∀ (s : State) (o : Orch), (pastWake o = true → pastWake s.seq.orch = true ∨ s.redist.ca = false) →
    R s { s with seq.orch := o }
  wake : ∀ s : State, s.redist.ps = false → R s { s with redist.ca := false }

section
variable {R : State → State → Prop} (hR : KeptAtTheGates R)
include hR

theorem KeptAtTheGates.keptByMain : KeptByMain R where
  refl s := hR.frame s s rfl
  trans := hR.trans
  bank := hR.bank
  sys s r v t h := by
    obtain ⟨-, hawake, -, -, rfl⟩ := sysWrite_ok h
    exact hR.store s r v hawake
  unmask s := hR.frame s _ rfl
  ack s id _ := hR.frame s _ (gateFrame_acknowledge s id)
  eoi s := hR.frame s _ (gateFrame_endOfInterrupt s)
  delta s _ := hR.frame s _ rfl
  diag s _ := hR.frame s _ rfl
  orch := hR.orch
  respond s _ _ := hR.frame s _ rfl
  inFlight s _ _ _ := hR.frame s _ rfl

theorem KeptAtTheGates.mainStep {pe : Option PeRegs} {s u : State} (h : mainStep pe s = .next u) : R s u := by
  obtain rfl | ⟨x, pc, cs, ⟨i, hu⟩ | rfl⟩ := mainStep_ok h
  · exact hR.frame _ _ rfl
  · refine hR.trans s { s with pe.x := x, pe.pc := pc, env.cmdIn := cs } u (hR.frame _ _ rfl) ?_
    obtain hkept | htrap := exec_cases hR.keptByMain hu
    · exact hkept
    · exact hR.frame _ _ (gateFrame_syncEnter htrap)
  · exact hR.frame _ _ rfl

theorem KeptAtTheGates.agentStep {e : Event} {s u : State} (he : e ≠ .reset) (h : agentStep e s = .next u) :
    R s u := by
  obtain rfl | ⟨_, -, -, -, hu⟩ | ⟨-, -, hu⟩ | ⟨-, -, hu⟩ | ⟨-, rfl⟩ | ⟨-, hps, -, rfl⟩ | ⟨hreset, -⟩ :=
    agentStep_ok h
  · exact hR.frame _ _ rfl
  · exact hR.mainStep hu
  · exact hR.frame _ _ (gateFrame_handlerStep hu)
  · exact hR.frame _ _ (gateFrame_dispatchStep hu)
  · exact hR.frame _ _ rfl
  · exact hR.wake s hps
  · exact absurd hreset he

/-- A step is the beginning of the step, the agent's own step and edge capture. -/
theorem KeptAtTheGates.step {s t : State} (he : nextEvent s ≠ .reset) (h : step s = .next t) : R s t := by
  obtain ⟨-, u, hu, rfl, -⟩ := step_ok h
  have hbegin : R s (beginStep s) := hR.frame _ _ rfl
  have hagent : R (beginStep s) u := hR.agentStep he hu
  have hedge : R u (edgeCapture (beginStep s) u) := hR.frame _ _ (gateFrame_edgeCapture _ u)
  exact hR.trans _ _ _ (hR.trans _ _ _ hbegin hagent) hedge

end

/-! ## Awake until reset -/

theorem awake_iff (s : State) : awake s = true ↔ s.redist.ps = false ∧ s.redist.ca = false := by
  simp [awake]

/-- From `s` to `t` an awake redistributor stays awake. -/
def StaysAwake (s t : State) : Prop := awake s = true → awake t = true

theorem awake_of_gateFrame_eq {s t : State} (h : gateFrame t = gateFrame s) : awake t = awake s := by
  obtain ⟨hps, hca, -⟩ := GateFrame.mk.inj h
  simp only [awake, hps, hca]

theorem awake_sysStore (s : State) (r : SysReg) (v : DWord) : awake (sysStore s r v) = awake s := by
  obtain ⟨-, hredist, -⟩ := sysStore_frame s r v
  simp only [awake, hredist]

/-- No bank write puts the redistributor back to sleep (40_transactions.md R148). -/
theorem memWrite_staysAwake {s t : State} {b : Bank} {off : Nat} {v : Word} (h : memWrite s b off v = .ok t) :
    StaysAwake s t := by
  intro ha
  obtain ⟨hps, hca⟩ := (awake_iff s).mp ha
  obtain ⟨hca', hps', -⟩ := memWrite_redist h
  exact (awake_iff t).mpr ⟨hps'.elim (·.trans hps) id, hca'.trans hca⟩

theorem staysAwake_keptAtTheGates : KeptAtTheGates StaysAwake where
  trans _ _ _ hst htu := htu ∘ hst
  frame _ _ h ha := (awake_of_gateFrame_eq h).trans ha
  bank _ _ _ _ _ h := memWrite_staysAwake h
  store s r v _ ha := (awake_sysStore s r v).trans ha
  orch _ _ _ ha := ha
  wake s hps _ := (awake_iff { s with redist.ca := false }).mpr ⟨hps, rfl⟩

/-- `WAKE` has a step exactly where `PS` is 0 and `CA` is 1 (43_redistributor.md R222). -/
theorem wakeStep_of_enabled {s : State} (hps : s.redist.ps = false) (hca : s.redist.ca = true) :
    wakeStep s = { s with redist.ca := false } := by
  simp [wakeStep, hps, hca]

theorem wakeStep_of_not_enabled {s : State} (h : ¬(s.redist.ps = false ∧ s.redist.ca = true)) : wakeStep s = s := by
  simp [wakeStep, h]

/-- Settles O30: the two cases of the step of `WAKE`, and `StaysAwake` along the steps of all agents but `RESET`. -/
theorem wakeResponder : Obligations.WakeResponder := by
  refine ⟨fun s hps hca => ⟨?_, ?_⟩, fun s h => ?_, fun s t ha he h => ?_⟩
  · rw [agentStep, wakeStep_of_enabled hps hca]
  · exact (awake_iff { s with redist.ca := false }).mpr ⟨hps, rfl⟩
  · rw [agentStep, wakeStep_of_not_enabled h]
  · exact staysAwake_keptAtTheGates.step he h ha

/-! ## The wake handshake -/

/-- From `s` to `t` the wake handshake is kept. -/
def KeepsHandshake (s t : State) : Prop := WakeInv s → WakeInv t

theorem enabled_R_eq (s : State) (id : Nat) : enabled s .R id = bitAt (gateFrame s).rEnables id := rfl

/-- The handshake as it stands once the redistributor is awake: nothing is left to ask. -/
theorem wakeInv_of_awake {s : State} (ha : awake s = true) : WakeInv s := by
  obtain ⟨hps, -⟩ := (awake_iff s).mp ha
  refine ⟨fun h => ?_, fun h => ?_, fun _ => ha⟩
  · rw [hps] at h; contradiction
  · rw [ha] at h; contradiction

/-- While the redistributor is asleep the handshake asks that `CA` be 1, that nothing behind it has been written, and
that the bring-up has not passed its wake transition. -/
theorem wakeInv_asleep {s : State} (ha : awake s = false) :
    WakeInv s ↔ s.redist.ca = true ∧
      (s.cpu.sre = false ∧ s.cpu.grp1en = false ∧ s.cpu.pmr = 0#8 ∧ ∀ id, enabled s .R id = false) ∧
      pastWake s.seq.orch = false := by
  have hca : (s.redist.ps = true → s.redist.ca = true) ↔ s.redist.ca = true := by
    cases hps : s.redist.ps <;> cases hca : s.redist.ca <;> simp_all [awake]
  simp [WakeInv, ha, hca]

/-- A redistributor that has its children awake is awake itself. -/
theorem awake_of_wakeInv {s : State} (hi : WakeInv s) (hca : s.redist.ca = false) : awake s = true := by
  obtain ⟨hhand, -, -⟩ := hi
  refine (awake_iff s).mpr ⟨?_, hca⟩
  cases hps : s.redist.ps with
  | false => rfl
  | true => exact absurd (hhand hps) (by simp [hca])

/-- What is asleep after an access that keeps "awake" was asleep before it. -/
theorem StaysAwake.asleep {s t : State} (h : StaysAwake s t) (ht : awake t = false) : awake s = false := by
  cases hs : awake s with
  | false => rfl
  | true => exact absurd (h hs) (by simp [ht])

theorem keepsHandshake_frame {s t : State} (h : gateFrame t = gateFrame s) : KeepsHandshake s t := by
  have ha := awake_of_gateFrame_eq h
  have hen (id : Nat) : enabled t .R id = enabled s .R id := by rw [enabled_R_eq, enabled_R_eq, h]
  obtain ⟨hps, hca, -, hsre, hgrp, hpmr, horch, -, -⟩ := GateFrame.mk.inj h
  intro hi
  simpa only [WakeInv, ha, hen, hps, hca, hsre, hgrp, hpmr, horch] using hi

/-- A bank write while asleep reaches nothing behind the handshake (40_transactions.md R149). -/
theorem memWrite_keepsHandshake {s t : State} {b : Bank} {off : Nat} {v : Word} (h : memWrite s b off v = .ok t) :
    KeepsHandshake s t := by
  intro hi
  cases hat : awake t with
  | true => exact wakeInv_of_awake hat
  | false =>
    have has := (memWrite_staysAwake h).asleep hat
    obtain ⟨-, hcpu, -, hseq, -⟩ := memWrite_frame h
    obtain ⟨hca, -, harr⟩ := memWrite_redist h
    have hen (id : Nat) : enabled t .R id = enabled s .R id := by
      rw [enabled_R_eq, enabled_R_eq, gateFrame, gateFrame, harr has]
    rw [wakeInv_asleep hat, hca, hcpu, hseq]
    simpa only [hen] using (wakeInv_asleep has).mp hi

/-- The system registers that are not behind the handshake leave the CPU interface alone. -/
theorem sysStore_cpu_of_not_wakeGated {r : SysReg} (s : State) (v : DWord) (h : wakeGated r = false) :
    (sysStore s r v).cpu = s.cpu := by
  cases r <;> first | rfl | exact absurd h (by decide)

theorem sysStore_keepsHandshake {s : State} {r : SysReg} (v : DWord) (hw : wakeGated r = true → awake s = true) :
    KeepsHandshake s (sysStore s r v) := by
  intro hi
  cases ha : awake s with
  | true => exact wakeInv_of_awake ((awake_sysStore s r v).trans ha)
  | false =>
    have hr : wakeGated r = false := by
      cases hr : wakeGated r with
      | false => rfl
      | true => exact absurd (hw hr) (by simp [ha])
    obtain ⟨hdist, hredist, hseq, -, -, -, hcfg, -⟩ := sysStore_frame s r v
    refine keepsHandshake_frame ?_ hi
    simp only [gateFrame, hdist, hredist, hseq, hcfg, sysStore_cpu_of_not_wakeGated s v hr]

/-- The sequencer passes its wake transition only with "children asleep" read as 0 (46_timer_orchestration.md R271). -/
theorem orch_keepsHandshake {s : State} {o : Orch}
    (ho : pastWake o = true → pastWake s.seq.orch = true ∨ s.redist.ca = false) :
    KeepsHandshake s { s with seq.orch := o } := by
  intro hi
  have hpast : pastWake o = true → awake s = true := fun h => by
    obtain hs | hca := ho h
    · obtain ⟨-, -, horch⟩ := hi
      exact horch hs
    · exact awake_of_wakeInv hi hca
  obtain ⟨hhand, hbehind, -⟩ := hi
  exact ⟨hhand, hbehind, hpast⟩

theorem keepsHandshake_keptAtTheGates : KeptAtTheGates KeepsHandshake where
  trans _ _ _ hst htu := htu ∘ hst
  frame _ _ := keepsHandshake_frame
  bank _ _ _ _ _ := memWrite_keepsHandshake
  store _ _ v := sysStore_keepsHandshake v
  orch _ _ := orch_keepsHandshake
  wake s hps _ := wakeInv_of_awake ((awake_iff { s with redist.ca := false }).mpr ⟨hps, rfl⟩)

/-! ## The gates -/

/-- From `s` to `t` the gates are kept. -/
def KeepsGates (s t : State) : Prop := GateInv s → GateInv t

theorem keepsGates_frame {s t : State} (h : gateFrame t = gateFrame s) : KeepsGates s t := by
  obtain ⟨-, -, -, hsre, -, -, -, hctlr, hsticks⟩ := GateFrame.mk.inj h
  intro hi
  simpa only [GateInv, hctlr, hsre, hsticks] using hi

/-- A write of `D_CTLR` that leaves `DS` at 0 changes nothing (40_transactions.md R142). -/
theorem ctlrWrite_of_ds_false {c : DCtlr} {v : Word} (h : (ctlrWrite c v).ds = false) : ctlrWrite c v = c := by
  obtain ⟨hds, hv⟩ : c.ds = false ∧ v.getLsbD 6 = false := by simpa only [ctlrWrite, Bool.or_eq_false_iff] using h
  obtain ⟨g0, g1, are, ds⟩ := c
  obtain rfl : ds = false := hds
  simp only [ctlrWrite, hv, Bool.or_self, Bool.false_eq_true, if_false]

theorem memWrite_keepsGates {s t : State} {b : Bank} {off : Nat} {v : Word} (h : memWrite s b off v = .ok t) :
    KeepsGates s t := by
  rintro ⟨hgroup, hsre⟩
  obtain ⟨-, hcpu, -, -, -, -, -, hcfg, -⟩ := memWrite_frame h
  refine ⟨fun hds => ?_, by rw [hcfg, hcpu]; exact hsre⟩
  have hctlr : t.dist.ctlr = s.dist.ctlr := by
    obtain heq | ⟨w, hw⟩ := memWrite_ctlr h
    · exact heq
    · rw [hw] at hds ⊢
      exact ctlrWrite_of_ds_false hds
  rw [hctlr] at hds ⊢
  exact hgroup hds

/-- Where the platform does not let the system-register enable stick, no store changes it (40_transactions.md R163). -/
theorem sysStore_sre_of_not_sticks {s : State} (r : SysReg) (v : DWord) (h : s.cfg.sreSticks = false) :
    (sysStore s r v).cpu.sre = s.cpu.sre := by
  cases r <;> simp [sysStore, h]

theorem sysStore_keepsGates (s : State) (r : SysReg) (v : DWord) : KeepsGates s (sysStore s r v) := by
  rintro ⟨hgroup, hsre⟩
  obtain ⟨hdist, -, -, -, -, -, hcfg, -⟩ := sysStore_frame s r v
  refine ⟨by rw [hdist]; exact hgroup, fun hsticks => ?_⟩
  rw [hcfg] at hsticks
  rw [sysStore_sre_of_not_sticks r v hsticks]
  exact hsre hsticks

theorem keepsGates_keptAtTheGates : KeptAtTheGates KeepsGates where
  trans _ _ _ hst htu := htu ∘ hst
  frame _ _ := keepsGates_frame
  bank _ _ _ _ _ := memWrite_keepsGates
  store s r v _ := sysStore_keepsGates s r v
  orch _ _ _ hi := hi
  wake _ _ hi := hi

/-- A step of `RESET` ends in the reset state, which meets both invariants, with edge capture after it. -/
theorem step_reset_invariants {s t : State} (he : nextEvent s = .reset) (h : step s = .next t) :
    WakeInv t ∧ GateInv t := by
  obtain ⟨hf, -⟩ := step_ok h
  rw [step_reset hf he] at h
  obtain rfl := Host.Outcome.next.inj h
  exact ⟨resetWith_wakeInv _ _ _ _, resetWith_gateInv _ _ _ _⟩

/-- Settles O59: every step but reset keeps both invariants, and reset establishes them. -/
theorem everyStepKeepsHandshakeAndGates : Obligations.EveryStepKeepsHandshakeAndGates := by
  intro s t h
  by_cases he : nextEvent s = .reset
  · obtain ⟨hwake, hgate⟩ := step_reset_invariants he h
    exact ⟨fun _ => hwake, fun _ => hgate⟩
  · exact ⟨keepsHandshake_keptAtTheGates.step he h, keepsGates_keptAtTheGates.step he h⟩

end Sys2Proof.Proofs
end

section
/-!
PROOFS. The family of 40_transactions.md, second part: the bank transactions, RD32 (O7) and WR32 (O8), on `D_CTLR` (O9),
on the windows of per-interrupt entries (O10, O11) and on `R_WAKER` (O12).
-/

namespace Sys2Proof.Proofs

open Sys2Proof Sys2Proof.Machine Sys2Proof.Claims

/-! ## The first transaction of a command -/

theorem runMain_first_ok {i : Instr} {p : Prog} {s t : State} {v : DWord} (hm : s.seq.mainCmd = none)
    (hp : p 0 0#64 s = .ret .ok v t) (ht : t.seq.mainCmd = none) :
    runMain i p s = .next { t with rsp := okRsp v } := by
  simp only [runMain, mainIndex_idle hm, mainHeld_idle hm, hp, respond_idle ht]
  rfl

theorem runMain_first_fault {i : Instr} {p : Prog} {s : State} {f : Fault} (hm : s.seq.mainCmd = none)
    (hp : p 0 0#64 s = .fault f) : runMain i p s = .fault f := by
  simp only [runMain, mainIndex_idle hm, mainHeld_idle hm, hp]

/-! ## RD32 and WR32 (40_transactions.md R140, R141) -/

section
variable {s : State} {b : Bank} {off : BitVec 17} (hm : s.seq.mainCmd = none)
include hm

theorem exec_rd32_ok {v : Word} (h : memRead s b off.toNat = .ok v) :
    exec (.rd32 b off) s = .next { s with rsp := okRsp (v.setWidth 64) } := by
  rw [exec, execRd32]
  exact runMain_first_ok (t := s) hm (by simp only [progOf, List.getD_cons_zero, bankReadTx, h]) hm

theorem exec_rd32_error {f : Fault} (h : memRead s b off.toNat = .error f) : exec (.rd32 b off) s = .fault f := by
  rw [exec, execRd32]
  exact runMain_first_fault hm (by simp only [progOf, List.getD_cons_zero, bankReadTx, h])

theorem exec_wr32_ok {v : Word} {t : State} (h : memWrite s b off.toNat v = .ok t) :
    exec (.wr32 b off v) s = .next { t with rsp := okRsp 0#64 } := by
  have ht : t.seq.mainCmd = none := by
    obtain ⟨-, -, -, hseq, -⟩ := memWrite_frame h
    rw [hseq, hm]
  rw [exec, execWr32]
  exact runMain_first_ok hm (by simp only [progOf, List.getD_cons_zero, bankWriteTx, h, returnOk]) ht

theorem exec_wr32_error {v : Word} {f : Fault} (h : memWrite s b off.toNat v = .error f) :
    exec (.wr32 b off v) s = .fault f := by
  rw [exec, execWr32]
  exact runMain_first_fault hm (by simp only [progOf, List.getD_cons_zero, bankWriteTx, h])

end

/-- A bank access of an offset that is not a multiple of 4 (20_memory.md R85). -/
theorem memAccess_misaligned {s : State} {b : Bank} {off : Nat} (v : Word) (h : off % 4 ≠ 0) :
    memRead s b off = .error .misaligned ∧ memWrite s b off v = .error .misaligned := by
  simp [memRead, memWrite, h]

/-- A bank access of an offset in no window (20_memory.md R86). -/
theorem memAccess_unmapped {s : State} {b : Bank} {off : Nat} (v : Word) (ha : off % 4 = 0)
    (hr : bankReg s.nIds b off = none) :
    memRead s b off = .error .unmapped ∧ memWrite s b off v = .error .unmapped := by
  simp [memRead, memWrite, ha, hr]

theorem needsAwake_iff (b : Bank) (off : Nat) : needsAwake b off = true ↔ b = .R ∧ 0x10000 ≤ off := by
  rw [needsAwake, Bool.and_eq_true, beq_iff_eq, decide_eq_true_iff, sgiOff]

/-- Settles O7, one clause for each way a read ends. -/
theorem bankReadOutcome : Obligations.BankReadOutcome := by
  intro b off s hm
  refine ⟨fun ha => ?_, fun ha hr => ?_, fun r ha hr => ?_⟩
  · exact exec_rd32_error hm (memAccess_misaligned 0#32 ha).1
  · exact exec_rd32_error hm (memAccess_unmapped 0#32 ha hr).1
  · exact exec_rd32_ok hm (memRead_of_reg ha hr)

/-- Settles O8, one clause for each way a write ends; past the wake check it is the write rule of the register. -/
theorem bankWriteOutcome : Obligations.BankWriteOutcome := by
  intro b off v s hm
  refine ⟨fun ha => ?_, fun ha hr => ?_, fun r ha hr => ⟨fun ⟨hb, hoff, hw⟩ => ?_, fun hallowed => ?_⟩⟩
  · exact exec_wr32_error hm (memAccess_misaligned v ha).2
  · exact exec_wr32_error hm (memAccess_unmapped v ha hr).2
  · exact exec_wr32_error hm (memWrite_asleep v ha hr ((needsAwake_iff b _).mpr ⟨hb, hoff⟩) hw)
  · have hawake : needsAwake b off.toNat = true → awake s = true := fun hn => by
      obtain ⟨hb, hoff⟩ := (needsAwake_iff b _).mp hn
      cases hw : awake s with
      | true => rfl
      | false => exact absurd ⟨hb, hoff, hw⟩ hallowed
    have hwrite := memWrite_of_reg v ha hr hawake
    exact ⟨fun t ht => exec_wr32_ok hm (hwrite.trans ht), fun f hf => exec_wr32_error hm (hwrite.trans hf)⟩

/-! ## `D_CTLR` and `R_WAKER` (40_transactions.md R142, R148) -/

/-- The four bits of `D_CTLR` at their places. -/
theorem ctlrWord_setWidth (c : DCtlr) : (ctlrWord c).setWidth 64 =
    BitVec.ofNat 64 (c.enG0.toNat + 2 * c.enG1.toNat + 16 * c.are.toNat + 64 * c.ds.toNat) := by
  obtain ⟨g0, g1, are, ds⟩ := c
  revert g0 g1 are ds
  decide

/-- The two bits of `R_WAKER` at their places. -/
theorem wakerWord_setWidth (r : Redistributor) : (wakerWord r).setWidth 64 =
    BitVec.ofNat 64 (2 * r.ps.toNat + 4 * r.ca.toNat) := by
  obtain ⟨ps, ca, arr⟩ := r
  revert ps ca
  exact (by decide : ∀ ps ca : Bool, (flagBit ps 1 ||| flagBit ca 2 : Word).setWidth 64 =
    BitVec.ofNat 64 (2 * ps.toNat + 4 * ca.toNat))

/-- Settles O9: offset 0 of bank D is `D_CTLR`, whose write rule is `ctlrWrite`. -/
theorem distributorControlGating : Obligations.DistributorControlGating := by
  intro s hm
  refine ⟨?_, fun v => ?_⟩
  · rw [exec_rd32_ok hm (memRead_of_reg rfl (bankReg_ctlr _)), ← ctlrWord_setWidth]
    rfl
  · exact exec_wr32_ok (t := { s with dist.ctlr := ctlrWrite s.dist.ctlr v }) hm
      (memWrite_of_reg v rfl (bankReg_ctlr _) fun h => absurd h (by decide))

/-- A write of `R_WAKER` needs no awake redistributor (40_transactions.md R148, R149): clearing `PS` takes, setting it
while it is set changes nothing, setting it after the wake faults. -/
theorem memWrite_waker (s : State) (v : Word) : memWrite s .R 0x14 v =
    if v.getLsbD 1 = false then .ok { s with redist.ps := false }
    else if s.redist.ps then .ok s else .error .reservedWrite :=
  memWrite_of_reg v rfl (bankReg_waker _) (fun h => absurd h (by decide))

section
variable {s : State} {v : Word} (hm : s.seq.mainCmd = none)
include hm

theorem exec_wr32_waker_wake (hv : v.getLsbD 1 = false) :
    exec (.wr32 .R 0x14#17 v) s = .next { s with redist.ps := false, rsp := okRsp 0#64 } := by
  have hwrite := memWrite_waker s v
  rw [if_pos hv] at hwrite
  exact exec_wr32_ok (t := { s with redist.ps := false }) hm hwrite

theorem exec_wr32_waker_stay (hv : v.getLsbD 1 = true) (hps : s.redist.ps = true) :
    exec (.wr32 .R 0x14#17 v) s = .next { s with rsp := okRsp 0#64 } := by
  have hwrite := memWrite_waker s v
  rw [if_neg (by simp [hv]), if_pos hps] at hwrite
  exact exec_wr32_ok (t := s) hm hwrite

theorem exec_wr32_waker_sleep (hv : v.getLsbD 1 = true) (hps : s.redist.ps = false) :
    exec (.wr32 .R 0x14#17 v) s = .fault .reservedWrite := by
  have hwrite := memWrite_waker s v
  rw [if_neg (by simp [hv]), if_neg (by simp [hps])] at hwrite
  exact exec_wr32_error (off := 0x14#17) hm hwrite

end

/-- Settles O12, one lemma a case of the write. -/
theorem wakerReadAndWrite : Obligations.WakerReadAndWrite := by
  intro s hm
  refine ⟨?_, fun v => ⟨exec_wr32_waker_wake hm, exec_wr32_waker_stay hm, exec_wr32_waker_sleep hm⟩⟩
  rw [exec_rd32_ok hm (memRead_of_reg rfl (bankReg_waker _)), ← wakerWord_setWidth]
  rfl

/-! ## The places of the windows (20_memory.md R82, R83) -/

/-- `off` is an offset that a command word can name and that selects register `r` of bank `b`. -/
def Selects (s : State) (b : Bank) (off : Nat) (r : BankReg) : Prop :=
  off < 2 ^ 17 ∧ off % 4 = 0 ∧ bankReg s.nIds b off = some r

/-- A place of a window, below the top of the map. -/
theorem Selects.of_window {s : State} {b : Bank} {sub n : Nat} {r : BankReg} (hsub : sub % 4 = 0)
    (htop : sub + 4 * n < 2 ^ 16) (hr : bankReg s.nIds b (windowBase b + sub + 4 * n) = some r) :
    Selects s b (winBase b + sub + 4 * n) r := by
  have hbase : winBase b = windowBase b := by cases b <;> rfl
  have hbound : winBase b ≤ 0x10000 ∧ winBase b % 4 = 0 := by cases b <;> decide
  exact ⟨by omega, by omega, hbase ▸ hr⟩

/-- The two banks store at most 1024 IDs, and have room for all they store. -/
theorem idCount_bounds (s : State) (b : Bank) : idCount s b ≤ 32 * blocksOf b ∧ idCount s b ≤ 1024 := by
  cases b
  · exact ⟨(nIds_bounds s.cfg).2.1, (nIds_bounds s.cfg).2.1⟩
  · exact ⟨Nat.le_refl 32, Nat.le_of_ble_eq_true rfl⟩

theorem idCount_eq_idsOf (s : State) (b : Bank) : idCount s b = idsOf s.cfg.nIds b := by cases b <;> rfl

/-- The five windows of 1-bit entries. -/
theorem selects_bitWindows {s : State} {b : Bank} {n : Nat} (h : n < idCount s b / 32) :
    Selects s b (winBase b + 0x080 + 4 * n) (.grp n) ∧ Selects s b (winBase b + 0x100 + 4 * n) (.setEn n) ∧
    Selects s b (winBase b + 0x180 + 4 * n) (.clrEn n) ∧ Selects s b (winBase b + 0x200 + 4 * n) (.setPend n) ∧
    Selects s b (winBase b + 0x280 + 4 * n) (.clrPend n) := by
  have hbound := idCount_bounds s b
  obtain ⟨hgrp, hset, hclr, hsetp, hclrp⟩ := (bankReg_windows s.cfg b n).1 (idCount_eq_idsOf s b ▸ h)
  exact ⟨.of_window rfl (by omega) hgrp, .of_window rfl (by omega) hset, .of_window rfl (by omega) hclr,
    .of_window rfl (by omega) hsetp, .of_window rfl (by omega) hclrp⟩

theorem selects_pri {s : State} {b : Bank} {n : Nat} (h : n < idCount s b / 4) :
    Selects s b (winBase b + 0x400 + 4 * n) (.pri n) := by
  have hbound := idCount_bounds s b
  exact .of_window rfl (by omega) ((bankReg_windows s.cfg b n).2.1 (idCount_eq_idsOf s b ▸ h))

theorem selects_cfg {s : State} {b : Bank} {n : Nat} (h : n < idCount s b / 16) :
    Selects s b (winBase b + 0xC00 + 4 * n) (.cfg n) := by
  have hbound := idCount_bounds s b
  exact .of_window rfl (by omega) ((bankReg_windows s.cfg b n).2.2 (idCount_eq_idsOf s b ▸ h))

theorem selects_tgt {s : State} {n : Nat} (h : n < s.cfg.nIds / 4) : Selects s .D (0x800 + 4 * n) (.tgt n) := by
  have hbound := nIds_bounds s.cfg
  exact ⟨by omega, by omega, bankReg_tgt s.cfg n h⟩

section
variable {s : State} {b : Bank} {off : Nat} {r : BankReg} (hm : s.seq.mainCmd = none) (hs : Selects s b off r)
include hm hs

/-- RD32 at a selected offset answers the register's value. -/
theorem reads_of_selects {p : Word → Prop} (hp : p (regRead s b r)) : Reads s b off p := by
  obtain ⟨hlt, ha, hr⟩ := hs
  refine ⟨regRead s b r, exec_rd32_ok hm ?_, hp⟩
  rw [BitVec.toNat_ofNat, Nat.mod_eq_of_lt hlt]
  exact memRead_of_reg ha hr

/-- WR32 at a selected offset is the register's write rule, where the bank can be written. -/
theorem exec_wr32_of_selects {v : Word} {t : State} (hw : canWrite s b) (ht : regWrite s b r v = .ok t) :
    exec (.wr32 b (BitVec.ofNat 17 off) v) s = .next { t with rsp := okRsp 0#64 } := by
  obtain ⟨hlt, ha, hr⟩ := hs
  have hawake : needsAwake b off = true → awake s = true := fun hn => by
    obtain ⟨rfl, -⟩ := (needsAwake_iff b off).mp hn
    exact hw
  refine exec_wr32_ok hm ?_
  rw [BitVec.toNat_ofNat, Nat.mod_eq_of_lt hlt, memWrite_of_reg v ha hr hawake]
  exact ht

end

/-! ## The entries of a register (40_transactions.md R150) -/

theorem wordAt_getLsbD {m : Nat} (v : Vector Word m) (n k : Nat) (hk : k < 32) :
    (wordAt v n).getLsbD k = bitAt v (32 * n + k) := by
  rw [bitAt, show (32 * n + k) / 32 = n by omega, show (32 * n + k) % 32 = k by omega]

theorem wordAt_byte {m : Nat} (v : Vector Word m) (n k : Nat) (hk : k < 4) :
    (wordAt v n).extractLsb' (8 * k) 8 = byteAt v (4 * n + k) := by
  rw [byteAt, show (4 * n + k) / 4 = n by omega, show (4 * n + k) % 4 = k by omega]

theorem wordAt_pair {m : Nat} (v : Vector Word m) (n k : Nat) (hk : k < 16) :
    (wordAt v n).extractLsb' (2 * k) 2 = pairAt v (16 * n + k) := by
  rw [pairAt, show (16 * n + k) / 16 = n by omega, show (16 * n + k) % 16 = k by omega]

/-- Settles O10: the four windows one after the other, each read entry by entry and each written as a whole register. -/
theorem plainWindowsStoreWhatIsWritten : Obligations.PlainWindowsStoreWhatIsWritten := by
  intro s b n v hm
  have hbound := idCount_bounds s b
  refine ⟨fun h => ?group, fun h => ?priority, fun h => ?config, fun h => ?target⟩
  case group =>
    obtain ⟨hgrp, -⟩ := selects_bitWindows h
    exact ⟨reads_of_selects hm hgrp fun k hk => wordAt_getLsbD _ n k hk,
      fun hw => ⟨_, exec_wr32_of_selects hm hgrp hw rfl, fun id => bitAt_setIfInBounds _ n id v (by omega)⟩⟩
  case priority =>
    have hpri := selects_pri h
    exact ⟨reads_of_selects hm hpri fun k hk => wordAt_byte _ n k hk,
      fun hw => ⟨_, exec_wr32_of_selects hm hpri hw rfl, fun id => byteAt_setIfInBounds _ n id v (by omega)⟩⟩
  case config =>
    have hcfg := selects_cfg h
    exact ⟨reads_of_selects hm hcfg fun k hk => wordAt_pair _ n k hk,
      fun hw => ⟨_, exec_wr32_of_selects hm hcfg hw rfl, fun id => pairAt_setIfInBounds _ n id v (by omega)⟩⟩
  case target =>
    have htgt := selects_tgt h
    have hids := nIds_bounds s.cfg
    exact ⟨reads_of_selects hm htgt fun k hk => wordAt_byte _ n k hk, s.dist.tgt.setIfInBounds n v,
      exec_wr32_of_selects (t := { s with dist.tgt := s.dist.tgt.setIfInBounds n v }) hm htgt trivial rfl,
      fun id => byteAt_setIfInBounds _ n id v (by omega)⟩

/-- Bit `k` of the set-pending window is the pending view (10_state.md R54). -/
theorem regRead_setPend_getLsbD (s : State) (b : Bank) (n k : Nat) (hk : k < 32) :
    (regRead s b (.setPend n)).getLsbD k = pend s b (32 * n + k) := by
  rw [regRead, packBits_getLsbD, decide_eq_true hk, Bool.true_and]

/-- Settles O11: a set window ORs the ones in, a clear window takes them out. -/
theorem setAndClearWindows : Obligations.SetAndClearWindows := by
  intro s b n v hm h
  obtain ⟨-, hset, hclr, hsetp, hclrp⟩ := selects_bitWindows h
  have hn : n < blocksOf b := by have := idCount_bounds s b; omega
  refine ⟨reads_of_selects hm hset fun k hk => wordAt_getLsbD _ n k hk, reads_of_selects hm hclr rfl,
    fun hw => ⟨?_, ?_⟩, reads_of_selects hm hsetp fun k hk => regRead_setPend_getLsbD s b n k hk,
    reads_of_selects hm hclrp rfl, fun hw => ⟨?_, ?_⟩⟩
  · exact ⟨_, exec_wr32_of_selects hm hset hw rfl, bitAt_or _ n v hn⟩
  · exact ⟨_, exec_wr32_of_selects hm hclr hw rfl, bitAt_andNot _ n v hn⟩
  · exact ⟨_, exec_wr32_of_selects hm hsetp hw rfl, bitAt_or _ n v hn⟩
  · exact ⟨_, exec_wr32_of_selects hm hclrp hw rfl, bitAt_andNot _ n v hn⟩

end Sys2Proof.Proofs
end

section
/-!
PROOFS. The family of 40_transactions.md, third part: the system-register transactions, SRRD (O14) and SRWR (O15), with
the synchronous exception (O16) and the fault of level 0 (O17) that stand in their place, and what both kinds of
transaction do while the redistributor is asleep (O13).
-/

namespace Sys2Proof.Proofs

open Sys2Proof Sys2Proof.Machine Sys2Proof.Claims

/-! ## The three lists of registers (40_transactions.md R149, R161, R173) -/

theorem mem_gatedRegs_iff (r : SysReg) : r ∈ gatedRegs ↔ sreGated r = true := by cases r <;> decide

theorem mem_sleepRegs_iff (r : SysReg) : r ∈ sleepRegs ↔ wakeGated r = true := by cases r <;> decide

theorem mem_roRegs_iff (r : SysReg) : r ∈ roRegs ↔ readOnlySys r = true := by cases r <;> decide

/-- No read-only register is behind the wake handshake. -/
theorem wakeGated_of_readOnlySys {r : SysReg} (h : readOnlySys r = true) : wakeGated r = false := by
  cases r <;> first | rfl | exact absurd h (by decide)

/-! ## The ways a system-register access stops, in the order of its checks (40_transactions.md R160, R161) -/

section
variable {s : State} {r : SysReg}

theorem sysRead_level0 (he : s.pe.pstate.el = 0#2) : sysRead s r = .error (.fault .el0) := by
  rw [sysRead, if_pos he]

theorem sysWrite_level0 (v : DWord) (he : s.pe.pstate.el = 0#2) : sysWrite s r v = .error (.fault .el0) := by
  rw [sysWrite, if_pos he]

theorem sysWrite_asleep (v : DWord) (he : s.pe.pstate.el ≠ 0#2) (hr : wakeGated r = true) (ha : awake s = false) :
    sysWrite s r v = .error (.fault .asleep) := by
  rw [sysWrite, if_neg he, if_pos (by simp [hr, ha])]

theorem sysRead_trap (he : s.pe.pstate.el ≠ 0#2) (hr : sreGated r = true) (hs : s.cpu.sre = false) :
    sysRead s r = .error (.sysRegTrap r) := by
  rw [sysRead, if_neg he, if_pos (by simp [hr, hs])]

theorem sysWrite_trap (v : DWord) (he : s.pe.pstate.el ≠ 0#2) (hw : wakeGated r = true → awake s = true)
    (hr : sreGated r = true) (hs : s.cpu.sre = false) : sysWrite s r v = .error (.sysRegTrap r) := by
  have hawake : ¬(wakeGated r && !awake s) = true := by cases h : wakeGated r <;> simp_all
  rw [sysWrite, if_neg he, if_neg hawake, if_pos (by simp [hr, hs])]

theorem sysWrite_readOnly (v : DWord) (he : s.pe.pstate.el ≠ 0#2) (hg : sreGated r = true → s.cpu.sre = true)
    (hr : readOnlySys r = true) : sysWrite s r v = .error (.fault .reservedWrite) := by
  have hsre : ¬(sreGated r && !s.cpu.sre) = true := by cases h : sreGated r <;> simp_all
  rw [sysWrite, if_neg he, if_neg (by simp [wakeGated_of_readOnlySys hr]), if_neg hsre, if_pos hr]

end

/-! ## SRRD and SRWR -/

section
variable {s : State} {r : SysReg} (he : s.pe.pstate.el ≠ 0#2)
include he

theorem sysReadTx_ok (next : DWord → State → TxOut) (hg : sreGated r = true → s.cpu.sre = true) :
    sysReadTx r next s = next (sysValue s r) s := by
  simp only [sysReadTx, sysRead_of he hg]

theorem sysWriteTx_ok (v : DWord) (next : State → TxOut) (hw : wakeGated r = true → awake s = true)
    (hg : sreGated r = true → s.cpu.sre = true) (hr : readOnlySys r = false) :
    sysWriteTx r v next s = next (sysStore s r v) := by
  simp only [sysWriteTx, sysWrite_of v he hw hg hr]

end

section
variable {s : State} {r : SysReg} (hm : s.seq.mainCmd = none)
include hm

theorem exec_srrd_ok (he : s.pe.pstate.el ≠ 0#2) (hg : sreGated r = true → s.cpu.sre = true) :
    exec (.srrd r) s = .next { s with rsp := okRsp (sysValue s r) } := by
  rw [exec, execSrrd]
  exact runMain_first_ok (t := s) hm (sysReadTx_ok he (fun v t => .ret .ok v t) hg) hm

theorem exec_srwr_ok (v : DWord) (he : s.pe.pstate.el ≠ 0#2) (hw : wakeGated r = true → awake s = true)
    (hg : sreGated r = true → s.cpu.sre = true) (hr : readOnlySys r = false) :
    exec (.srwr r v) s = .next { sysStore s r v with rsp := okRsp 0#64 } := by
  have ht : (sysStore s r v).seq.mainCmd = none := by
    obtain ⟨-, -, hseq, -⟩ := sysStore_frame s r v
    rw [hseq, hm]
  rw [exec, execSrwr]
  exact runMain_first_ok (t := sysStore s r v) hm (sysWriteTx_ok he v returnOk hw hg hr) ht

theorem exec_srwr_fault {v : DWord} {f : Fault} (h : sysWrite s r v = .error (.fault f)) :
    exec (.srwr r v) s = .fault f := by
  rw [exec, execSrwr]
  exact runMain_first_fault hm (by simp only [progOf, List.getD_cons_zero, sysWriteTx, h])

end

/-! ## What the registers read as (40_transactions.md R162 to R172) -/

/-- A one-bit field at bit 0 is its value. -/
theorem flagBit_zero (b : Bool) : (flagBit b 0 : DWord) = BitVec.ofNat 64 b.toNat := by cases b <;> rfl

theorem daifWord_eq (p : PState) : daifWord p =
    BitVec.ofNat 64 (512 * p.d.toNat + 256 * p.a.toNat + 128 * p.i.toNat + 64 * p.f.toNat) := by
  obtain ⟨d, a, i, f, el, sp⟩ := p
  exact (by decide : ∀ d a i f : Bool, (flagBit d 9 ||| flagBit a 8 ||| flagBit i 7 ||| flagBit f 6 : DWord) =
    BitVec.ofNat 64 (512 * d.toNat + 256 * a.toNat + 128 * i.toNat + 64 * f.toNat)) d a i f

theorem currentElWord_eq (p : PState) : currentElWord p = BitVec.ofNat 64 (4 * p.el.toNat) := by
  obtain ⟨d, a, i, f, el, sp⟩ := p
  exact (by decide : ∀ el : BitVec 2, el.setWidth 64 <<< 2 = BitVec.ofNat 64 (4 * el.toNat)) el

/-- The three bits of `CNTP_CTL` at their places. -/
theorem timerCtlBits_eq (enable imask istatus : Bool) :
    (flagBit enable 0 ||| flagBit imask 1 ||| flagBit istatus 2 : DWord) =
      BitVec.ofNat 64 (enable.toNat + 2 * imask.toNat + 4 * istatus.toNat) := by
  revert enable imask istatus
  decide

theorem timerCtlWord_enabled {s : State} (h : s.timer.enable = true) : timerCtlWord s =
    BitVec.ofNat 64 (1 + 2 * s.timer.imask.toNat
      + 4 * (decide (s.timer.cval.toNat ≤ s.timer.cnt.toNat)).toNat) := by
  rw [timerCtlWord, h, if_pos rfl, timerCtlBits_eq, istatus, h]
  rfl

theorem timerCtlWord_disabled {s : State} (h : s.timer.enable = false) : timerCtlWord s =
    BitVec.ofNat 64 (2 * s.timer.imask.toNat + 4 * (Config.drawIstatus s.env.clock).toNat) := by
  rw [timerCtlWord, h, if_neg Bool.false_ne_true, timerCtlBits_eq, Bool.toNat_false, Nat.zero_add]

/-- The low 32 bits of a 64-bit value, zero-extended. -/
theorem lowWord_setWidth (x : DWord) : (x.extractLsb' 0 32).setWidth 64 = BitVec.ofNat 64 (x.toNat % 2 ^ 32) := by
  rw [← BitVec.ofNat_toNat, BitVec.extractLsb'_toNat, Nat.shiftRight_zero]

/-- Settles O14: each value is the register's `sysValue`, written as a number. -/
theorem systemRegisterReads : Obligations.SystemRegisterReads := by
  intro s hm he
  have hread (r : SysReg) (hr : sreGated r = false) :
      exec (.srrd r) s = .next { s with rsp := okRsp (sysValue s r) } :=
    exec_srrd_ok hm he fun h => absurd h (by simp [hr])
  refine ⟨fun r v hv => ?plain, fun h => ?enabled, fun h => ?disabled, fun hs => ?gated⟩
  case plain =>
    suffices hval : sreGated r = false ∧ sysValue s r = v from hval.2 ▸ hread r hval.1
    simp only [List.mem_cons, Prod.mk.injEq, List.not_mem_nil, or_false] at hv
    obtain ⟨rfl, rfl⟩ | ⟨rfl, rfl⟩ | ⟨rfl, rfl⟩ | ⟨rfl, rfl⟩ | ⟨rfl, rfl⟩ | ⟨rfl, rfl⟩ | ⟨rfl, rfl⟩ | ⟨rfl, rfl⟩ := hv
    · exact ⟨rfl, rfl⟩
    · exact ⟨rfl, flagBit_zero _⟩
    · exact ⟨rfl, (BitVec.ofNat_toNat _ _).symm⟩
    · exact ⟨rfl, lowWord_setWidth _⟩
    · exact ⟨rfl, rfl⟩
    · exact ⟨rfl, rfl⟩
    · exact ⟨rfl, daifWord_eq _⟩
    · exact ⟨rfl, currentElWord_eq _⟩
  case enabled => rw [hread .cntpCtl rfl, sysValue, timerCtlWord_enabled h]
  case disabled => exact ⟨Config.drawIstatus s.env.clock, by rw [hread .cntpCtl rfl, sysValue, timerCtlWord_disabled h]⟩
  case gated =>
    have hopen (r : SysReg) := exec_srrd_ok (r := r) hm he fun _ => hs
    refine ⟨?_, ?_, ?_, _, hopen .iccStatus⟩
    · rw [hopen .iccIgrpen1, sysValue, flagBit_zero]
    · rw [hopen .iccPmr, sysValue, BitVec.ofNat_toNat]
    · rw [hopen .iccBpr, sysValue, BitVec.ofNat_toNat]

/-! ## What the registers take (40_transactions.md R162 to R171) -/

/-- The counter plus the signed timer value, modulo `2^64` (40_transactions.md R168). -/
theorem add_signExtend_eq_ofInt (cnt : DWord) (v : Word) :
    cnt + v.signExtend 64 = BitVec.ofInt 64 (cnt.toNat + v.toInt) := by
  rw [BitVec.ofInt_add, BitVec.ofInt_natCast, BitVec.ofNat_toNat, BitVec.setWidth_eq, BitVec.signExtend]

/-- Settles O15: each register's store, and the read-only faults. -/
theorem systemRegisterWrites : Obligations.SystemRegisterWrites := by
  intro s v hm he
  have hwrite (r : SysReg) (hw : wakeGated r = false) (hg : sreGated r = false) (hr : readOnlySys r = false) :
      exec (.srwr r v) s = .next { sysStore s r v with rsp := okRsp 0#64 } :=
    exec_srwr_ok hm v he (fun h => absurd h (by simp [hw])) (fun h => absurd h (by simp [hg])) hr
  refine ⟨hwrite .vbar rfl rfl rfl, hwrite .cntpCtl rfl rfl rfl, hwrite .cntpCval rfl rfl rfl, ?_,
    hwrite .daif rfl rfl rfl, ?_, fun hs => ?_, fun ha => ⟨?_, fun hs => ⟨?_, ?_, ?_⟩⟩⟩
  · rw [hwrite .cntpTval rfl rfl rfl, sysStore, add_signExtend_eq_ofInt]
  · intro r hr
    have hreg : readOnlySys r = true ∧ sreGated r = false := by
      revert hr
      cases r <;> decide
    obtain ⟨hro, hg⟩ := hreg
    exact exec_srwr_fault hm (sysWrite_readOnly v he (fun h => absurd h (by simp [hg])) hro)
  · exact exec_srwr_fault hm (sysWrite_readOnly v he (fun _ => hs) rfl)
  · rw [exec_srwr_ok hm v he (fun _ => ha) (fun h => absurd h (by decide)) rfl, sysStore]
    split <;> rfl
  · exact exec_srwr_ok hm v he (fun _ => ha) (fun _ => hs) rfl
  · rw [exec_srwr_ok hm v he (fun _ => ha) (fun _ => hs) rfl, sysStore, BitVec.setWidth_eq_extractLsb' (by decide)]
  · rw [exec_srwr_ok hm v he (fun _ => ha) (fun _ => hs) rfl, sysStore, BitVec.setWidth_eq_extractLsb' (by decide)]

/-! ## The synchronous exception in the transaction's place (60_exceptions.md R313) -/

theorem trapTx_of_vectorReady {s : State} (h : vectorReady s) : trapTx s = .trap (sysTrapped s) := by
  simp only [trapTx, syncEnter, fatalEnter, takeTrap, (vectorUsable_iff s).mpr h, if_true]
  rfl

theorem trapTx_of_not_vectorReady {s : State} (h : ¬vectorReady s) : trapTx s = .fault .noVector := by
  have hu : vectorUsable s = false := by simpa using mt (vectorUsable_iff s).mp h
  simp only [trapTx, syncEnter, fatalEnter, takeTrap, hu, Bool.false_eq_true, if_false]

/-- A command whose first transaction raises `SysRegTrap` takes the trap, or faults without a vector base. -/
theorem runMain_first_trap {i : Instr} {p : Prog} {s : State} (hm : s.seq.mainCmd = none)
    (hp : p 0 0#64 s = trapTx s) :
    (vectorReady s → runMain i p s = .next (sysTrapped s)) ∧ (¬vectorReady s → runMain i p s = .fault .noVector) := by
  constructor
  · intro h
    simp only [runMain, mainIndex_idle hm, mainHeld_idle hm, hp, trapTx_of_vectorReady h]
  · intro h
    exact runMain_first_fault hm (hp.trans (trapTx_of_not_vectorReady h))

section
variable {s : State} {r : SysReg} (he : s.pe.pstate.el ≠ 0#2) (hr : sreGated r = true) (hs : s.cpu.sre = false)
include he hr hs

theorem sysReadTx_trap (next : DWord → State → TxOut) : sysReadTx r next s = trapTx s := by
  simp only [sysReadTx, sysRead_trap he hr hs]

theorem sysWriteTx_trap (v : DWord) (next : State → TxOut) (hw : wakeGated r = true → awake s = true) :
    sysWriteTx r v next s = trapTx s := by
  simp only [sysWriteTx, sysWrite_trap v he hw hr hs]

end

/-- Settles O16: the first transaction of each of these commands is a gated access. -/
theorem systemRegisterTrapIsTaken : Obligations.SystemRegisterTrapIsTaken := by
  intro s i hm he hs hi
  obtain ⟨r, hr, rfl⟩ | ⟨v, rfl⟩ | ⟨ha, ⟨r, hr, v, rfl⟩ | rfl | rfl⟩ := hi
  · rw [exec, execSrrd]
    exact runMain_first_trap hm (sysReadTx_trap he ((mem_gatedRegs_iff r).mp hr) hs _)
  · rw [exec, execSrwr]
    exact runMain_first_trap hm (sysWriteTx_trap he rfl hs v _ fun h => absurd h (by decide))
  · rw [exec, execSrwr]
    exact runMain_first_trap hm (sysWriteTx_trap he ((mem_gatedRegs_iff r).mp hr) hs v _ fun _ => ha)
  · rw [exec, execCPmr]
    exact runMain_first_trap hm (sysWriteTx_trap he rfl hs _ _ fun _ => ha)
  · rw [exec, execCGrp1en]
    exact runMain_first_trap hm (sysWriteTx_trap he rfl hs _ _ fun _ => ha)

/-! ## Level 0 (60_exceptions.md R317) -/

theorem sysReadTx_level0 {s : State} (r : SysReg) (next : DWord → State → TxOut) (he : s.pe.pstate.el = 0#2) :
    sysReadTx r next s = .fault .el0 := by
  simp only [sysReadTx, sysRead_level0 he]

theorem sysWriteTx_level0 {s : State} (r : SysReg) (v : DWord) (next : State → TxOut) (he : s.pe.pstate.el = 0#2) :
    sysWriteTx r v next s = .fault .el0 := by
  simp only [sysWriteTx, sysWrite_level0 v he]

/-- Settles O17: the first transaction of each of these commands asks for the level. -/
theorem levelZeroFaults : Obligations.LevelZeroFaults := by
  intro s i hm he hi
  have hcommand : ∀ {p : Prog}, p 0 0#64 s = .fault .el0 → runMain i p s = .fault .el0 := runMain_first_fault hm
  simp only [List.mem_cons, List.not_mem_nil, or_false] at hi
  obtain ⟨r, rfl⟩ | ⟨r, v, rfl⟩ | ⟨a, rfl⟩ | rfl | rfl | rfl | rfl | rfl | rfl | rfl | rfl := hi
  · exact hcommand (sysReadTx_level0 r _ he)
  · exact hcommand (sysWriteTx_level0 r v _ he)
  · exact hcommand (sysWriteTx_level0 .vbar a _ he)
  · exact hcommand (congrArg (mapReturn goOnAfterOk) (sysReadTx_level0 .iccSre _ he))
  · exact hcommand (sysReadTx_level0 .iccSre _ he)
  · exact hcommand (sysWriteTx_level0 .iccPmr _ _ he)
  · exact hcommand (sysWriteTx_level0 .iccIgrpen1 _ _ he)
  · exact hcommand (p := progOf cUnmaskTxs) (if_pos he)
  · exact hcommand (sysReadTx_level0 .currentEL _ he)
  · exact hcommand (p := progOf tArmTxs)
      (by simp only [progOf, tArmTxs, List.getD_cons_zero, sysReadTx_level0 _ _ he])
  · exact hcommand (sysWriteTx_level0 .cntpTval _ _ he)

/-! ## The writing commands of the SGI region (43_redistributor.md R210) -/

/-- `off` is the place of a register of the SGI region, whatever the parameters. -/
def SgiPlace (off : Nat) : Prop :=
  0x10000 ≤ off ∧ off % 4 = 0 ∧ ∀ c : Config, ∃ r, bankReg c.nIds .R off = some r

theorem sgiPlace_bit {base id : Nat} (hbase : base ∈ [0x10080, 0x10100, 0x10180, 0x10200, 0x10280]) (hid : id < 32) :
    SgiPlace (fieldOff wlogBit base id) := by
  rw [fieldOff_bit, Nat.div_eq_of_lt hid]
  simp only [List.mem_cons, List.not_mem_nil, or_false] at hbase
  refine ⟨by omega, by omega, fun c => ?_⟩
  obtain ⟨hgrp, hset, hclr, hsetp, hclrp⟩ := (bankReg_windows c .R 0).1 (show 0 < 32 / 32 by decide)
  obtain rfl | rfl | rfl | rfl | rfl := hbase
  · exact ⟨_, hgrp⟩
  · exact ⟨_, hset⟩
  · exact ⟨_, hclr⟩
  · exact ⟨_, hsetp⟩
  · exact ⟨_, hclrp⟩

theorem sgiPlace_byte {id : Nat} (hid : id < 32) : SgiPlace (fieldOff wlogByte 0x10400 id) := by
  rw [fieldOff_byte]
  exact ⟨by omega, by omega, fun c => ⟨_, (bankReg_windows c .R (id / 4)).2.1 (show id / 4 < 32 / 4 by omega)⟩⟩

theorem sgiPlace_pair {id : Nat} (hid : id < 32) : SgiPlace (fieldOff wlogPair 0x10C00 id) := by
  rw [fieldOff_pair]
  exact ⟨by omega, by omega, fun c => ⟨_, (bankReg_windows c .R (id / 16)).2.2 (show id / 16 < 32 / 16 by omega)⟩⟩

/-- A field write of the SGI region completes its read while asleep and faults at its write. -/
theorem sgi_fieldWrite_asleep {i : Instr} {s : State} {wlog : BitVec 3} {base index : Nat} (value : Word)
    (hm : s.seq.mainCmd = none) (ha : awake s = false) (hoff : SgiPlace (fieldOff wlog base index))
    (hi : ∀ t, exec i t = runMain i (progOf (fieldWriteTxs .R base wlog index value)) t) :
    ∃ h, exec i s = .next (inMid s i 1 h) ∧ exec i (inMid s i 1 h) = .fault .asleep := by
  obtain ⟨hsgi, halign, hmapped⟩ := hoff
  obtain ⟨r, hr⟩ := hmapped s.cfg
  refine ⟨_, (hi s).trans (runMain_rmw_read hm (memRead_of_reg halign hr)), (hi _).trans ?_⟩
  refine (runMain_rmw_write (regRead s .R r)).trans ?_
  rw [memWrite_asleep _ halign hr ((needsAwake_iff .R _).mpr ⟨rfl, hsgi⟩) ha]

/-- Each writing command of the SGI region, its operands in range, is a read-modify-write of its register. -/
theorem sgiCommand_asleep {s : State} {i : Instr} {id : BitVec 10} {v : BitVec 8} (hm : s.seq.mainCmd = none)
    (ha : awake s = false) (hid : id.toNat < 32)
    (hi : i = .rSetGrp id v ∧ v.toNat ≤ 1 ∨ i = .rSetPri id v ∨ i = .rSetCfg id v ∧ v.toNat ≤ 3 ∨
      i ∈ [.rSetEn id, .rClrEn id, .rSetPend id, .rClrPend id]) :
    ∃ h, exec i s = .next (inMid s i 1 h) ∧ exec i (inMid s i 1 h) = .fault .asleep := by
  simp only [List.mem_cons, List.not_mem_nil, or_false] at hi
  obtain ⟨rfl, hv⟩ | rfl | ⟨rfl, hv⟩ | rfl | rfl | rfl | rfl := hi
  · refine sgi_fieldWrite_asleep (v.setWidth 32) hm ha (sgiPlace_bit (base := 0x10080) (by decide) hid) fun t => ?_
    rw [exec, execRSetGrp, rSetGrpTxs, if_pos (show groupLegal v = true from decide_eq_true hv), rChecked, if_pos hid]
  · refine sgi_fieldWrite_asleep (v.setWidth 32) hm ha (sgiPlace_byte hid) fun t => ?_
    rw [exec, execRSetPri, rSetPriTxs, rChecked, if_pos hid]
  · refine sgi_fieldWrite_asleep (v.setWidth 32) hm ha (sgiPlace_pair hid) fun t => ?_
    rw [exec, execRSetCfg, rSetCfgTxs, if_pos hv, rChecked, if_pos hid]
  · refine sgi_fieldWrite_asleep 1#32 hm ha (sgiPlace_bit (base := 0x10100) (by decide) hid) fun t => ?_
    rw [exec, execRSetEn, rSetEnTxs, rChecked, if_pos hid]
  · refine sgi_fieldWrite_asleep 1#32 hm ha (sgiPlace_bit (base := 0x10180) (by decide) hid) fun t => ?_
    rw [exec, execRClrEn, rClrEnTxs, rChecked, if_pos hid]
  · refine sgi_fieldWrite_asleep 1#32 hm ha (sgiPlace_bit (base := 0x10200) (by decide) hid) fun t => ?_
    rw [exec, execRSetPend, rSetPendTxs, rChecked, if_pos hid]
  · refine sgi_fieldWrite_asleep 1#32 hm ha (sgiPlace_bit (base := 0x10280) (by decide) hid) fun t => ?_
    rw [exec, execRClrPend, rClrPendTxs, rChecked, if_pos hid]

/-! ## While asleep (40_transactions.md R149) -/

/-- Only `R_WAKER` has a write that can fault. -/
theorem regWrite_ok_of_ne_waker (s : State) (b : Bank) (v : Word) {r : BankReg} (h : r ≠ .waker) :
    ∃ t, regWrite s b r v = .ok t := by
  cases r <;> first | exact ⟨_, rfl⟩ | exact absurd rfl h

/-- A write of bank D needs no awake redistributor. -/
theorem exec_wr32_D {s : State} {off : BitVec 17} {r : BankReg} (v : Word) (hm : s.seq.mainCmd = none)
    (ha : off.toNat % 4 = 0) (hr : bankReg s.nIds .D off.toNat = some r) :
    ∃ t, regWrite s .D r v = .ok t ∧ exec (.wr32 .D off v) s = .next { t with rsp := okRsp 0#64 } := by
  obtain ⟨-, hkind⟩ := bankReg_kind hr
  obtain ⟨t, ht⟩ := regWrite_ok_of_ne_waker s .D v (hkind rfl)
  exact ⟨t, ht, exec_wr32_ok hm ((memWrite_of_reg v ha hr fun h => absurd h (by simp [needsAwake])).trans ht)⟩

/-- The three cases of a write of `R_WAKER` in one. -/
theorem exec_wr32_waker {s : State} (v : Word) (hm : s.seq.mainCmd = none) :
    exec (.wr32 .R 0x14#17 v) s =
      if v.getLsbD 1 then
        if s.redist.ps then .next { s with rsp := okRsp 0#64 } else .fault .reservedWrite
      else .next { s with redist.ps := false, rsp := okRsp 0#64 } := by
  cases hv : v.getLsbD 1 with
  | false => rw [exec_wr32_waker_wake hm hv, if_neg Bool.false_ne_true]
  | true =>
    cases hps : s.redist.ps with
    | false => rw [exec_wr32_waker_sleep hm hv hps, if_pos rfl, if_neg Bool.false_ne_true]
    | true => rw [exec_wr32_waker_stay hm hv hps, if_pos rfl, if_pos rfl]

/-- Settles O13, clause by clause: the two gated writes, what goes on as when awake, and the SGI region's commands. -/
theorem writesWhileAsleepFault : Obligations.WritesWhileAsleepFault := by
  intro s hm ha
  refine ⟨fun off v hoff halign hr => ?sgiWrite, fun r v he hr => ?sleepWrite, fun b off r halign hr => ?read,
    fun off r v halign hr => exec_wr32_D v hm halign hr, fun r v he hr => ?openWrite, fun v => exec_wr32_waker v hm,
    fun r he hg => ?sysRead, fun r v he hro hg => ?readOnly, fun i he hs hi => ?trap,
    fun i id v hid hi => sgiCommand_asleep hm ha hid hi⟩
  case sgiWrite =>
    obtain ⟨r, hr⟩ := Option.ne_none_iff_exists'.mp hr
    exact exec_wr32_error hm (memWrite_asleep v halign hr ((needsAwake_iff .R _).mpr ⟨rfl, hoff⟩) ha)
  case sleepWrite => exact exec_srwr_fault hm (sysWrite_asleep v he ((mem_sleepRegs_iff r).mp hr) ha)
  case read => exact exec_rd32_ok hm (memRead_of_reg halign hr)
  case openWrite =>
    have hopen : wakeGated r = false ∧ sreGated r = false ∧ readOnlySys r = false := by
      revert hr
      cases r <;> decide
    obtain ⟨hw, hg, hro⟩ := hopen
    exact exec_srwr_ok hm v he (fun h => absurd h (by simp [hw])) (fun h => absurd h (by simp [hg])) hro
  case sysRead => exact exec_srrd_ok hm he fun h => hg ((mem_gatedRegs_iff r).mpr h)
  case readOnly =>
    exact exec_srwr_fault hm
      (sysWrite_readOnly v he (fun h => hg ((mem_gatedRegs_iff r).mpr h)) ((mem_roRegs_iff r).mp hro))
  case trap => exact systemRegisterTrapIsTaken s i hm he hs (hi.imp_right Or.inl)

end Sys2Proof.Proofs
end

section
/-!
PROOFS. The timer commands of the family of 40_transactions.md: T.ARM in its four transactions (O36) and T.HANDLE in its
two (O37).
-/

namespace Sys2Proof.Proofs

open Sys2Proof Sys2Proof.Machine Sys2Proof.Claims

/-! ## A command transaction by transaction -/

/-- One transaction more. -/
theorem execs_succ_of_next {i : Instr} {n : Nat} {s t : State} (h : execs i n s = .next t) :
    execs i (n + 1) s = exec i t := by
  induction n generalizing s with
  | zero =>
    obtain rfl : s = t := Host.Outcome.next.inj h
    simp only [execs]
    cases exec i s <;> rfl
  | succ n ih =>
    rw [execs] at h ⊢
    cases hu : exec i s with
    | next u =>
      rw [hu] at h
      exact ih h
    | fault r => rw [hu] at h; contradiction
    | refused r => rw [hu] at h; contradiction

theorem execs_one (i : Instr) (s : State) : execs i 1 s = exec i s := execs_succ_of_next (n := 0) rfl

theorem runMain_first_hold {i : Instr} {p : Prog} {s t : State} {v : DWord} (hm : s.seq.mainCmd = none)
    (hp : p 0 0#64 s = .hold v t) : runMain i p s = .next (inMid t i 1 v) := by
  simp only [runMain, mainIndex_idle hm, mainHeld_idle hm, hp]
  rfl

/-- A transaction between the first and the last. -/
theorem runMain_mid_hold {i j : Instr} {p : Prog} {s t : State} {k : Nat} {h v : DWord}
    (hp : p k h (inMid s j k h) = .hold v (inMid t j k h)) :
    runMain i p (inMid s j k h) = .next (inMid t i (k + 1) v) := by
  have hindex : mainIndex (inMid s j k h) = k := rfl
  have hheld : mainHeld (inMid s j k h) = h := rfl
  simp only [runMain, hindex, hheld, hp]
  rfl

/-- The last transaction of a command. -/
theorem runMain_last_ok {i j : Instr} {p : Prog} {s t : State} {k : Nat} {h v : DWord} (ht : t.seq.mainCmd = none)
    (hp : p k h (inMid s j k h) = .ret .ok v (inMid t j k h)) :
    runMain i p (inMid s j k h) = .next { t with rsp := okRsp v } := by
  have hindex : mainIndex (inMid s j k h) = k := rfl
  have hheld : mainHeld (inMid s j k h) = h := rfl
  have hresp : respond (inMid t j k h) .ok v = { t with rsp := okRsp v } :=
    (respond_inFlight t j k h .ok v).trans (respond_idle ht .ok v)
  simp only [runMain, hindex, hheld, hp, hresp]

/-! ## System-register transactions of the timer -/

section
variable {s : State} {r : SysReg} (he : s.pe.pstate.el ≠ 0#2) (hg : sreGated r = false)
include he hg

/-- The registers that `ICC_SRE` does not gate, the timer's among them, always read. -/
theorem sysReadTx_ungated (next : DWord → State → TxOut) : sysReadTx r next s = next (sysValue s r) s :=
  sysReadTx_ok he next fun h => absurd h (by simp [hg])

theorem sysWriteTx_ungated (v : DWord) (next : State → TxOut) (hw : wakeGated r = false)
    (hr : readOnlySys r = false) : sysWriteTx r v next s = next (sysStore s r v) :=
  sysWriteTx_ok he v next (fun h => absurd h (by simp [hw])) (fun h => absurd h (by simp [hg])) hr

end

/-! ## T.ARM (46_timer_orchestration.md R265) -/

section
variable {s : State} (he : s.pe.pstate.el ≠ 0#2)
include he

theorem exec_tArm_delta (hm : s.seq.mainCmd = none) : exec .tArm s =
    .next (inMid { s with seq.tDelta := s.cfg.timerDelta } .tArm 1 (s.cfg.timerDelta.setWidth 64)) := by
  rw [exec, execTArm]
  exact runMain_first_hold hm (sysReadTx_ungated (r := .cntfrq) he rfl
    fun _ t => .hold (t.cfg.timerDelta.setWidth 64) { t with seq.tDelta := t.cfg.timerDelta })

theorem exec_tArm_compare (h : DWord) : exec .tArm (inMid s .tArm 1 h) =
    .next (inMid { s with timer.cval := s.timer.cnt + (h.setWidth 32).signExtend 64 } .tArm 2 0#64) := by
  rw [exec, execTArm]
  exact runMain_mid_hold
    (sysWriteTx_ungated (s := inMid s .tArm 1 h) (r := .cntpTval) he rfl h goOn rfl rfl)

theorem exec_tArm_readBack (h : DWord) : exec .tArm (inMid s .tArm 2 h) =
    .next (inMid { s with seq.tDiag := s.timer.cval } .tArm 3 s.timer.cval) := by
  rw [exec, execTArm]
  exact runMain_mid_hold (sysReadTx_ungated (s := inMid s .tArm 2 h) (r := .cntpCval) he rfl
    fun c t => .hold c { t with seq.tDiag := c })

theorem exec_tArm_enable (hm : s.seq.mainCmd = none) (h : DWord) : exec .tArm (inMid s .tArm 3 h) =
    .next { s with timer := { s.timer with enable := true, imask := false }, rsp := okRsp h } := by
  rw [exec, execTArm]
  exact runMain_last_ok (t := { s with timer := { s.timer with enable := true, imask := false } }) hm
    (sysWriteTx_ungated (s := inMid s .tArm 3 h) (r := .cntpCtl) he rfl 0x1#64 (fun t => .ret .ok h t) rfl rfl)

end

/-- A delta below `2^31` is its own sign extension (00_scope.md section 6). -/
theorem signExtend_of_lt {d : Word} (h : d.toNat < 2 ^ 31) : d.signExtend 64 = d.setWidth 64 :=
  BitVec.signExtend_eq_setWidth_of_msb_false (BitVec.msb_eq_false_iff_two_mul_lt.mpr (by omega))

/-- Settles O36, one lemma a transaction. -/
theorem timerArmOrder : Obligations.TimerArmOrder := by
  intro s hm he hd
  have hdelta := exec_tArm_delta he hm
  have hcompare : execs .tArm 2 s = .next (inMid { s with
      seq.tDelta := s.cfg.timerDelta
      timer.cval := s.timer.cnt + s.cfg.timerDelta.setWidth 64 } .tArm 2 0#64) := by
    rw [execs_succ_of_next ((execs_one .tArm s).trans hdelta),
      exec_tArm_compare (s := { s with seq.tDelta := s.cfg.timerDelta }) he, setWidth_word, signExtend_of_lt hd]
  have hreadBack := (execs_succ_of_next hcompare).trans (exec_tArm_readBack (s := { s with
    seq.tDelta := s.cfg.timerDelta
    timer.cval := s.timer.cnt + s.cfg.timerDelta.setWidth 64 }) he _)
  have henable := (execs_succ_of_next hreadBack).trans (exec_tArm_enable (s := { s with
    seq.tDelta := s.cfg.timerDelta
    seq.tDiag := s.timer.cnt + s.cfg.timerDelta.setWidth 64
    timer.cval := s.timer.cnt + s.cfg.timerDelta.setWidth 64 }) he hm _)
  exact ⟨hdelta, hcompare, hreadBack, henable⟩

/-! ## T.HANDLE (46_timer_orchestration.md R266) -/

section
variable {s : State} (he : s.pe.pstate.el ≠ 0#2)
include he

theorem exec_tHandle_compare (hm : s.seq.mainCmd = none) : exec .tHandle s =
    .next (inMid { s with timer.cval := s.timer.cnt + s.seq.tDelta.signExtend 64 } .tHandle 1 0#64) := by
  rw [exec, execTHandle]
  exact runMain_first_hold hm ((tHandle_first _ s).trans (if_neg he))

theorem exec_tHandle_readBack (hm : s.seq.mainCmd = none) (h : DWord) : exec .tHandle (inMid s .tHandle 1 h) =
    .next { s with seq.tDiag := s.timer.cval, rsp := okRsp s.timer.cval } := by
  rw [exec, execTHandle]
  exact runMain_last_ok (t := { s with seq.tDiag := s.timer.cval }) hm
    ((tHandle_second h (inMid s .tHandle 1 h)).trans (if_neg he))

end

/-- The counter plus a delta that `T.ARM` can have kept, where the counter does not wrap. -/
theorem toNat_add_delta {cnt : DWord} {d : Word} (hd : d.toNat < 2 ^ 31) (hwrap : cnt.toNat + d.toNat < 2 ^ 64) :
    (cnt + d.signExtend 64).toNat = cnt.toNat + d.toNat := by
  rw [signExtend_of_lt hd, BitVec.toNat_add, BitVec.toNat_setWidth, Nat.mod_eq_of_lt (a := d.toNat) (by omega),
    Nat.mod_eq_of_lt hwrap]

/-- A compare value past the counter keeps the line low (60_exceptions.md R319). -/
theorem timerLine_of_lt {s : State} (h : s.timer.cnt.toNat < s.timer.cval.toNat) : timerLine s = false := by
  rw [timerLine_eq, decide_eq_false (Nat.not_le.mpr h), Bool.and_false]

/-- Settles O37: the two transactions, and the arithmetic of the new compare value. -/
theorem timerHandlerRearms : Obligations.TimerHandlerRearms := by
  intro s hm he
  have hcompare := exec_tHandle_compare he hm
  have hreadBack := (execs_succ_of_next ((execs_one .tHandle s).trans hcompare)).trans
    (exec_tHandle_readBack (s := { s with timer.cval := s.timer.cnt + s.seq.tDelta.signExtend 64 }) he hm 0#64)
  refine ⟨hcompare, hreadBack, fun hexpired hpos hlt hwrap => ?_⟩
  have hnew := toNat_add_delta hlt hwrap
  have hold : s.timer.cval.toNat ≤ s.timer.cnt.toNat := of_decide_eq_true hexpired
  refine ⟨by omega, timerLine_of_lt ?_⟩
  show s.timer.cnt.toNat < (s.timer.cnt + s.seq.tDelta.signExtend 64).toNat
  omega

end Sys2Proof.Proofs
end

section
/-!
PROOFS. The family of 41_field_accessor.md: the geometry of a field (O18), the two commands FRD (O19) and FWR (O20), and
what they come to over plain storage (O21).
-/

namespace Sys2Proof.Proofs

open Sys2Proof Sys2Proof.Machine Sys2Proof.Claims

/-! ## The mask and the place of a field (41_field_accessor.md R180) -/

theorem fieldMask_toNat {wlog : BitVec 3} (hw : wlog.toNat ≤ 4) :
    (Machine.fieldMask wlog).toNat = 2 ^ 2 ^ wlog.toNat - 1 := by
  obtain rfl | rfl | rfl | rfl | rfl := wlog_cases wlog hw <;> rfl

/-- The mask keeps the low `w` bits. -/
theorem and_fieldMask_toNat {wlog : BitVec 3} (hw : wlog.toNat ≤ 4) (v : Word) :
    (v &&& Machine.fieldMask wlog).toNat = v.toNat % 2 ^ 2 ^ wlog.toNat := by
  rw [BitVec.toNat_and, fieldMask_toNat hw, Nat.and_two_pow_sub_one_eq_mod]

/-- The masked low bits of a word, as a result. -/
theorem and_fieldMask_setWidth {wlog : BitVec 3} (hw : wlog.toNat ≤ 4) (v : Word) :
    (v &&& Machine.fieldMask wlog).setWidth 64 = BitVec.ofNat 64 (v.toNat % 2 ^ 2 ^ wlog.toNat) := by
  rw [← and_fieldMask_toNat hw, BitVec.ofNat_toNat]

theorem fieldGet_setWidth {wlog : BitVec 3} (hw : wlog.toNat ≤ 4) (index : Nat) (r : Word) :
    (fieldGet wlog index r).setWidth 64 =
      BitVec.ofNat 64 (r.toNat / 2 ^ fieldShift wlog index % 2 ^ 2 ^ wlog.toNat) := by
  rw [fieldGet, and_fieldMask_setWidth hw, BitVec.toNat_ushiftRight, Nat.shiftRight_eq_div_pow]

/-- Two fields of one register do not overlap. -/
theorem fieldShift_disjoint {wlog : BitVec 3} (hw : wlog.toNat ≤ 4) {base i j : Nat} (hij : i ≠ j)
    (ho : fieldOff wlog base i = fieldOff wlog base j) :
    fieldShift wlog i + 2 ^ wlog.toNat ≤ fieldShift wlog j ∨ fieldShift wlog j + 2 ^ wlog.toNat ≤ fieldShift wlog i := by
  have hnext : ∀ a b, a < b → a * widthOf wlog + widthOf wlog ≤ b * widthOf wlog := fun a b hab => by
    rw [← Nat.succ_mul]
    exact Nat.mul_le_mul_right _ hab
  have hne : i % entriesOf wlog ≠ j % entriesOf wlog := fun he =>
    hij (fieldPlace_injective wlog hw base i j ho (congrArg (· * widthOf wlog) he))
  exact (Nat.lt_or_gt_of_ne hne).imp (hnext _ _) (hnext _ _)

/-- The decode table ends below `2^17`. -/
theorem decodeRows_end_le (c : Config) : ∀ r ∈ decodeRows c.nIds, r.pattern + 4 * r.count ≤ 2 ^ 17 := by
  obtain ⟨-, hn, -⟩ := nIds_bounds c
  have hspan : ∀ r ∈ decodeRows c.nIds, r.pattern + rowSpan r ≤ 2 ^ 17 := by simp [decodeRows, rowSpan]
  exact fun r hr => (Nat.add_le_add_left (decodeRows_count_le hn r hr) _).trans (hspan r hr)

/-- Settles O18: the formulas are the model's own; the rest is that fields stay apart and that the table has an end. -/
theorem fieldGeometry : Obligations.FieldGeometry := by
  intro wlog base hw
  refine ⟨fun index => ⟨rfl, rfl, fieldMask_toNat hw, fieldShift_add_width wlog hw index⟩,
    fieldPlace_injective wlog hw base, fun c b off hoff => bankReg_eq_none fun r hr ⟨_, hwin⟩ => ?_⟩
  have hend := decodeRows_end_le c r hr
  rw [inWindow_iff] at hwin
  omega

/-! ## FRD (41_field_accessor.md R181) -/

section
variable {s : State} {b : Bank} {wlog : BitVec 3} {base : BitVec 17} {index : Word} (hw : wlog.toNat ≤ 4)
include hw

theorem execFrd_eq (s : State) : exec (.frd b wlog base index) s =
    runMain (.frd b wlog base index) (progOf (fieldReadTxs b base.toNat wlog index.toNat)) s := by
  rw [exec, execFrd, frdTxs, if_pos ((wlogLegal_iff wlog).mpr hw)]

theorem exec_frd_ok {r : Word} (hm : s.seq.mainCmd = none)
    (h : memRead s b (fieldOff wlog base.toNat index.toNat) = .ok r) :
    exec (.frd b wlog base index) s =
      .next { s with rsp := okRsp ((fieldGet wlog index.toNat r).setWidth 64) } := by
  rw [execFrd_eq hw]
  exact runMain_first_ok (t := s) hm (by simp only [progOf, fieldReadTxs, List.getD_cons_zero, bankReadTx, h]) hm

theorem exec_frd_error {f : Fault} (hm : s.seq.mainCmd = none)
    (h : memRead s b (fieldOff wlog base.toNat index.toNat) = .error f) :
    exec (.frd b wlog base index) s = .fault f := by
  rw [execFrd_eq hw]
  exact runMain_first_fault hm (by simp only [progOf, fieldReadTxs, List.getD_cons_zero, bankReadTx, h])

end

/-- Settles O19: the one read, and the field taken out of its value. -/
theorem fieldReadReturnsTheField : Obligations.FieldReadReturnsTheField := by
  intro s b wlog base index hm hw
  refine ⟨fun f hf => exec_frd_error hw hm hf, fun r hr => ?_⟩
  rw [exec_frd_ok hw hm hr, fieldGet_setWidth hw]

/-! ## FWR (41_field_accessor.md R182) -/

/-- The first transaction of a read-modify-write faults where its read does. -/
theorem runMain_rmw_read_error {i : Instr} {s : State} {b : Bank} {off : Nat} {g : Word → Word} {f : Fault}
    (hm : s.seq.mainCmd = none) (h : memRead s b off = .error f) : runMain i (progOf (rmwTxs b off g)) s = .fault f :=
  runMain_first_fault hm (by simp only [progOf, rmwTxs, List.getD_cons_zero, readHoldTx, bankReadTx, h])

/-- The second transaction of a read-modify-write, in terms of the write made with the command in flight. -/
theorem runMain_rmw_write_inMid {i : Instr} {s : State} {b : Bank} {off : Nat} {g : Word → Word} (r : Word) :
    (∀ t, memWrite (inMid s i 1 (r.setWidth 64)) b off (g r) = .ok t →
      runMain i (progOf (rmwTxs b off g)) (inMid s i 1 (r.setWidth 64)) = .next (respond t .ok 0#64)) ∧
    (∀ f, memWrite (inMid s i 1 (r.setWidth 64)) b off (g r) = .error f →
      runMain i (progOf (rmwTxs b off g)) (inMid s i 1 (r.setWidth 64)) = .fault f) := by
  have hindex : mainIndex (inMid s i 1 (r.setWidth 64)) = 1 := rfl
  have hheld : mainHeld (inMid s i 1 (r.setWidth 64)) = r.setWidth 64 := rfl
  constructor <;> intro _ h <;>
    simp only [runMain, hindex, hheld, progOf, rmwTxs, List.getD_cons_succ, List.getD_cons_zero, writeHeldTx,
      bankWriteTx, setWidth_word, h, returnOk]

theorem execFwr_eq {b : Bank} {wlog : BitVec 3} {base : BitVec 17} {index : Word} {value : BitVec 16}
    (hw : wlog.toNat ≤ 4) (s : State) : exec (.fwr b wlog base index value) s =
      runMain (.fwr b wlog base index value) (progOf (rmwTxs b (fieldOff wlog base.toNat index.toNat)
        fun r => fieldPut wlog index.toNat r (value.setWidth 32))) s := by
  rw [exec, execFwr, fwrTxs, if_pos ((wlogLegal_iff wlog).mpr hw), fieldWriteTxs]

/-- Settles O20: the word written is `fieldPut` of the word held, whose bits are those of the value or the word's own. -/
theorem fieldWriteIsReadThenWrite : Obligations.FieldWriteIsReadThenWrite := by
  intro s b wlog base index value hw
  refine ⟨fun hm => ⟨fun f hf => ?readFault, fun r hr => ?read⟩,
    fun r => ⟨fieldPut wlog index.toNat r (value.setWidth 32), fun k hk => ?bits, fun t ht => ?write,
      fun f hf => ?writeFault⟩⟩
  case readFault => exact (execFwr_eq hw s).trans (runMain_rmw_read_error hm hf)
  case read => exact (execFwr_eq hw s).trans (runMain_rmw_read hm hr)
  case write => exact (execFwr_eq hw _).trans ((runMain_rmw_write_inMid r).1 t ht)
  case writeFault => exact (execFwr_eq hw _).trans ((runMain_rmw_write_inMid r).2 f hf)
  case bits =>
    rw [fieldPut_getLsbD wlog hw index.toNat r (value.setWidth 32) k hk, BitVec.getLsbD_setWidth,
      decide_eq_true (Nat.lt_of_le_of_lt (Nat.sub_le k _) hk), Bool.true_and]

/-! ## The place of each register -/

/-- The offset of a register in its bank (20_memory.md R82, R83). -/
def regPlace (b : Bank) : BankReg → Nat
  | .ctlr => 0x000
  | .waker => 0x014
  | .grp n => windowBase b + 0x080 + 4 * n
  | .setEn n => windowBase b + 0x100 + 4 * n
  | .clrEn n => windowBase b + 0x180 + 4 * n
  | .setPend n => windowBase b + 0x200 + 4 * n
  | .clrPend n => windowBase b + 0x280 + 4 * n
  | .pri n => windowBase b + 0x400 + 4 * n
  | .tgt n => 0x800 + 4 * n
  | .cfg n => windowBase b + 0xC00 + 4 * n

/-- The storage of a bank has the register. -/
def HasRoom (b : Bank) : BankReg → Prop
  | .ctlr | .waker => True
  | .grp n | .setEn n | .clrEn n | .setPend n | .clrPend n => n < blocksOf b
  | .pri n => n < 8 * blocksOf b
  | .tgt n => n < 256
  | .cfg n => n < 2 * blocksOf b

theorem decodeRows_place (n : Nat) :
    ∀ row ∈ decodeRows n, ∀ k < row.count, regPlace row.bank (row.reg k) = row.pattern + 4 * k := by
  simp [decodeRows, regPlace, windowBase, sgiOff]

theorem decodeRows_room (c : Config) : ∀ row ∈ decodeRows c.nIds, ∀ k < row.count, HasRoom row.bank (row.reg k) := by
  obtain ⟨-, hn, -⟩ := nIds_bounds c
  simp only [decodeRows, List.forall_mem_cons, HasRoom, blocksOf, implies_true, true_and]
  refine ⟨?_, ?_, ?_, ?_, ?_, ?_, ?_, ?_, ?_, ?_, ?_, ?_, ?_, ?_, ?_, List.forall_mem_nil _⟩ <;> omega

/-- What an aligned offset selects has its place there, and the bank stores it. -/
theorem bankReg_place {c : Config} {b : Bank} {off : Nat} {r : BankReg} (ha : off % 4 = 0)
    (hr : bankReg c.nIds b off = some r) : regPlace b r = off ∧ HasRoom b r := by
  by_cases hrow : ∃ row ∈ decodeRows c.nIds, Covers b off row
  · obtain ⟨row, hmem, hc⟩ := hrow
    obtain rfl : row.reg ((off - row.pattern) / 4) = r := Option.some.inj ((bankReg_of_covers ha hmem hc).symm.trans hr)
    obtain ⟨rfl, hwin⟩ := hc
    rw [inWindow_iff] at hwin
    have hk : (off - row.pattern) / 4 < row.count := by omega
    have halign : row.pattern % 4 = 0 := by
      revert row
      simp [decodeRows]
    refine ⟨?_, decodeRows_room c row hmem _ hk⟩
    rw [decodeRows_place _ row hmem _ hk]
    omega
  · have hnone := bankReg_eq_none (n := c.nIds) fun row hmem hc => hrow ⟨row, hmem, hc⟩
    exact absurd (hnone.symm.trans hr) (by simp)

/-! ## Plain storage (40_transactions.md R143) -/

/-- The registers that read as what was written to them. -/
def PlainReg : BankReg → Prop
  | .grp _ | .pri _ | .tgt _ | .cfg _ => True
  | _ => False

theorem exists_plainReg {o : Option BankReg} {n : Nat}
    (h : o ∈ [some (BankReg.grp n), some (.pri n), some (.tgt n), some (.cfg n)]) : ∃ r, o = some r ∧ PlainReg r := by
  simp only [List.mem_cons, List.not_mem_nil, or_false] at h
  obtain rfl | rfl | rfl | rfl := h <;> exact ⟨_, rfl, trivial⟩

theorem regRead_respond (s : State) (st : Status) (v : DWord) (b : Bank) (r : BankReg) :
    regRead (respond s st v) b r = regRead s b r := by
  cases b <;> cases r <;> rfl

theorem memRead_respond (s : State) (st : Status) (v : DWord) (b : Bank) (off : Nat) :
    memRead (respond s st v) b off = memRead s b off := by
  unfold memRead
  simp only [regRead_respond]
  rfl

/-- The target window is not among the arrays of a bank (10_state.md R31). -/
theorem arrays_setTgt (s : State) (g : Vector Word 256) (b : Bank) :
    ({ s with dist.tgt := g } : State).arrays b = s.arrays b := by
  cases b <;> rfl

/-- A write of a plain register takes, and shows in that register and in no other. -/
theorem regWrite_plain (s : State) {b : Bank} {r : BankReg} (v : Word) (hp : PlainReg r) (hroom : HasRoom b r) :
    ∃ t, regWrite s b r v = .ok t ∧
      ∀ r', PlainReg r' → regRead t b r' = if r' = r then v else regRead s b r' := by
  cases r with
  | grp n | pri n | cfg n =>
    have hn : n < _ := hroom
    refine ⟨_, rfl, fun r' hp' => ?_⟩
    cases r' <;> simp [PlainReg, regRead, wordAt_setIfInBounds, hn] at hp' ⊢
  | tgt n =>
    have hn : n < 256 := hroom
    refine ⟨_, rfl, fun r' hp' => ?_⟩
    cases r' <;> simp [PlainReg, regRead, wordAt_setIfInBounds, arrays_setTgt, hn] at hp' ⊢
  | ctlr | waker | setEn n | clrEn n | setPend n | clrPend n => exact hp.elim

theorem awake_of_canWrite {s : State} {b : Bank} (off : Nat) (h : canWrite s b) :
    needsAwake b off = true → awake s = true := fun hn => by
  obtain ⟨rfl, -⟩ := (needsAwake_iff b off).mp hn
  exact h

/-- A bank write over plain storage is read back at its offset, and no other plain register reads differently. -/
theorem memWrite_plain {s : State} {b : Bank} {off : Nat} {r : BankReg} (v : Word) (hw : canWrite s b)
    (ha : off % 4 = 0) (hr : bankReg s.nIds b off = some r) (hp : PlainReg r) :
    ∃ t, memWrite s b off v = .ok t ∧
      ∀ off' r', off' % 4 = 0 → bankReg s.nIds b off' = some r' → PlainReg r' →
        memRead t b off' = .ok (if off' = off then v else regRead s b r') := by
  obtain ⟨hplace, hroom⟩ := bankReg_place ha hr
  obtain ⟨t, ht, hread⟩ := regWrite_plain s v hp hroom
  refine ⟨t, (memWrite_of_reg v ha hr (awake_of_canWrite off hw)).trans ht, fun off' r' ha' hr' hp' => ?_⟩
  have hids : t.nIds = s.nIds := by
    obtain ⟨-, -, -, -, -, -, -, hcfg, -⟩ := regWrite_frame ht
    exact congrArg Config.nIds hcfg
  have hsame : r' = r ↔ off' = off := by
    constructor <;> rintro rfl
    · exact (bankReg_place ha' hr').1.symm.trans hplace
    · exact Option.some.inj (hr'.symm.trans hr)
  rw [memRead_of_reg ha' (hids ▸ hr'), hread r' hp']
  simp only [hsame]

/-! ## A field written and read (41_field_accessor.md R184) -/

/-- The field written reads as the low bits of the value. -/
theorem fieldGet_fieldPut_same {wlog : BitVec 3} (hw : wlog.toNat ≤ 4) (index : Nat) (r v : Word) :
    fieldGet wlog index (fieldPut wlog index r v) = v &&& Machine.fieldMask wlog := by
  have hfit := fieldShift_add_width wlog hw index
  refine BitVec.eq_of_getLsbD_eq fun k _ => ?_
  rw [fieldGet_getLsbD wlog hw, BitVec.getLsbD_and, fieldMask_getLsbD wlog hw, Bool.and_comm]
  by_cases hk : k < 2 ^ wlog.toNat
  · rw [fieldPut_getLsbD wlog hw index r v _ (by omega), if_pos (by omega), Nat.add_sub_cancel_left]
  · simp [hk]

/-- Another field of the same register reads as before. -/
theorem fieldGet_fieldPut_other {wlog : BitVec 3} (hw : wlog.toNat ≤ 4) {base i j : Nat} (hij : i ≠ j)
    (ho : fieldOff wlog base i = fieldOff wlog base j) (r v : Word) :
    fieldGet wlog j (fieldPut wlog i r v) = fieldGet wlog j r := by
  have hfit := fieldShift_add_width wlog hw j
  have hapart := fieldShift_disjoint hw hij ho
  refine BitVec.eq_of_getLsbD_eq fun k _ => ?_
  rw [fieldGet_getLsbD wlog hw, fieldGet_getLsbD wlog hw]
  by_cases hk : k < 2 ^ wlog.toNat
  · rw [fieldPut_getLsbD wlog hw i r v _ (by omega), if_neg (by omega)]
  · simp [hk]

theorem fieldOff_aligned (wlog : BitVec 3) {base : Nat} (index : Nat) (h : base % 4 = 0) :
    fieldOff wlog base index % 4 = 0 := by
  rw [fieldOff]
  omega

/-- FWR over plain storage: it ends with the field replaced in its register, and no other plain register reads
differently. -/
theorem fwr_plain {s : State} {b : Bank} {wlog : BitVec 3} {base : BitVec 17} {index : Word} (value : BitVec 16)
    {r : BankReg} (hm : s.seq.mainCmd = none) (hcan : canWrite s b) (hw : wlog.toNat ≤ 4) (ha : base.toNat % 4 = 0)
    (hr : bankReg s.nIds b (fieldOff wlog base.toNat index.toNat) = some r) (hp : PlainReg r) :
    ∃ t, InTwo (.fwr b wlog base index value) s t ∧ t.seq.mainCmd = none ∧
      ∀ off r', off % 4 = 0 → bankReg s.nIds b off = some r' → PlainReg r' →
        memRead t b off = .ok (if off = fieldOff wlog base.toNat index.toNat then
          fieldPut wlog index.toNat (regRead s b r) (value.setWidth 32) else regRead s b r') := by
  have halign := fieldOff_aligned wlog index.toNat ha
  obtain ⟨u, hu, hread⟩ :=
    memWrite_plain (fieldPut wlog index.toNat (regRead s b r) (value.setWidth 32)) hcan halign hr hp
  refine ⟨respond u .ok 0#64, ⟨(regRead s b r).setWidth 64, ?first, ?second⟩, rfl, ?_⟩
  case first => exact (execFwr_eq hw s).trans (runMain_rmw_read hm (memRead_of_reg halign hr))
  case second =>
    refine (execFwr_eq hw _).trans ((runMain_rmw_write (regRead s b r)).trans ?_)
    rw [hu]
  exact fun off r' ha' hr' hp' => (memRead_respond u .ok 0#64 b off).trans (hread off r' ha' hr' hp')

/-- Settles O21: the field written is read back out of its register; another field shares the register at another place,
or has a register of its own. -/
theorem fieldWriteThenFieldRead : Obligations.FieldWriteThenFieldRead := by
  intro s b wlog base index value hm hcan hw ha ⟨n, hplain⟩
  obtain ⟨r, hr, hp⟩ := exists_plainReg hplain
  obtain ⟨t, htwo, hidle, hread⟩ := fwr_plain value hm hcan hw ha hr hp
  refine ⟨t, htwo, ?written, fun other m hne hother => ?others⟩
  case written =>
    have hback := hread _ r (fieldOff_aligned wlog index.toNat ha) hr hp
    rw [if_pos rfl] at hback
    rw [exec_frd_ok hw hidle hback, fieldGet_fieldPut_same hw, and_fieldMask_setWidth hw, BitVec.toNat_setWidth,
      Nat.mod_eq_of_lt (a := value.toNat) (value.isLt.trans (by decide))]
  case others =>
    obtain ⟨r', hr', hp'⟩ := exists_plainReg hother
    have halign := fieldOff_aligned wlog other.toNat ha
    refine ⟨_, exec_frd_ok hw hm (memRead_of_reg halign hr'), ?_⟩
    rw [exec_frd_ok hw hidle (hread _ r' halign hr' hp')]
    split
    next ho =>
      obtain rfl : r' = r := Option.some.inj (hr'.symm.trans (ho ▸ hr))
      rw [fieldGet_fieldPut_other hw (fun h => hne (BitVec.eq_of_toNat_eq h.symm)) ho.symm]
    next => rfl

end Sys2Proof.Proofs
end

section
/-!
PROOFS. The family of 42_distributor.md: D.INIT (O22), the entries of the distributor's arrays (O23, O24), and the
enable and pending commands of both banks (O25, O27). A per-interrupt command is a range check and one field of one
window; what it does is said for either bank, so that the mirrors of 43_redistributor.md come from the same lemmas.
-/

namespace Sys2Proof.Proofs

open Sys2Proof Sys2Proof.Machine Sys2Proof.Claims

/-! ## Commands as their transactions (42_distributor.md R190, 43_redistributor.md R210) -/

/-- Under the parameters `c` command `i` runs the transactions `l`, from whatever state. -/
def RunsAs (c : Config) (i : Instr) (l : List Tx) : Prop := ∀ u : State, u.cfg = c → exec i u = runMain i (progOf l) u

/-- Transactions behind the range check of a bank. -/
def bankChecked (c : Config) (b : Bank) (id : BitVec 10) (l : List Tx) : List Tx :=
  if id.toNat < idsOf c.nIds b then l else returnTxs .errContract

theorem bankChecked_D (c : Config) (id : BitVec 10) (l : List Tx) : bankChecked c .D id l = dChecked c id l := rfl

theorem bankChecked_R (c : Config) (id : BitVec 10) (l : List Tx) : bankChecked c .R id l = rChecked id l := rfl

section
variable {s : State} {i : Instr} {b : Bank} {id : BitVec 10} {l : List Tx}

/-- A command that issues no transaction answers the contract violation and changes nothing. -/
theorem RunsAs.contract (h : RunsAs s.cfg i (returnTxs .errContract)) (hm : s.seq.mainCmd = none) :
    exec i s = .next { s with rsp := contractRsp } := by
  rw [h s rfl]
  simp only [runMain, mainIndex_idle hm, mainHeld_idle hm, progOf, returnTxs, List.getD_cons_zero, respond_idle hm]
  rfl

theorem RunsAs.inRange (h : RunsAs s.cfg i (bankChecked s.cfg b id l)) (hid : id.toNat < idCount s b) :
    RunsAs s.cfg i l := by
  rwa [bankChecked, ← idCount_eq_idsOf, if_pos hid] at h

theorem RunsAs.outOfRange (h : RunsAs s.cfg i (bankChecked s.cfg b id l)) (hid : idCount s b ≤ id.toNat)
    (hm : s.seq.mainCmd = none) : exec i s = .next { s with rsp := contractRsp } := by
  rw [bankChecked, ← idCount_eq_idsOf, if_neg (Nat.not_lt.mpr hid)] at h
  exact h.contract hm

/-- A read-modify-write of a register the bank can write: its effect is the write rule of the register. -/
theorem RunsAs.readModifyWrite {t : State} {off : Nat} {g : Word → Word} {r : BankReg}
    (h : RunsAs s.cfg i (rmwTxs b off g)) (hm : s.seq.mainCmd = none) (hw : canWrite s b) (hs : Selects s b off r)
    (ht : regWrite s b r (g (regRead s b r)) = .ok t) : InTwo i s { t with rsp := okRsp 0#64 } := by
  obtain ⟨-, ha, hr⟩ := hs
  have hidle : t.seq.mainCmd = none := by
    obtain ⟨-, -, -, hseq, -⟩ := regWrite_frame ht
    rw [hseq, hm]
  refine ⟨_, (h s rfl).trans (runMain_rmw_read hm (memRead_of_reg ha hr)), ?_⟩
  refine (h (inMid s i 1 _) rfl).trans ((runMain_rmw_write (regRead s b r)).trans ?_)
  rw [memWrite_of_reg _ ha hr (awake_of_canWrite off hw), ht]
  exact congrArg Host.Outcome.next (respond_idle hidle .ok 0#64)

/-- A field read answers the field of the register. -/
theorem RunsAs.fieldRead {base : Nat} {wlog : BitVec 3} {index : Nat} {r : BankReg}
    (h : RunsAs s.cfg i (fieldReadTxs b base wlog index)) (hm : s.seq.mainCmd = none)
    (hs : Selects s b (fieldOff wlog base index) r) :
    exec i s = .next { s with rsp := okRsp ((fieldGet wlog index (regRead s b r)).setWidth 64) } := by
  obtain ⟨-, ha, hr⟩ := hs
  rw [h s rfl]
  exact runMain_first_ok (t := s) hm
    (by simp only [progOf, fieldReadTxs, List.getD_cons_zero, bankReadTx, memRead_of_reg ha hr]) hm

end

/-! ## Fields of the set and clear windows (40_transactions.md R144 to R147) -/

/-- A field write of 1 to a set window whose view reads as `view`: the entry is set, and with it every entry of the
register whose view reads 1 (70_reset_and_hazards.md R360). -/
theorem bitAt_setField {k : Nat} (a : Vector Word k) {id : Nat} {r : Word} {view : Nat → Bool} (hid : id < 32 * k)
    (hr : ∀ m < 32, r.getLsbD m = view (32 * (id / 32) + m)) (j : Nat) :
    bitAt (a.setIfInBounds (id / 32) (wordAt a (id / 32) ||| fieldPut wlogBit id r 1#32)) j =
      (bitAt a j || decide (j = id) || (decide (j / 32 = id / 32) && view j)) := by
  have hm : j % 32 < 32 := Nat.mod_lt _ (by decide)
  rw [bitAt_or _ _ _ (by omega), fieldPut_bit _ _ _ _ hm, hr _ hm, Bool.or_assoc]
  by_cases hreg : j / 32 = id / 32
  · rw [show 32 * (id / 32) + j % 32 = j by omega]
    by_cases hj : j = id
    · simp [hj]
    · simp [hj, hreg, show j % 32 ≠ id % 32 by omega]
  · simp [hreg, show j ≠ id by omega]

/-- A field write of 1 to a clear window, which reads as zero: that entry is cleared and no other. -/
theorem bitAt_clearField {k : Nat} (a : Vector Word k) (id : Nat) (hid : id < 32 * k) (j : Nat) :
    bitAt (a.setIfInBounds (id / 32) (wordAt a (id / 32) &&& ~~~fieldPut wlogBit id 0#32 1#32)) j =
      if j = id then false else bitAt a j := by
  rw [bitAt_andNot _ _ _ (by omega), fieldPut_one_zero]
  by_cases hj : j = id
  · simp [hj]
  · have hplace : ¬(j / 32 = id / 32 ∧ j % 32 = id % 32) := by omega
    simp [hj, ← Bool.decide_and, hplace]

/-- A 1-bit field read, as a result. -/
theorem fieldGet_bit_setWidth (id : Nat) (r : Word) :
    (fieldGet wlogBit id r).setWidth 64 = BitVec.ofNat 64 (r.getLsbD (id % 32)).toNat := by
  have hshift : fieldShift wlogBit id = id % 32 := Nat.mul_one _
  rw [fieldGet_setWidth (by decide), hshift, BitVec.getLsbD, Nat.toNat_testBit]
  rfl

/-! ## What a field access of each window does, in either bank -/

/-- The IDs of a bank fill whole registers. -/
theorem idCount_mod (s : State) : ∀ b, idCount s b % 32 = 0
  | .D => by
    obtain ⟨-, -, hmod⟩ := nIds_bounds s.cfg
    exact hmod
  | .R => Nat.mod_self 32

/-- The windows that hold the entry of an interrupt the bank stores. -/
theorem selects_bitFields {s : State} {b : Bank} {id : Nat} (hid : id < idCount s b) :
    Selects s b (fieldOff wlogBit (winBase b + 0x080) id) (.grp (id / 32)) ∧
    Selects s b (fieldOff wlogBit (winBase b + 0x100) id) (.setEn (id / 32)) ∧
    Selects s b (fieldOff wlogBit (winBase b + 0x180) id) (.clrEn (id / 32)) ∧
    Selects s b (fieldOff wlogBit (winBase b + 0x200) id) (.setPend (id / 32)) ∧
    Selects s b (fieldOff wlogBit (winBase b + 0x280) id) (.clrPend (id / 32)) := by
  have hblocks := idCount_mod s b
  simp only [fieldOff_bit]
  exact selects_bitWindows (by omega)

theorem selects_priField {s : State} {b : Bank} {id : Nat} (hid : id < idCount s b) :
    Selects s b (fieldOff wlogByte (winBase b + 0x400) id) (.pri (id / 4)) := by
  have hblocks := idCount_mod s b
  rw [fieldOff_byte]
  exact selects_pri (by omega)

theorem selects_cfgField {s : State} {b : Bank} {id : Nat} (hid : id < idCount s b) :
    Selects s b (fieldOff wlogPair (winBase b + 0xC00) id) (.cfg (id / 16)) := by
  have hblocks := idCount_mod s b
  rw [fieldOff_pair]
  exact selects_cfg (by omega)

/-- A read of a field of the set-pending window answers the pending view of the interrupt. -/
theorem RunsAs.readsPending {s : State} {i : Instr} {b : Bank} {id : BitVec 10} (hm : s.seq.mainCmd = none)
    (hid : id.toNat < idCount s b)
    (h : RunsAs s.cfg i (bankChecked s.cfg b id (fieldReadTxs b (winBase b + 0x200) wlogBit id.toNat))) :
    exec i s = .next { s with rsp := okRsp (BitVec.ofNat 64 (pend s b id.toNat).toNat) } := by
  obtain ⟨-, -, -, hsetp, -⟩ := selects_bitFields hid
  rw [(h.inRange hid).fieldRead hm hsetp, fieldGet_bit_setWidth,
    regRead_setPend_getLsbD _ _ _ _ (Nat.mod_lt _ (by decide)), Nat.div_add_mod]

section
variable {s : State} {i : Instr} {b : Bank} {id : BitVec 10} {v : BitVec 8}
  (hm : s.seq.mainCmd = none) (hw : canWrite s b) (hid : id.toNat < idCount s b)
include hm hw hid

theorem RunsAs.setsGroup
    (h : RunsAs s.cfg i (bankChecked s.cfg b id
      (fieldWriteTxs b (winBase b + 0x080) wlogBit id.toNat (v.setWidth 32)))) :
    ∃ g, InTwo i s { s.setArrays b { s.arrays b with grp := g } with rsp := okRsp 0#64 } ∧
      ∀ k, bitAt g k = if k = id.toNat then v.getLsbD 0 else group1 s b k := by
  obtain ⟨hroom, -⟩ := idCount_bounds s b
  obtain ⟨hgrp, -⟩ := selects_bitFields hid
  refine ⟨_, (h.inRange hid).readModifyWrite hm hw hgrp rfl, fun k => ?_⟩
  refine (bitAt_field (s.arrays b).grp id.toNat (v.setWidth 32) (by omega) k).trans ?_
  rw [BitVec.getLsbD_setWidth, decide_eq_true (by decide), Bool.true_and, group1]

theorem RunsAs.setsPriority
    (h : RunsAs s.cfg i (bankChecked s.cfg b id
      (fieldWriteTxs b (winBase b + 0x400) wlogByte id.toNat (v.setWidth 32)))) :
    ∃ p, InTwo i s { s.setArrays b { s.arrays b with pri := p } with rsp := okRsp 0#64 } ∧
      ∀ k, byteAt p k = if k = id.toNat then v else priority s b k := by
  obtain ⟨hroom, -⟩ := idCount_bounds s b
  refine ⟨_, (h.inRange hid).readModifyWrite hm hw (selects_priField hid) rfl, fun k => ?_⟩
  refine (byteAt_field (s.arrays b).pri id.toNat (v.setWidth 32) (by omega) k).trans ?_
  rw [BitVec.extractLsb'_setWidth_of_le (by decide), BitVec.extractLsb'_eq_self, priority]

theorem RunsAs.setsConfig
    (h : RunsAs s.cfg i (bankChecked s.cfg b id
      (fieldWriteTxs b (winBase b + 0xC00) wlogPair id.toNat (v.setWidth 32)))) :
    ∃ c, InTwo i s { s.setArrays b { s.arrays b with cfg := c } with rsp := okRsp 0#64 } ∧
      ∀ k, pairAt c k = if k = id.toNat then v.extractLsb' 0 2 else pairAt (s.arrays b).cfg k := by
  obtain ⟨hroom, -⟩ := idCount_bounds s b
  refine ⟨_, (h.inRange hid).readModifyWrite hm hw (selects_cfgField hid) rfl, fun k => ?_⟩
  refine (pairAt_field (s.arrays b).cfg id.toNat (v.setWidth 32) (by omega) k).trans ?_
  rw [BitVec.extractLsb'_setWidth_of_le (by decide)]

/-- The set-enable window reads as the enables themselves, so nothing but the one enable moves. -/
theorem RunsAs.setsEnable
    (h : RunsAs s.cfg i (bankChecked s.cfg b id (fieldWriteTxs b (winBase b + 0x100) wlogBit id.toNat 1#32))) :
    ∃ e, InTwo i s { s.setArrays b { s.arrays b with en := e } with rsp := okRsp 0#64 } ∧
      ∀ k, bitAt e k = if k = id.toNat then true else enabled s b k := by
  obtain ⟨hroom, -⟩ := idCount_bounds s b
  obtain ⟨-, hset, -⟩ := selects_bitFields hid
  refine ⟨_, (h.inRange hid).readModifyWrite hm hw hset rfl, fun k => ?_⟩
  refine (bitAt_setField (s.arrays b).en (by omega) (fun m => wordAt_getLsbD _ _ m) k).trans ?_
  rw [enabled]
  by_cases hk : k = id.toNat
  · simp [hk]
  · cases bitAt (s.arrays b).en k <;> simp [hk]

theorem RunsAs.clearsEnable
    (h : RunsAs s.cfg i (bankChecked s.cfg b id (fieldWriteTxs b (winBase b + 0x180) wlogBit id.toNat 1#32))) :
    ∃ e, InTwo i s { s.setArrays b { s.arrays b with en := e } with rsp := okRsp 0#64 } ∧
      ∀ k, bitAt e k = if k = id.toNat then false else enabled s b k := by
  obtain ⟨hroom, -⟩ := idCount_bounds s b
  obtain ⟨-, -, hclr, -⟩ := selects_bitFields hid
  exact ⟨_, (h.inRange hid).readModifyWrite hm hw hclr rfl, bitAt_clearField (s.arrays b).en id.toNat (by omega)⟩

/-- The set-pending window reads as the pending view, so the whole register's view is latched
(70_reset_and_hazards.md R360). -/
theorem RunsAs.setsPending
    (h : RunsAs s.cfg i (bankChecked s.cfg b id (fieldWriteTxs b (winBase b + 0x200) wlogBit id.toNat 1#32))) :
    ∃ p, InTwo i s { s.setArrays b { s.arrays b with platch := p } with rsp := okRsp 0#64 } ∧
      ∀ k, bitAt p k =
        (latch s b k || decide (k = id.toNat) || (decide (k / 32 = id.toNat / 32) && pend s b k)) := by
  obtain ⟨hroom, -⟩ := idCount_bounds s b
  obtain ⟨-, -, -, hsetp, -⟩ := selects_bitFields hid
  exact ⟨_, (h.inRange hid).readModifyWrite hm hw hsetp rfl,
    bitAt_setField (s.arrays b).platch (by omega) (regRead_setPend_getLsbD s b _)⟩

theorem RunsAs.clearsPending
    (h : RunsAs s.cfg i (bankChecked s.cfg b id (fieldWriteTxs b (winBase b + 0x280) wlogBit id.toNat 1#32))) :
    ∃ p, InTwo i s { s.setArrays b { s.arrays b with platch := p } with rsp := okRsp 0#64 } ∧
      ∀ k, bitAt p k = if k = id.toNat then false else latch s b k := by
  obtain ⟨hroom, -⟩ := idCount_bounds s b
  obtain ⟨-, -, -, -, hclrp⟩ := selects_bitFields hid
  exact ⟨_, (h.inRange hid).readModifyWrite hm hw hclrp rfl, bitAt_clearField (s.arrays b).platch id.toNat (by omega)⟩

end

/-! ## One entry of one array (R192, R195, R197) -/

section
variable (c : Config) (id : BitVec 10)

theorem runsAs_dSetGrp {v : BitVec 8} (hv : v.toNat ≤ 1) : RunsAs c (.dSetGrp id v)
    (bankChecked c .D id (fieldWriteTxs .D 0x080 wlogBit id.toNat (v.setWidth 32))) := by
  rintro u rfl
  rw [exec, execDSetGrp, dSetGrpTxs, if_pos (show groupLegal v = true from decide_eq_true hv), bankChecked_D]

theorem runsAs_dSetPri (v : BitVec 8) : RunsAs c (.dSetPri id v)
    (bankChecked c .D id (fieldWriteTxs .D 0x400 wlogByte id.toNat (v.setWidth 32))) :=
  fun _ hu => hu ▸ rfl

theorem runsAs_dSetCfg {v : BitVec 8} (hv : v.toNat ≤ 3) : RunsAs c (.dSetCfg id v)
    (bankChecked c .D id (fieldWriteTxs .D 0xC00 wlogPair id.toNat (v.setWidth 32))) := by
  rintro u rfl
  rw [exec, execDSetCfg, dSetCfgTxs, if_pos hv, bankChecked_D]

theorem runsAs_dSetCfg_outOfRange {v : BitVec 8} (hv : 3 < v.toNat) :
    RunsAs c (.dSetCfg id v) (returnTxs .errContract) := by
  rintro u rfl
  rw [exec, execDSetCfg, dSetCfgTxs, if_neg (Nat.not_le.mpr hv)]

end

theorem canWrite_D (s : State) : canWrite s .D := trivial

theorem canWrite_R {s : State} (h : awake s = true) : canWrite s .R := h

/-- Settles O23: in range each command is one field of one window; the checks come before any transaction. -/
theorem distributorSetsOneEntry : Obligations.DistributorSetsOneEntry := by
  intro s id v hm
  have hconfig : 3 < v.toNat → exec (.dSetCfg id v) s = .next { s with rsp := contractRsp } := fun hv =>
    (runsAs_dSetCfg_outOfRange s.cfg id hv).contract hm
  refine ⟨fun hid => ⟨fun hv => ?_, ?_, fun hv => ?_⟩, fun hid => ⟨fun hv => ?_, ?_, ?_⟩, hconfig⟩
  · exact (runsAs_dSetGrp s.cfg id hv).setsGroup hm (canWrite_D s) hid
  · exact (runsAs_dSetPri s.cfg id v).setsPriority hm (canWrite_D s) hid
  · exact (runsAs_dSetCfg s.cfg id hv).setsConfig hm (canWrite_D s) hid
  · exact (runsAs_dSetGrp s.cfg id hv).outOfRange hid hm
  · exact (runsAs_dSetPri s.cfg id v).outOfRange hid hm
  · exact (Nat.lt_or_ge 3 v.toNat).elim hconfig fun hv => (runsAs_dSetCfg s.cfg id hv).outOfRange hid hm

/-! ## Targets (R196) -/

/-- The bytes of a word with one bit set. -/
theorem bitMask_byte {m cpu : Nat} (hm : m < 4) (hcpu : cpu ≤ 7) (n : Nat) :
    (bitMask (8 * m + cpu)).extractLsb' (8 * n) 8 = if n = m then 1#8 <<< cpu else 0#8 := by
  refine BitVec.eq_of_getLsbD_eq fun i hi => ?_
  rw [BitVec.getLsbD_extractLsb', bitMask_getLsbD]
  split
  next h =>
    rw [h, ← BitVec.twoPow_eq, BitVec.getLsbD_twoPow]
    simp [hi, show 8 * m + i < 32 by omega, show cpu < 8 by omega, eq_comm]
  next h => simp [show 8 * n + i ≠ 8 * m + cpu by omega]

/-- One bit set in the byte of an entry: no other entry moves. -/
theorem byteAt_orBit {k : Nat} (a : Vector Word k) {id cpu : Nat} (hid : id < 4 * k) (hcpu : cpu ≤ 7) (j : Nat) :
    byteAt (a.setIfInBounds (id / 4) (wordAt a (id / 4) ||| bitMask (fieldShift wlogByte id + cpu))) j =
      if j = id then byteAt a j ||| 1#8 <<< cpu else byteAt a j := by
  have hshift : fieldShift wlogByte id = id % 4 * 8 := rfl
  rw [byteAt_setIfInBounds _ _ _ _ (by omega), hshift]
  by_cases hreg : j / 4 = id / 4
  · have hold : (wordAt a (id / 4)).extractLsb' (8 * (j % 4)) 8 = byteAt a j := by rw [byteAt, hreg]
    have hsame : j % 4 = id % 4 ↔ j = id := by omega
    rw [if_pos hreg, BitVec.extractLsb'_or, hold, Nat.mul_comm (id % 4), bitMask_byte (by omega) hcpu]
    simp only [hsame]
    split
    next => rfl
    next => exact BitVec.or_zero
  · rw [if_neg hreg, if_neg (by omega)]

theorem runsAs_dSetTgt (c : Config) (id : BitVec 10) {cpu : BitVec 8} (hcpu : cpu.toNat ≤ 7) :
    RunsAs c (.dSetTgt id cpu) (bankChecked c .D id (rmwTxs .D (fieldOff wlogByte 0x800 id.toNat) fun r =>
      r ||| bitMask (fieldShift wlogByte id.toNat + cpu.toNat))) := by
  rintro u rfl
  rw [exec, execDSetTgt, dSetTgtTxs, if_pos hcpu, bankChecked_D]

theorem runsAs_dSetTgt_outOfRange (c : Config) (id : BitVec 10) {cpu : BitVec 8} (hcpu : 7 < cpu.toNat) :
    RunsAs c (.dSetTgt id cpu) (returnTxs .errContract) := by
  rintro u rfl
  rw [exec, execDSetTgt, dSetTgtTxs, if_neg (Nat.not_le.mpr hcpu)]

/-- Settles O24: in range the command is a read-modify-write that ORs one bit into the target register. -/
theorem distributorAddsATarget : Obligations.DistributorAddsATarget := by
  intro s id cpu hm
  refine ⟨fun hid hcpu => ?inRange, fun hbad => ?outOfRange⟩
  case inRange =>
    obtain ⟨-, hids, hmod⟩ := nIds_bounds s.cfg
    have hsel : Selects s .D (fieldOff wlogByte 0x800 id.toNat) (.tgt (id.toNat / 4)) := by
      rw [fieldOff_byte]
      exact selects_tgt (by omega)
    exact ⟨_, ((runsAs_dSetTgt s.cfg id hcpu).inRange hid).readModifyWrite
      (t := { s with dist.tgt := s.dist.tgt.setIfInBounds (id.toNat / 4) _ }) hm (canWrite_D s) hsel rfl,
      byteAt_orBit s.dist.tgt (by omega) hcpu⟩
  case outOfRange =>
    rcases Nat.lt_or_ge 7 cpu.toNat with hcpu | hcpu
    · exact (runsAs_dSetTgt_outOfRange s.cfg id hcpu).contract hm
    · exact (runsAs_dSetTgt s.cfg id hcpu).outOfRange (hbad.resolve_left (Nat.not_lt.mpr hcpu)) hm

/-! ## Enables (R193, R194, R213, R214) -/

section
variable (c : Config) (id : BitVec 10)

theorem runsAs_dSetEn :
    RunsAs c (.dSetEn id) (bankChecked c .D id (fieldWriteTxs .D 0x100 wlogBit id.toNat 1#32)) :=
  fun _ hu => hu ▸ rfl

theorem runsAs_dClrEn :
    RunsAs c (.dClrEn id) (bankChecked c .D id (fieldWriteTxs .D 0x180 wlogBit id.toNat 1#32)) :=
  fun _ hu => hu ▸ rfl

theorem runsAs_rSetEn :
    RunsAs c (.rSetEn id) (bankChecked c .R id (fieldWriteTxs .R 0x10100 wlogBit id.toNat 1#32)) := fun _ _ => rfl

theorem runsAs_rClrEn :
    RunsAs c (.rClrEn id) (bankChecked c .R id (fieldWriteTxs .R 0x10180 wlogBit id.toNat 1#32)) := fun _ _ => rfl

end

/-- Settles O25: each command is one field of a set or a clear window of its bank. -/
theorem enableCommandsMoveOneBit : Obligations.EnableCommandsMoveOneBit := by
  intro s id hm
  have hset := runsAs_dSetEn s.cfg id
  have hclr := runsAs_dClrEn s.cfg id
  have hsetR := runsAs_rSetEn s.cfg id
  have hclrR := runsAs_rClrEn s.cfg id
  exact ⟨fun hid => ⟨hset.setsEnable hm (canWrite_D s) hid, hclr.clearsEnable hm (canWrite_D s) hid⟩,
    fun hid => ⟨hset.outOfRange hid hm, hclr.outOfRange hid hm⟩,
    fun hid hw => ⟨hsetR.setsEnable hm (canWrite_R hw) hid, hclrR.clearsEnable hm (canWrite_R hw) hid⟩,
    fun hid => ⟨hsetR.outOfRange hid hm, hclrR.outOfRange hid hm⟩⟩

/-! ## Pending (R198 to R200, R218 to R220) -/

section
variable (c : Config) (id : BitVec 10)

theorem runsAs_dSetPend :
    RunsAs c (.dSetPend id) (bankChecked c .D id (fieldWriteTxs .D 0x200 wlogBit id.toNat 1#32)) :=
  fun _ hu => hu ▸ rfl

theorem runsAs_dClrPend :
    RunsAs c (.dClrPend id) (bankChecked c .D id (fieldWriteTxs .D 0x280 wlogBit id.toNat 1#32)) :=
  fun _ hu => hu ▸ rfl

theorem runsAs_dGetPend : RunsAs c (.dGetPend id) (bankChecked c .D id (fieldReadTxs .D 0x200 wlogBit id.toNat)) :=
  fun _ hu => hu ▸ rfl

theorem runsAs_rSetPend :
    RunsAs c (.rSetPend id) (bankChecked c .R id (fieldWriteTxs .R 0x10200 wlogBit id.toNat 1#32)) := fun _ _ => rfl

theorem runsAs_rClrPend :
    RunsAs c (.rClrPend id) (bankChecked c .R id (fieldWriteTxs .R 0x10280 wlogBit id.toNat 1#32)) := fun _ _ => rfl

theorem runsAs_rGetPend : RunsAs c (.rGetPend id) (bankChecked c .R id (fieldReadTxs .R 0x10200 wlogBit id.toNat)) :=
  fun _ _ => rfl

end

/-- Settles O27: a set writes back the pending view it has read, a clear window reads as zero, a get only reads; in bank
R the one register holds every interrupt. -/
theorem pendingCommands : Obligations.PendingCommands := by
  intro s id hm
  have hset := runsAs_dSetPend s.cfg id
  have hclr := runsAs_dClrPend s.cfg id
  have hget := runsAs_dGetPend s.cfg id
  have hsetR := runsAs_rSetPend s.cfg id
  have hclrR := runsAs_rClrPend s.cfg id
  have hgetR := runsAs_rGetPend s.cfg id
  refine ⟨fun hid => ⟨hset.setsPending hm (canWrite_D s) hid, hclr.clearsPending hm (canWrite_D s) hid,
      hget.readsPending hm hid⟩,
    fun hid => ⟨hset.outOfRange hid hm, hclr.outOfRange hid hm, hget.outOfRange hid hm⟩,
    fun hid => ⟨hgetR.readsPending hm hid, fun hw => ⟨?setR, hclrR.clearsPending hm (canWrite_R hw) hid⟩⟩,
    fun hid => ⟨hsetR.outOfRange hid hm, hclrR.outOfRange hid hm, hgetR.outOfRange hid hm⟩⟩
  case setR =>
    have hreg : ∀ k, k / 32 = id.toNat / 32 ↔ k < 32 := by omega
    have hlatched := hsetR.setsPending hm (canWrite_R hw) hid
    simp only [hreg] at hlatched
    exact hlatched

/-! ## D.INIT (R191) -/

/-- A write back of the word read with `DS` set takes `DS` alone, whether or not `DS` was set. -/
theorem ctlrWrite_setDs (c : DCtlr) : ctlrWrite c (ctlrWord c ||| 0x40#32) = { c with ds := true } := by
  obtain ⟨g0, g1, are, ds⟩ := c
  revert g0 g1 are ds
  decide

theorem ctlrWrite_setGroups {c : DCtlr} (h : c.ds = true) :
    ctlrWrite c (ctlrWord c ||| 0x3#32) = { c with enG0 := true, enG1 := true } := by
  obtain ⟨g0, g1, are, ds⟩ := c
  revert g0 g1 are ds
  decide

theorem ctlrWrite_setAre {c : DCtlr} (h : c.ds = true) :
    ctlrWrite c (ctlrWord c ||| 0x10#32) = { c with are := true } := by
  obtain ⟨g0, g1, are, ds⟩ := c
  revert g0 g1 are ds
  decide

/-- A transaction that reads `D_CTLR` holds its word. -/
theorem readHoldTx_ctlr (h : DWord) (s : State) :
    readHoldTx .D 0x000 h s = .hold ((ctlrWord s.dist.ctlr).setWidth 64) s := by
  simp only [readHoldTx, bankReadTx, memRead_of_reg rfl (bankReg_ctlr _), regRead]

/-- A transaction that writes `D_CTLR` writes the word held, changed by `f`. -/
theorem writeHeldTx_ctlr (f : Word → Word) (next : State → TxOut) {r : Word} {s : State} {c : DCtlr}
    (hc : ctlrWrite s.dist.ctlr (f r) = c) :
    writeHeldTx .D 0x000 f next (r.setWidth 64) s = next { s with dist.ctlr := c } := by
  rw [writeHeldTx, bankWriteTx, memWrite_of_reg _ rfl (bankReg_ctlr _) fun h => absurd h (by decide), setWidth_word,
    ← hc]
  rfl

section
variable {s : State}

theorem exec_dInit_read_first (hm : s.seq.mainCmd = none) :
    exec .dInit s = .next (inMid s .dInit 1 ((ctlrWord s.dist.ctlr).setWidth 64)) := by
  rw [exec, execDInit]
  exact runMain_first_hold hm (readHoldTx_ctlr 0#64 s)

theorem exec_dInit_write_ds : exec .dInit (inMid s .dInit 1 ((ctlrWord s.dist.ctlr).setWidth 64)) =
    .next (inMid { s with dist.ctlr.ds := true } .dInit 2 0#64) := by
  rw [exec, execDInit]
  exact runMain_mid_hold (writeHeldTx_ctlr (· ||| 0x40#32) goOn (s := inMid s .dInit 1 _) (ctlrWrite_setDs s.dist.ctlr))

/-- The second and the third read. -/
theorem exec_dInit_read_again {k : Nat} (hk : k = 2 ∨ k = 4) (h : DWord) : exec .dInit (inMid s .dInit k h) =
    .next (inMid s .dInit (k + 1) ((ctlrWord s.dist.ctlr).setWidth 64)) := by
  rw [exec, execDInit]
  obtain rfl | rfl := hk <;> exact runMain_mid_hold (readHoldTx_ctlr h _)

theorem exec_dInit_write_groups (hds : s.dist.ctlr.ds = true) :
    exec .dInit (inMid s .dInit 3 ((ctlrWord s.dist.ctlr).setWidth 64)) =
      .next (inMid { s with dist.ctlr := { s.dist.ctlr with enG0 := true, enG1 := true } } .dInit 4 0#64) := by
  rw [exec, execDInit]
  exact runMain_mid_hold (writeHeldTx_ctlr (· ||| 0x3#32) goOn (s := inMid s .dInit 3 _) (ctlrWrite_setGroups hds))

theorem exec_dInit_write_are (hm : s.seq.mainCmd = none) (hds : s.dist.ctlr.ds = true) :
    exec .dInit (inMid s .dInit 5 ((ctlrWord s.dist.ctlr).setWidth 64)) =
      .next { s with dist.ctlr.are := true, rsp := okRsp 0#64 } := by
  rw [exec, execDInit]
  exact runMain_last_ok (t := { s with dist.ctlr.are := true }) hm
    (writeHeldTx_ctlr (· ||| 0x10#32) returnOk (s := inMid s .dInit 5 _) (ctlrWrite_setAre hds))

end

/-- Settles O22, one lemma a transaction: `DS` makes the two later writes take. -/
theorem distributorInitOrder : Obligations.DistributorInitOrder := by
  intro s hm
  have hfirst := exec_dInit_read_first hm
  have hds := (execs_succ_of_next ((execs_one .dInit s).trans hfirst)).trans exec_dInit_write_ds
  have hsecond := (execs_succ_of_next hds).trans (exec_dInit_read_again (.inl rfl) _)
  have hgroups := (execs_succ_of_next hsecond).trans (exec_dInit_write_groups rfl)
  have hthird := (execs_succ_of_next hgroups).trans (exec_dInit_read_again (.inr rfl) _)
  have hare := (execs_succ_of_next hthird).trans (exec_dInit_write_are hm rfl)
  exact ⟨hfirst, hds, hgroups, hare⟩

end Sys2Proof.Proofs
end

section
/-!
PROOFS. The family of 43_redistributor.md: the entries of the redistributor's arrays (O26), and the wake sequence
R.INIT, transaction by transaction (O28) and over a run of polls (O29).
-/

namespace Sys2Proof.Proofs

open Sys2Proof Sys2Proof.Machine Sys2Proof.Claims

/-! ## One entry of one array (R212, R215, R216, R217) -/

/-- An 8-bit field read, as a result. -/
theorem fieldGet_byte_setWidth (id : Nat) (r : Word) :
    (fieldGet wlogByte id r).setWidth 64 = (r.extractLsb' (8 * (id % 4)) 8).setWidth 64 := by
  have hshift : fieldShift wlogByte id = 8 * (id % 4) := Nat.mul_comm (id % 4) 8
  rw [fieldGet_setWidth (by decide), hshift]
  refine BitVec.eq_of_toNat_eq ?_
  rw [BitVec.toNat_ofNat, BitVec.toNat_setWidth, BitVec.extractLsb'_toNat, Nat.shiftRight_eq_div_pow]
  rfl

/-- A read of a field of the priority window answers the priority of the interrupt. -/
theorem RunsAs.readsPriority {s : State} {i : Instr} {b : Bank} {id : BitVec 10} (hm : s.seq.mainCmd = none)
    (hid : id.toNat < idCount s b)
    (h : RunsAs s.cfg i (bankChecked s.cfg b id (fieldReadTxs b (winBase b + 0x400) wlogByte id.toNat))) :
    exec i s = .next { s with rsp := okRsp ((priority s b id.toNat).setWidth 64) } := by
  rw [(h.inRange hid).fieldRead hm (selects_priField hid), fieldGet_byte_setWidth]
  rfl

section
variable (c : Config) (id : BitVec 10)

theorem runsAs_rSetGrp {v : BitVec 8} (hv : v.toNat ≤ 1) : RunsAs c (.rSetGrp id v)
    (bankChecked c .R id (fieldWriteTxs .R 0x10080 wlogBit id.toNat (v.setWidth 32))) := by
  rintro u rfl
  rw [exec, execRSetGrp, rSetGrpTxs, if_pos (show groupLegal v = true from decide_eq_true hv), bankChecked_R]

theorem runsAs_rSetPri (v : BitVec 8) : RunsAs c (.rSetPri id v)
    (bankChecked c .R id (fieldWriteTxs .R 0x10400 wlogByte id.toNat (v.setWidth 32))) := fun _ _ => rfl

theorem runsAs_rGetPri : RunsAs c (.rGetPri id) (bankChecked c .R id (fieldReadTxs .R 0x10400 wlogByte id.toNat)) :=
  fun _ _ => rfl

theorem runsAs_rSetCfg {v : BitVec 8} (hv : v.toNat ≤ 3) : RunsAs c (.rSetCfg id v)
    (bankChecked c .R id (fieldWriteTxs .R 0x10C00 wlogPair id.toNat (v.setWidth 32))) := by
  rintro u rfl
  rw [exec, execRSetCfg, rSetCfgTxs, if_pos hv, bankChecked_R]

theorem runsAs_rSetCfg_outOfRange {v : BitVec 8} (hv : 3 < v.toNat) :
    RunsAs c (.rSetCfg id v) (returnTxs .errContract) := by
  rintro u rfl
  rw [exec, execRSetCfg, rSetCfgTxs, if_neg (Nat.not_le.mpr hv)]

end

/-- Settles O26: in range each command is one field of one window of bank R; the checks come before any transaction. -/
theorem redistributorSetsOneEntry : Obligations.RedistributorSetsOneEntry := by
  intro s id v hm
  have hget := runsAs_rGetPri s.cfg id
  have hpri := runsAs_rSetPri s.cfg id v
  have hconfig : 3 < v.toNat → exec (.rSetCfg id v) s = .next { s with rsp := contractRsp } := fun hv =>
    (runsAs_rSetCfg_outOfRange s.cfg id hv).contract hm
  refine ⟨fun hid => ⟨hget.readsPriority hm hid, fun hw => ⟨fun hv => ?_, ?_, fun hv => ?_⟩⟩,
    fun hid => ⟨fun hv => ?_, hpri.outOfRange hid hm, hget.outOfRange hid hm, ?_⟩, hconfig⟩
  · exact (runsAs_rSetGrp s.cfg id hv).setsGroup hm (canWrite_R hw) hid
  · exact hpri.setsPriority hm (canWrite_R hw) hid
  · exact (runsAs_rSetCfg s.cfg id hv).setsConfig hm (canWrite_R hw) hid
  · exact (runsAs_rSetGrp s.cfg id hv).outOfRange hid hm
  · exact (Nat.lt_or_ge 3 v.toNat).elim hconfig fun hv => (runsAs_rSetCfg s.cfg id hv).outOfRange hid hm

/-! ## The transactions of R.INIT (R211) -/

theorem memRead_waker (s : State) : memRead s .R 0x14 = .ok (wakerWord s.redist) :=
  memRead_of_reg rfl (bankReg_waker _)

/-- "Children asleep" is bit 2 of `R_WAKER`. -/
theorem wakerWord_ca (r : Redistributor) : (wakerWord r).getLsbD 2 = r.ca := by
  obtain ⟨ps, ca, arr⟩ := r
  revert ps ca
  exact (by decide : ∀ ps ca : Bool, (flagBit ps 1 ||| flagBit ca 2 : Word).getLsbD 2 = ca)

/-- A write back of the word read with bit 1 cleared takes, whatever the word and whatever `PS`. -/
theorem memWrite_waker_clearPs (s : State) (r : Word) :
    memWrite s .R 0x14 (r &&& ~~~0x00000002#32) = .ok { s with redist.ps := false } := by
  have hbit : (r &&& ~~~0x00000002#32).getLsbD 1 = false := by simp
  rw [memWrite_waker, if_pos hbit]

/-- One poll, by what `R_WAKER` reads. -/
theorem wakePollTx_eq (bound : Word) (n : DWord) (s : State) : wakePollTx bound n s =
    if s.redist.ca then
      if n + 1#64 = bound.setWidth 64 then .ret .errTimeout (n + 1#64) s else .hold (n + 1#64) s
    else .ret .ok n s := by
  simp only [wakePollTx, bankReadTx, memRead_waker, wakerWord_ca]

/-- A transaction that ends a command already in flight. -/
theorem runMain_mid_ret {i j : Instr} {p : Prog} {s t : State} {k : Nat} {h v : DWord} {st : Status}
    (hp : p k h (inMid s j k h) = .ret st v (inMid t j k h)) :
    runMain i p (inMid s j k h) = .next (respond t st v) := by
  have hindex : mainIndex (inMid s j k h) = k := rfl
  have hheld : mainHeld (inMid s j k h) = h := rfl
  simp only [runMain, hindex, hheld, hp]
  exact congrArg Host.Outcome.next (respond_inFlight t j k h st v)

section
variable {s : State} {bound : Word}

theorem exec_rInit_read (hm : s.seq.mainCmd = none) :
    exec (.rInit bound) s = .next (inMid s (.rInit bound) 1 ((wakerWord s.redist).setWidth 64)) := by
  rw [exec, execRInit]
  exact runMain_first_hold hm (by simp only [rInitProg, readHoldTx, bankReadTx, memRead_waker])

/-- The second transaction, before the command goes on or ends. -/
theorem rInitProg_write (r : Word) (j : Instr) (k : Nat) (h : DWord) :
    rInitProg bound 1 (r.setWidth 64) (inMid s j k h) =
      if bound = 0#32 then .ret .errTimeout 0#64 (inMid { s with redist.ps := false } j k h)
      else goOn (inMid { s with redist.ps := false } j k h) := by
  simp only [rInitProg, writeHeldTx, bankWriteTx, setWidth_word, memWrite_waker_clearPs]
  rfl

/-- A bound of 0 allows no poll. -/
theorem exec_rInit_write_boundZero (r : Word) (hb : bound = 0#32) :
    exec (.rInit bound) (inMid s (.rInit bound) 1 (r.setWidth 64)) =
      .next (respond { s with redist.ps := false } .errTimeout 0#64) := by
  rw [exec, execRInit]
  exact runMain_mid_ret ((rInitProg_write r _ _ _).trans (if_pos hb))

theorem exec_rInit_write_goesOn (r : Word) (hb : bound ≠ 0#32) :
    exec (.rInit bound) (inMid s (.rInit bound) 1 (r.setWidth 64)) =
      .next (inMid { s with redist.ps := false } (.rInit bound) 2 0#64) := by
  rw [exec, execRInit]
  exact runMain_mid_hold ((rInitProg_write r _ _ _).trans (if_neg hb))

section
variable {k : Nat} {n : DWord}

/-- A poll that reads "children asleep" = 0 ends the command with the count of the polls before it. -/
theorem exec_rInit_poll_awake (hca : s.redist.ca = false) :
    exec (.rInit bound) (inMid s (.rInit bound) (k + 2) n) = .next (respond s .ok n) := by
  rw [exec, execRInit]
  refine runMain_mid_ret ((wakePollTx_eq bound n _).trans (if_neg ?_))
  simp [inMid, hca]

theorem exec_rInit_poll_timeout (hca : s.redist.ca = true) (hn : n + 1#64 = bound.setWidth 64) :
    exec (.rInit bound) (inMid s (.rInit bound) (k + 2) n) = .next (respond s .errTimeout (bound.setWidth 64)) := by
  rw [exec, execRInit, ← hn]
  exact runMain_mid_ret ((wakePollTx_eq bound n _).trans ((if_pos hca).trans (if_pos hn)))

theorem exec_rInit_poll_goesOn (hca : s.redist.ca = true) (hn : n + 1#64 ≠ bound.setWidth 64) :
    exec (.rInit bound) (inMid s (.rInit bound) (k + 2) n) = .next (inMid s (.rInit bound) (k + 3) (n + 1#64)) := by
  rw [exec, execRInit]
  exact runMain_mid_hold ((wakePollTx_eq bound n _).trans ((if_pos hca).trans (if_neg hn)))

end

end

/-- Settles O28, one lemma a case of each transaction. -/
theorem wakeSequenceTransactions : Obligations.WakeSequenceTransactions := by
  intro s bound
  refine ⟨exec_rInit_read, fun r => ?write, fun k n => ?poll⟩
  case write =>
    split
    next hb => exact exec_rInit_write_boundZero r hb
    next hb => exact exec_rInit_write_goesOn r hb
  case poll =>
    split
    next hca => exact exec_rInit_poll_awake hca
    next hca =>
      rw [Bool.not_eq_false] at hca
      split
      next hn => exact exec_rInit_poll_timeout hca hn
      next hn => exact exec_rInit_poll_goesOn hca hn

/-! ## A run of polls (R211, the source's test) -/

/-- The count held reaches the bound at the poll whose number is the bound, and at no other: a count below the bound
does not wrap in 64 bits. -/
theorem pollCount_succ_eq_bound_iff {bound : Word} {n : Nat} (hn : n < bound.toNat) :
    BitVec.ofNat 64 n + 1#64 = bound.setWidth 64 ↔ n + 1 = bound.toNat := by
  have hbound := bound.isLt
  rw [← BitVec.toNat_inj, ← BitVec.ofNat_add, BitVec.toNat_ofNat, BitVec.toNat_setWidth]
  omega

section
variable {s : State} {bound : Word} (hm : s.seq.mainCmd = none) (hca : s.redist.ca = true)
include hm hca

/-- While the redistributor sleeps and polls are left, the count held is the number of polls made. -/
theorem execs_rInit_polling {n : Nat} (hn : n < bound.toNat) : execs (.rInit bound) (2 + n) s =
    .next (inMid { s with redist.ps := false } (.rInit bound) (n + 2) (BitVec.ofNat 64 n)) := by
  induction n with
  | zero =>
    have hread := (execs_one (.rInit bound) s).trans (exec_rInit_read hm)
    have hbound : bound ≠ 0#32 := by
      rintro rfl
      exact absurd hn (by decide)
    exact (execs_succ_of_next hread).trans (exec_rInit_write_goesOn _ hbound)
  | succ n ih =>
    have hlt : n < bound.toNat := by omega
    have hleft : BitVec.ofNat 64 n + 1#64 ≠ bound.setWidth 64 := fun h =>
      absurd ((pollCount_succ_eq_bound_iff hlt).mp h) (by omega)
    have hpoll := exec_rInit_poll_goesOn (s := { s with redist.ps := false }) (k := n) hca hleft
    rw [← BitVec.ofNat_add] at hpoll
    exact (execs_succ_of_next (ih hlt)).trans hpoll

/-- Where `WAKE` never steps, the command times out after as many polls as the bound allows. -/
theorem execs_rInit_timeout : execs (.rInit bound) (2 + bound.toNat) s =
    .next { s with redist.ps := false, rsp := answered 2#4 (bound.setWidth 64) } := by
  have hend := respond_idle (s := { s with redist.ps := false }) hm .errTimeout (bound.setWidth 64)
  refine Eq.trans ?_ (congrArg Host.Outcome.next hend)
  cases hb : bound.toNat with
  | zero =>
    obtain rfl : bound = 0#32 := BitVec.eq_of_toNat_eq hb
    have hread := (execs_one (.rInit 0#32) s).trans (exec_rInit_read hm)
    exact (execs_succ_of_next hread).trans (exec_rInit_write_boundZero _ rfl)
  | succ n =>
    have hlt : n < bound.toNat := by omega
    have hlast := (pollCount_succ_eq_bound_iff hlt).mpr hb.symm
    exact (execs_succ_of_next (execs_rInit_polling hm hca hlt)).trans (exec_rInit_poll_timeout hca hlast)

end

/-- Settles O29: `PS` is cleared by then, so `WAKE` has its step after any number of polls, and the next poll ends the
command. -/
theorem wakePollCounts : Obligations.WakePollCounts := by
  intro s bound hm hca
  refine ⟨execs_rInit_timeout hm hca, fun n hn => ⟨_, execs_rInit_polling hm hca hn, ?_⟩⟩
  have hwake := wakeStep_of_enabled
    (s := inMid { s with redist.ps := false } (.rInit bound) (n + 2) (BitVec.ofNat 64 n)) rfl hca
  rw [hwake]
  exact (exec_rInit_poll_awake (s := { s with redist.ps := false, redist.ca := false }) rfl).trans
    (congrArg Host.Outcome.next (respond_idle (s := { s with redist.ps := false, redist.ca := false }) hm .ok _))

end Sys2Proof.Proofs
end

section
/-!
PROOFS. The family of 44_cpu_interface.md: the enables and masks of the CPU interface, one at a time (O31) and in C.INIT
(O32), acknowledge and end of interrupt (O33), and the steps of `HANDLER` in the interrupt routine (O49).
-/

namespace Sys2Proof.Proofs

open Sys2Proof Sys2Proof.Machine Sys2Proof.Claims

/-! ## Commands in flight and in line -/

/-- A transaction that faults in a command already in flight. -/
theorem runMain_mid_fault {i j : Instr} {p : Prog} {s : State} {k : Nat} {h : DWord} {f : Fault}
    (hp : p k h (inMid s j k h) = .fault f) : runMain i p (inMid s j k h) = .fault f := by
  have hindex : mainIndex (inMid s j k h) = k := rfl
  have hheld : mainHeld (inMid s j k h) = h := rfl
  simp only [runMain, hindex, hheld, hp]

/-- The transactions of the command that comes first, its return passed on. -/
theorem progOf_inLine_left {p : List Tx} (q : List Tx) {k : Nat} (hk : k < p.length) :
    progOf (inLine p q) k = mapReturnTx goOnAfterOk (progOf p k) := by
  have hmap : k < (p.map (mapReturnTx goOnAfterOk)).length := by rwa [List.length_map]
  simp only [progOf, inLine]
  rw [List.getD_append _ _ _ _ hmap, List.getD_eq_getElem _ _ hmap, List.getElem_map, List.getD_eq_getElem _ _ hk]

/-- The transactions of the commands after it. -/
theorem progOf_inLine_right (p q : List Tx) (k : Nat) : progOf (inLine p q) (p.length + k) = progOf q k := by
  have hlength : (p.map (mapReturnTx goOnAfterOk)).length = p.length := List.length_map _
  simp only [progOf, inLine]
  rw [List.getD_append_right _ _ _ _ (by omega), hlength, Nat.add_sub_cancel_left]

/-! ## The transactions of the four steps (44_cpu_interface.md R230 to R233) -/

theorem sysWriteTx_asleep {s : State} {r : SysReg} (v : DWord) (next : State → TxOut) (he : s.pe.pstate.el ≠ 0#2)
    (hr : wakeGated r = true) (ha : awake s = false) : sysWriteTx r v next s = .fault .asleep := by
  simp only [sysWriteTx, sysWrite_asleep v he hr ha]

section
variable {s : State} (he : s.pe.pstate.el ≠ 0#2) (h : DWord)
include he

theorem cSre_read : progOf cSreTxs 0 h s = .hold (BitVec.ofNat 64 s.cpu.sre.toNat) s := by
  rw [← flagBit_zero]
  exact sysReadTx_ungated he rfl fun v t => .hold v t

/-- The enable bit is set in the word written, whatever was read. -/
theorem cSre_write (ha : awake s = true) :
    progOf cSreTxs 1 h s = goOn (if s.cfg.sreSticks then { s with cpu.sre := true } else s) := by
  have hbit : (h ||| 0x1#64).getLsbD 0 = true := by simp
  refine (sysWriteTx_ok he (h ||| 0x1#64) goOn (fun _ => ha) (fun h => absurd h (by decide)) rfl).trans ?_
  rw [sysStore, hbit]

theorem cSre_write_asleep (ha : awake s = false) : progOf cSreTxs 1 h s = .fault .asleep :=
  sysWriteTx_asleep (h ||| 0x1#64) goOn he rfl ha

theorem cSre_readBack : progOf cSreTxs 2 h s = .ret (if s.cpu.sre then .ok else .errSre) 0#64 s := by
  have hbit : (sysValue s .iccSre).getLsbD 0 = s.cpu.sre := by
    rw [sysValue]
    cases s.cpu.sre <;> rfl
  refine (sysReadTx_ungated he rfl fun v t => .ret (if v.getLsbD 0 then .ok else .errSre) 0#64 t).trans ?_
  rw [hbit]

theorem cPmr_write (ha : awake s = true) (hs : s.cpu.sre = true) :
    progOf cPmrTxs 0 h s = returnOk { s with cpu.pmr := 0xFF#8 } :=
  sysWriteTx_ok (r := .iccPmr) he pmrOpen returnOk (fun _ => ha) (fun _ => hs) rfl

theorem cGrp1en_write (ha : awake s = true) (hs : s.cpu.sre = true) :
    progOf cGrp1enTxs 0 h s = returnOk { s with cpu.grp1en := true } :=
  sysWriteTx_ok (r := .iccIgrpen1) he 0x1#64 returnOk (fun _ => ha) (fun _ => hs) rfl

theorem cUnmask_write : progOf cUnmaskTxs 0 h s = returnOk { s with pe.pstate.i := false } := if_neg he

end

/-! ## The commands that begin with C.SRE (R230, R234) -/

/-- Command `i` begins with the transactions of C.SRE and passes what they return on to `g`. -/
def BeginsWithCSre (i : Instr) (g : Status → DWord → State → TxOut) : Prop :=
  ∃ p : Prog, (∀ u, exec i u = runMain i p u) ∧ ∀ k < 3, p k = mapReturnTx g (progOf cSreTxs k)

theorem cSre_beginsWithCSre : BeginsWithCSre .cSre .ret := by
  refine ⟨progOf cSreTxs, fun _ => rfl, fun k _ => ?_⟩
  funext h s
  rw [mapReturnTx]
  cases progOf cSreTxs k h s <;> rfl

theorem cInit_beginsWithCSre : BeginsWithCSre .cInit goOnAfterOk :=
  ⟨progOf cInitTxs, fun _ => rfl, fun _ hk => progOf_inLine_left _ hk⟩

namespace BeginsWithCSre

section
variable {i : Instr} {g : Status → DWord → State → TxOut} {s : State} (hi : BeginsWithCSre i g)
  (he : s.pe.pstate.el ≠ 0#2)
include hi he

theorem exec_read (hm : s.seq.mainCmd = none) :
    exec i s = .next (inMid s i 1 (BitVec.ofNat 64 s.cpu.sre.toNat)) := by
  obtain ⟨p, hexec, hp⟩ := hi
  rw [hexec]
  exact runMain_first_hold hm (by rw [hp 0 (by decide), mapReturnTx, cSre_read he, mapReturn])

theorem exec_write (ha : awake s = true) (h : DWord) : exec i (inMid s i 1 h) =
    .next (inMid (if s.cfg.sreSticks then { s with cpu.sre := true } else s) i 2 0#64) := by
  obtain ⟨p, hexec, hp⟩ := hi
  rw [hexec]
  refine runMain_mid_hold ?_
  rw [hp 1 (by decide), mapReturnTx, cSre_write he h (s := inMid s i 1 h) ha]
  cases hs : s.cfg.sreSticks <;> simp [inMid, hs, goOn, mapReturn]

theorem exec_write_asleep (ha : awake s = false) (h : DWord) : exec i (inMid s i 1 h) = .fault .asleep := by
  obtain ⟨p, hexec, hp⟩ := hi
  rw [hexec]
  refine runMain_mid_fault ?_
  rw [hp 1 (by decide), mapReturnTx, cSre_write_asleep he h (s := inMid s i 1 h) ha, mapReturn]

/-- The read-back ends the command where the enable bit is 0, if a failing C.SRE ends it. -/
theorem exec_readBack_fails (hm : s.seq.mainCmd = none) (hs : s.cpu.sre = false)
    (hg : ∀ t, g .errSre 0#64 t = .ret .errSre 0#64 t) (h : DWord) :
    exec i (inMid s i 2 h) = .next { s with rsp := answered 4#4 0#64 } := by
  obtain ⟨p, hexec, hp⟩ := hi
  have hsre : (inMid s i 2 h).cpu.sre = false := hs
  rw [hexec]
  refine (runMain_mid_ret (t := s) ?_).trans (congrArg Host.Outcome.next (respond_idle hm .errSre 0#64))
  rw [hp 2 (by decide), mapReturnTx, cSre_readBack he h (s := inMid s i 2 h), hsre]
  exact hg _

section
variable (hm : s.seq.mainCmd = none) (ha : awake s = true)
include hm ha

theorem execs_write : execs i 2 s =
    .next (inMid (if s.cfg.sreSticks then { s with cpu.sre := true } else s) i 2 0#64) :=
  (execs_succ_of_next ((execs_one i s).trans (hi.exec_read he hm))).trans (hi.exec_write he ha _)

theorem execs_write_of_sticks (hs : s.cfg.sreSticks = true) :
    execs i 2 s = .next (inMid { s with cpu.sre := true } i 2 0#64) := by
  rw [hi.execs_write he hm ha, if_pos hs]

/-- Where the platform does not let the enable bit stick the command changes nothing and answers `ERR_SRE`. -/
theorem execs_of_not_sticks (hs : s.cfg.sreSticks = false) (hsre : s.cpu.sre = false)
    (hg : ∀ t, g .errSre 0#64 t = .ret .errSre 0#64 t) :
    execs i 3 s = .next { s with rsp := answered 4#4 0#64 } := by
  have hwrite := hi.execs_write he hm ha
  rw [if_neg (by simp [hs])] at hwrite
  exact (execs_succ_of_next hwrite).trans (hi.exec_readBack_fails he hm hsre hg _)

end

end

end BeginsWithCSre

/-! ## C.SRE, C.PMR, C.GRP1EN and C.UNMASK -/

section
variable {s : State} (hm : s.seq.mainCmd = none) (he : s.pe.pstate.el ≠ 0#2)
include hm he

theorem exec_cSre_readBack (hs : s.cpu.sre = true) (h : DWord) :
    exec .cSre (inMid s .cSre 2 h) = .next { s with rsp := okRsp 0#64 } := by
  have hsre : (inMid s .cSre 2 h).cpu.sre = true := hs
  rw [exec, execCSre]
  refine runMain_last_ok (t := s) hm ?_
  rw [cSre_readBack (s := inMid s .cSre 2 h) he, hsre]
  rfl

theorem exec_cPmr (ha : awake s = true) (hs : s.cpu.sre = true) :
    exec .cPmr s = .next { s with cpu.pmr := 0xFF#8, rsp := okRsp 0#64 } :=
  runMain_first_ok hm (cPmr_write he _ ha hs) hm

theorem exec_cGrp1en (ha : awake s = true) (hs : s.cpu.sre = true) :
    exec .cGrp1en s = .next { s with cpu.grp1en := true, rsp := okRsp 0#64 } :=
  runMain_first_ok hm (cGrp1en_write he _ ha hs) hm

theorem exec_cUnmask : exec .cUnmask s = .next { s with pe.pstate.i := false, rsp := okRsp 0#64 } :=
  runMain_first_ok (p := progOf cUnmaskTxs) hm (cUnmask_write he _) hm

end

/-- Settles O31: C.SRE by its three transactions, the others by their one. -/
theorem cpuInterfaceSteps : Obligations.CpuInterfaceSteps := by
  intro s hm he
  have hsre := cSre_beginsWithCSre
  have hread := hsre.exec_read he hm
  refine ⟨hread, exec_cUnmask hm he, fun ha hs => ?sticks, fun ha hs hsre0 => ?ignored,
    fun ha hs => ⟨exec_cPmr hm he ha hs, exec_cGrp1en hm he ha hs⟩, fun ha => ⟨?_, ?_, ?_⟩⟩
  case sticks =>
    exact (execs_succ_of_next (hsre.execs_write_of_sticks he hm ha hs)).trans
      (exec_cSre_readBack (s := { s with cpu.sre := true }) hm he rfl _)
  case ignored => exact hsre.execs_of_not_sticks he hm ha hs hsre0 fun _ => rfl
  · exact (execs_succ_of_next ((execs_one .cSre s).trans hread)).trans (hsre.exec_write_asleep he ha _)
  · exact runMain_first_fault hm (sysWriteTx_asleep pmrOpen returnOk he rfl ha)
  · exact runMain_first_fault hm (sysWriteTx_asleep 0x1#64 returnOk he rfl ha)

/-! ## C.INIT (R234) -/

theorem cInit_pmr : progOf cInitTxs 3 = mapReturnTx goOnAfterOk (progOf cPmrTxs 0) :=
  (progOf_inLine_right cSreTxs _ 0).trans (progOf_inLine_left _ (by decide))

theorem cInit_grp1en : progOf cInitTxs 4 = mapReturnTx goOnAfterOk (progOf cGrp1enTxs 0) :=
  (progOf_inLine_right cSreTxs _ 1).trans <|
    (progOf_inLine_right cPmrTxs _ 0).trans (progOf_inLine_left _ (by decide))

theorem cInit_unmask : progOf cInitTxs 5 = progOf cUnmaskTxs 0 :=
  (progOf_inLine_right cSreTxs _ 2).trans <|
    (progOf_inLine_right cPmrTxs _ 1).trans (progOf_inLine_right cGrp1enTxs _ 0)

section
variable {s : State} (he : s.pe.pstate.el ≠ 0#2) (h : DWord)
include he

/-- C.SRE succeeded: C.INIT goes on with its second step. -/
theorem exec_cInit_readBack (hs : s.cpu.sre = true) :
    exec .cInit (inMid s .cInit 2 h) = .next (inMid s .cInit 3 0#64) := by
  have hsre : (inMid s .cInit 2 h).cpu.sre = true := hs
  rw [exec, execCInit]
  refine runMain_mid_hold ?_
  rw [cInitTxs, progOf_inLine_left _ (by decide), mapReturnTx, cSre_readBack (s := inMid s .cInit 2 h) he, hsre]
  rfl

theorem exec_cInit_pmr (ha : awake s = true) (hs : s.cpu.sre = true) :
    exec .cInit (inMid s .cInit 3 h) = .next (inMid { s with cpu.pmr := 0xFF#8 } .cInit 4 0#64) := by
  rw [exec, execCInit]
  refine runMain_mid_hold ?_
  rw [cInit_pmr, mapReturnTx, cPmr_write (s := inMid s .cInit 3 h) he h ha hs]
  rfl

theorem exec_cInit_grp1en (ha : awake s = true) (hs : s.cpu.sre = true) :
    exec .cInit (inMid s .cInit 4 h) = .next (inMid { s with cpu.grp1en := true } .cInit 5 0#64) := by
  rw [exec, execCInit]
  refine runMain_mid_hold ?_
  rw [cInit_grp1en, mapReturnTx, cGrp1en_write (s := inMid s .cInit 4 h) he h ha hs]
  rfl

theorem exec_cInit_unmask (hm : s.seq.mainCmd = none) :
    exec .cInit (inMid s .cInit 5 h) = .next { s with pe.pstate.i := false, rsp := okRsp 0#64 } := by
  rw [exec, execCInit]
  refine runMain_last_ok (t := { s with pe.pstate.i := false }) hm ?_
  rw [cInit_unmask, cUnmask_write (s := inMid s .cInit 5 h) he h]
  rfl

end

/-- Settles O32, one lemma a transaction: the enable bit, once set, lets the two gated writes take. -/
theorem cpuInterfaceInit : Obligations.CpuInterfaceInit := by
  intro s hm he ha
  have hinit := cInit_beginsWithCSre
  refine ⟨hinit.exec_read he hm, fun hs => ?_, fun hs hsre =>
    hinit.execs_of_not_sticks he hm ha hs hsre fun _ => rfl⟩
  have hsre := (execs_succ_of_next (hinit.execs_write_of_sticks he hm ha hs)).trans
    (exec_cInit_readBack (s := { s with cpu.sre := true }) he _ rfl)
  have hpmr := (execs_succ_of_next hsre).trans
    (exec_cInit_pmr (s := { s with cpu.sre := true }) he _ ha rfl)
  have hgrp := (execs_succ_of_next hpmr).trans
    (exec_cInit_grp1en (s := { s with cpu := { s.cpu with sre := true, pmr := 0xFF#8 } }) he _ ha rfl)
  have hunmask := (execs_succ_of_next hgrp).trans (exec_cInit_unmask
    (s := { s with cpu := { s.cpu with sre := true, pmr := 0xFF#8, grp1en := true } }) he _ hm)
  exact ⟨hsre, hgrp, hunmask⟩

/-! ## Acknowledge and end of interrupt (R235, R236) -/

/-- An interrupt ID has its place in the arrays of its effective bank (10_state.md R53). -/
theorem lt_blocks_bankOf {s : State} {id : Nat} (hid : id < s.cfg.nIds) : id < 32 * blocksOf (bankOf s id) := by
  obtain ⟨-, hmax, -⟩ := nIds_bounds s.cfg
  rw [bankOf]
  split
  next hR =>
    rw [Bool.and_eq_true, decide_eq_true_eq] at hR
    exact hR.1
  next => exact Nat.lt_of_lt_of_le hid hmax

/-- Exactly one latch bit and one `ACKED` bit are written. -/
theorem acknowledge_eq {s : State} {id : Nat} (hid : id < s.cfg.nIds) : ∃ p a,
    acknowledge s id =
      { s.setArrays (bankOf s id) { s.arrays (bankOf s id) with platch := p } with
        cpu := { s.cpu with acked := a } } ∧
    (∀ k, bitAt p k = if k = id then false else latch s (bankOf s id) k) ∧
    ∀ k, bitAt a k = if k = id then true else acked s k := by
  obtain ⟨-, hmax, -⟩ := nIds_bounds s.cfg
  refine ⟨putBit (s.arrays (bankOf s id)).platch id false, putBit s.cpu.acked id true, ?_,
    fun k => bitAt_putBit _ id k false (lt_blocks_bankOf hid),
    fun k => bitAt_putBit _ id k true (Nat.lt_of_lt_of_le hid hmax)⟩
  rw [acknowledge]
  simp only [setArrays_cpu]

theorem endOfInterrupt_of_some {s : State} {id : Nat} (hc : s.cpu.curId = some id) :
    endOfInterrupt s = { s with cpu.acked := putBit s.cpu.acked id false } := by
  simp only [endOfInterrupt, hc]

section
variable {s : State} (hm : s.seq.mainCmd = none)
include hm

theorem exec_cAck_spurious (hc : s.cpu.curId = none) : exec .cAck s = .next { s with rsp := okRsp 1023#64 } :=
  runMain_first_ok (p := progOf cAckTxs) (t := s) hm
    (by simp only [progOf, cAckTxs, List.getD_cons_zero, hc, spuriousId]) hm

theorem exec_cAck {id : Nat} (hc : s.cpu.curId = some id) :
    exec .cAck s = .next { acknowledge s id with rsp := okRsp (BitVec.ofNat 64 id) } :=
  runMain_first_ok (p := progOf cAckTxs) hm (by simp only [progOf, cAckTxs, List.getD_cons_zero, hc])
    (by rw [acknowledge_seq, hm])

theorem exec_cEoi : exec .cEoi s = .next { endOfInterrupt s with rsp := okRsp 0#64 } :=
  runMain_first_ok (p := progOf cEoiTxs) hm rfl (by rw [endOfInterrupt_seq, hm])

end

/-- Settles O33: each command is one operation on the current interrupt, or none. -/
theorem acknowledgeAndEndOfInterrupt : Obligations.AcknowledgeAndEndOfInterrupt := by
  intro s hm
  refine ⟨fun hc => ⟨exec_cAck_spurious hm hc, ?_⟩, fun id hc hid => ⟨?_, ?_⟩⟩
  · have hnone : endOfInterrupt s = s := by simp only [endOfInterrupt, hc]
    rw [exec_cEoi hm, hnone]
  · obtain ⟨p, a, hack, hp, ha⟩ := acknowledge_eq hid
    exact ⟨p, a, by rw [exec_cAck hm hc, hack], hp, ha⟩
  · obtain ⟨-, hmax, -⟩ := nIds_bounds s.cfg
    exact ⟨_, by rw [exec_cEoi hm, endOfInterrupt_of_some hc],
      fun k => bitAt_putBit _ id k false (Nat.lt_of_lt_of_le hid hmax)⟩

/-! ## The steps of `HANDLER` (60_exceptions.md R310) -/

section
variable {s : State} (hh : s.halt = none)
include hh

theorem agentStep_handler : agentStep .handler s = handlerStep s := by
  simp only [agentStep, threadRuns, hh, Option.isNone_none, if_true]

/-- Step `h1`, the first transaction of T.HANDLE. -/
theorem agentStep_handler_compare (he : s.pe.pstate.el ≠ 0#2) (hd : s.seq.disp = .inRoutine .irq 3)
    (hc : s.seq.handlerCmd = none) : agentStep .handler s = .next { s with
      timer.cval := s.timer.cnt + s.seq.tDelta.signExtend 64
      seq.handlerCmd := some { cmd := .tHandle, index := 1, held := 0#64 } } := by
  simp only [agentStep_handler hh, handlerStep, hd, handleStep, hc, tHandle_first, if_neg he]

/-- Step `h2`, the second transaction of T.HANDLE. -/
theorem agentStep_handler_readBack (he : s.pe.pstate.el ≠ 0#2) (hd : s.seq.disp = .inRoutine .irq 3) {h : DWord}
    (hc : s.seq.handlerCmd = some { cmd := .tHandle, index := 1, held := h }) : agentStep .handler s =
      .next { s with seq.tDiag := s.timer.cval, seq.handlerCmd := none, seq.disp := .inRoutine .irq 4 } := by
  simp only [agentStep_handler hh, handlerStep, hd, handleStep, hc, tHandle_second, if_neg he]

/-- Step `e4`, C.ACK. -/
theorem agentStep_handler_acknowledge (hd : s.seq.disp = .inRoutine .irq 4) {id : Nat}
    (hc : s.cpu.curId = some id) : agentStep .handler s =
      .next { acknowledge s id with seq := { s.seq with disp := .inRoutine .irq 5 } } := by
  simp only [agentStep_handler hh, handlerStep, hd, ackStep, hc, acknowledge_seq]

end

/-- Settles O49, one lemma a step. -/
theorem interruptRoutineSteps : Obligations.InterruptRoutineSteps := by
  intro s hh he
  refine ⟨agentStep_handler_compare hh he, fun _ hd hc => agentStep_handler_readBack hh he hd hc,
    fun id hd hc hid => ?_⟩
  obtain ⟨p, a, hack, hp, ha⟩ := acknowledge_eq hid
  exact ⟨p, a, by rw [agentStep_handler_acknowledge hh hd hc, hack], hp, ha⟩

end Sys2Proof.Proofs
end

section
/-!
PROOFS. The family of 45_vector_dispatch.md: the two vector commands (O34), the vector address and the saved processor
state (O35), the entry into the interrupt routine (O47), and the context that an interrupt gives back (O51).
-/

namespace Sys2Proof.Proofs

open Sys2Proof Sys2Proof.Machine Sys2Proof.Claims

/-! ## Where the interrupted context is kept (45_vector_dispatch.md R255, 60_exceptions.md R308, R309, R312) -/

/-- What the program of the processing element finds again after a trap. -/
structure Context where
  x : Vector DWord 31
  pc : DWord
  pstate : PState

/-- The interrupted context at each place the dispatch router can stand: in the registers themselves outside a trap, in
`elr` and `spsr` after the entry, in the frame inside the routine. -/
def interruptedContext (s : State) : Context :=
  match s.seq.disp with
  | .idle => ⟨s.pe.x, s.pe.pc, s.pe.pstate⟩
  | .entered _ => ⟨s.pe.x, s.pe.elr, unpackPState s.pe.spsr⟩
  | .inRoutine _ _ => ⟨frameRegs s.seq.ctx, frameElr s.seq.ctx, unpackPState (frameSpsr s.seq.ctx)⟩

theorem interruptedContext_idle {s : State} (hd : s.seq.disp = .idle) :
    interruptedContext s = ⟨s.pe.x, s.pe.pc, s.pe.pstate⟩ := by
  simp only [interruptedContext, hd]

theorem interruptedContext_entered {s : State} {c : ExcClass} (hd : s.seq.disp = .entered c) :
    interruptedContext s = ⟨s.pe.x, s.pe.elr, unpackPState s.pe.spsr⟩ := by
  simp only [interruptedContext, hd]

theorem interruptedContext_inRoutine {s : State} {c : ExcClass} {k : Nat} (hd : s.seq.disp = .inRoutine c k) :
    interruptedContext s =
      ⟨frameRegs s.seq.ctx, frameElr s.seq.ctx, unpackPState (frameSpsr s.seq.ctx)⟩ := by
  simp only [interruptedContext, hd]

/-- The context is read from the registers, the frame and the router's place alone. -/
theorem interruptedContext_congr {s t : State} (hpe : t.pe = s.pe) (hctx : t.seq.ctx = s.seq.ctx)
    (hd : t.seq.disp = s.seq.disp) : interruptedContext t = interruptedContext s := by
  simp only [interruptedContext, hpe, hctx, hd]

/-- Inside the routine the frame alone counts. -/
theorem interruptedContext_moveInRoutine {s t : State} {c : ExcClass} {j k : Nat} (hs : s.seq.disp = .inRoutine c j)
    (ht : t.seq.disp = .inRoutine c k) (hctx : t.seq.ctx = s.seq.ctx) :
    interruptedContext t = interruptedContext s := by
  rw [interruptedContext_inRoutine hs, interruptedContext_inRoutine ht, hctx]

/-! ## No step of the other agents changes it -/

/-- `IRQ-ENTER` moves `pc` and the processor state into `elr` and `spsr`. -/
theorem irqEnter_interruptedContext {s u : State} (hd : s.seq.disp = .idle) (h : irqEnter s = .ok u) :
    interruptedContext u = interruptedContext s := by
  obtain ⟨-, rfl⟩ := irqEnter_ok h
  rw [interruptedContext_idle hd, interruptedContext_entered (c := .irq) rfl, unpack_pack]

/-- `FRAME-SAVE` moves the registers, `elr` and `spsr` into the frame. -/
theorem frameSave_interruptedContext {s : State} (hd : s.seq.disp = .entered .irq) :
    interruptedContext (frameSave s) = interruptedContext s := by
  obtain ⟨hx, helr, hspsr⟩ := frame_of s.pe
  rw [interruptedContext_entered hd, interruptedContext_inRoutine (frameSave_seq_disp s), frameSave_seq_ctx, hx, helr,
    hspsr]

/-- `IRQ-RETURN` moves the frame back into the registers. -/
theorem irqReturn_interruptedContext {s : State} (hd : s.seq.disp = .inRoutine .irq 5) :
    interruptedContext (irqReturn s) = interruptedContext s := by
  rw [interruptedContext_inRoutine hd, interruptedContext_idle (s := irqReturn s) rfl]
  rfl

theorem dispatchStep_interruptedContext {s u : State} (h : dispatchStep s = .next u) :
    interruptedContext u = interruptedContext s := by
  obtain ⟨rfl, -⟩ | ⟨hd, -, hu⟩ | ⟨hd, rfl⟩ | ⟨hd, rfl⟩ := dispatchStep_ok h
  · rfl
  · exact irqEnter_interruptedContext hd hu
  · exact frameSave_interruptedContext hd
  · exact irqReturn_interruptedContext hd

theorem handlerStep_interruptedContext {s u : State} (h : handlerStep s = .next u) :
    interruptedContext u = interruptedContext s := by
  obtain ⟨rfl, -, -⟩ | ⟨hd, hu⟩ | ⟨hd, rfl⟩ := handlerStep_ok h
  · rfl
  · obtain ⟨rfl, -⟩ | ⟨_, _, -, -, rfl⟩ := handleStep_ok hu
    · exact interruptedContext_congr rfl rfl rfl
    · exact interruptedContext_moveInRoutine (k := 4) hd rfl rfl
  · unfold ackStep
    split
    · exact interruptedContext_moveInRoutine (k := 5) hd rfl rfl
    · exact interruptedContext_moveInRoutine (k := 5) hd rfl (by simp)

theorem agentStep_interruptedContext {e : Event} {s u : State} (h : agentStep e s = .next u) (hm : ∀ pe, e ≠ .main pe)
    (hr : e ≠ .reset) : interruptedContext u = interruptedContext s := by
  obtain rfl | ⟨pe, he, -⟩ | ⟨-, -, hu⟩ | ⟨-, -, hu⟩ | ⟨-, rfl⟩ | ⟨-, -, -, rfl⟩ | ⟨he, -⟩ := agentStep_ok h
  · rfl
  · exact absurd he (hm pe)
  · exact handlerStep_interruptedContext hu
  · exact dispatchStep_interruptedContext hu
  · exact interruptedContext_congr rfl rfl rfl
  · exact interruptedContext_congr rfl rfl rfl
  · exact absurd he hr

/-- The schedule is moved on by the beginning of a step; edge capture touches neither registers nor sequencer. -/
theorem step_interruptedContext {s t : State} (h : step s = .next t) (hm : ∀ pe, nextEvent s ≠ .main pe)
    (hr : nextEvent s ≠ .reset) : interruptedContext t = interruptedContext s := by
  obtain ⟨-, u, hu, rfl, -⟩ := step_ok h
  calc interruptedContext (edgeCapture (beginStep s) u)
      = interruptedContext u := interruptedContext_congr (by simp) (by simp) (by simp)
    _ = interruptedContext (beginStep s) := agentStep_interruptedContext hu hm hr
    _ = interruptedContext s := interruptedContext_congr rfl rfl rfl

/-! ## Along a schedule -/

theorem handlerStep_env {s u : State} (h : handlerStep s = .next u) : u.env = s.env := by
  obtain ⟨rfl, -, -⟩ | ⟨-, hu⟩ | ⟨-, rfl⟩ := handlerStep_ok h
  · rfl
  · obtain ⟨rfl, -⟩ | ⟨_, _, -, -, rfl⟩ := handleStep_ok hu <;> rfl
  · unfold ackStep
    split
    · rfl
    · exact acknowledge_env s _

theorem dispatchStep_env {s u : State} (h : dispatchStep s = .next u) : u.env = s.env := by
  obtain ⟨rfl, -⟩ | ⟨-, -, hu⟩ | ⟨-, rfl⟩ | ⟨-, rfl⟩ := dispatchStep_ok h
  · rfl
  · obtain ⟨-, rfl⟩ := irqEnter_ok hu
    rfl
  · rfl
  · exact endOfInterrupt_env s

/-- Only `MAIN` takes anything from the environment. -/
theorem agentStep_env {e : Event} {s u : State} (h : agentStep e s = .next u) (hm : ∀ pe, e ≠ .main pe) :
    u.env = s.env := by
  obtain rfl | ⟨pe, he, -⟩ | ⟨-, -, hu⟩ | ⟨-, -, hu⟩ | ⟨-, rfl⟩ | ⟨-, -, -, rfl⟩ | ⟨-, rfl⟩ := agentStep_ok h
  · rfl
  · exact absurd he (hm pe)
  · exact handlerStep_env hu
  · exact dispatchStep_env hu
  · rfl
  · rfl
  · rfl

theorem step_sched {s t : State} (h : step s = .next t) (hm : ∀ pe, nextEvent s ≠ .main pe) :
    t.env.sched = s.env.sched.tail := by
  obtain ⟨-, u, hu, rfl, -⟩ := step_ok h
  rw [edgeCapture_env, agentStep_env hu hm, beginStep_env_sched]

/-- From `s` to `t` the interrupted context and what `MAIN` holds between two transactions are kept. -/
def KeepsInterrupted (s t : State) : Prop := interruptedContext t = interruptedContext s ∧ KeepsMain s t

theorem KeepsInterrupted.trans {s t u : State} (hst : KeepsInterrupted s t) (htu : KeepsInterrupted t u) :
    KeepsInterrupted s u := by
  obtain ⟨hcontext, hmain⟩ := hst
  obtain ⟨hcontext', hmain'⟩ := htu
  exact ⟨hcontext'.trans hcontext, hmain.trans hmain'⟩

/-- A run of one step and more. -/
theorem steps_succ_ok {n : Nat} {s t : State} (h : steps (n + 1) s = .next t) :
    ∃ u, step s = .next u ∧ steps n u = .next t := by
  rw [steps] at h
  split at h
  · exact ⟨_, ‹_›, h⟩
  · contradiction
  · contradiction

theorem steps_keepsInterrupted {s t : State} {es rest : List Event} (hs : s.env.sched = es ++ rest)
    (hes : ∀ e ∈ es, (∀ pe, e ≠ .main pe) ∧ e ≠ .reset) (h : steps es.length s = .next t) :
    KeepsInterrupted s t := by
  induction es generalizing s with
  | nil =>
    obtain rfl : s = t := Host.Outcome.next.inj h
    exact ⟨rfl, KeepsMain.refl s⟩
  | cons e es ih =>
    obtain ⟨u, hstep, hrest⟩ := steps_succ_ok h
    have he : nextEvent s = e := nextEvent_of_sched hs
    obtain ⟨hmain, hreset⟩ : (∀ pe, nextEvent s ≠ .main pe) ∧ nextEvent s ≠ .reset :=
      he ▸ hes e List.mem_cons_self
    have hsched : u.env.sched = es ++ rest := by rw [step_sched hstep hmain, hs, List.cons_append, List.tail_cons]
    have hfirst : KeepsInterrupted s u :=
      ⟨step_interruptedContext hstep hmain hreset, commandInFlightSurvives s u hstep hmain hreset⟩
    exact hfirst.trans (ih hsched (fun e' he' => hes e' (List.mem_cons_of_mem e he')) hrest)

/-- Settles O51: no step of these agents changes the interrupted context, which outside a trap is in the registers. -/
theorem interruptedContextIsRestored : Obligations.InterruptedContextIsRestored := by
  intro s t es rest hs hes hd _ hrun hdt
  have hothers : ∀ e ∈ es, (∀ pe, e ≠ .main pe) ∧ e ≠ .reset := fun e he => by
    obtain rfl | rfl | rfl | rfl := hes e he <;> simp
  obtain ⟨hcontext, hmain, -, hrsp, -⟩ := steps_keepsInterrupted hs hothers hrun
  rw [interruptedContext_idle hd, interruptedContext_idle hdt] at hcontext
  obtain ⟨hx, hpc, hpstate⟩ := Context.mk.inj hcontext
  exact ⟨hx, hpc, hpstate, hmain, hrsp⟩

/-! ## The vector commands (45_vector_dispatch.md R250, R251) -/

/-- The level stands in bits 3:2 of `CurrentEL` (40_transactions.md R172). -/
theorem currentElWord_level (p : PState) : (currentElWord p).extractLsb' 2 2 = p.el := by
  obtain ⟨d, a, i, f, el, sp⟩ := p
  exact (by decide : ∀ el : BitVec 2, (el.setWidth 64 <<< 2 : DWord).extractLsb' 2 2 = el) el

section
variable {s : State} (hm : s.seq.mainCmd = none) (he : s.pe.pstate.el ≠ 0#2)
include hm he

theorem exec_vInstall (addr : DWord) :
    exec (.vInstall addr) s = .next { s with pe.vbar := addr, pe.vbarValid := true, rsp := okRsp 0#64 } := by
  rw [exec, execVInstall]
  exact runMain_first_ok (p := progOf (vInstallTxs addr)) (t := sysStore s .vbar addr) hm
    (sysWriteTx_ungated he rfl addr returnOk rfl rfl) hm

theorem exec_vCurel : exec .vCurel s = .next { s with rsp := okRsp (s.pe.pstate.el.setWidth 64) } := by
  rw [exec, execVCurel]
  refine runMain_first_ok (p := progOf vCurelTxs) (t := s) hm ?_ hm
  refine (sysReadTx_ungated he rfl fun v t => .ret .ok ((v.extractLsb' 2 2).setWidth 64) t).trans ?_
  rw [sysValue, currentElWord_level]

end

/-- Settles O34, one lemma a command. -/
theorem vectorCommands : Obligations.VectorCommands :=
  fun _ addr hm he => ⟨exec_vInstall hm he addr, exec_vCurel hm he⟩

/-! ## Taking a trap (45_vector_dispatch.md R252) -/

theorem takeTrap_of_vectorReady {s : State} (c : ExcClass) (h : vectorReady s) :
    takeTrap s c = .ok { s with pe := trapped s.pe s.cfg (classOffset c) } :=
  if_pos ((vectorUsable_iff s).mpr h)

theorem takeTrap_of_not_vectorReady {s : State} (c : ExcClass) (h : ¬vectorReady s) :
    takeTrap s c = .error .noVector :=
  if_neg (mt (vectorUsable_iff s).mp h)

/-! ## The saved processor state (45_vector_dispatch.md R256) -/

/-- Where one word has its bits above those of the other, `|||` is their sum. -/
theorem ofNat_or_of_lt {a b : Nat} (n : Nat) (hb : b < 2 ^ n) :
    (BitVec.ofNat 64 (2 ^ n * a) ||| BitVec.ofNat 64 b : DWord) = BitVec.ofNat 64 (2 ^ n * a + b) := by
  rw [Nat.two_pow_add_eq_or_of_lt hb, BitVec.ofNat_or]

/-- The masks stand above bit 5, the level in bits 3:2, the stack-pointer select in bit 0. -/
theorem packPState_eq (p : PState) : packPState p = BitVec.ofNat 64 (512 * p.d.toNat + 256 * p.a.toNat
    + 128 * p.i.toNat + 64 * p.f.toNat + 4 * p.el.toNat + p.spSel.toNat) := by
  have hel : 4 * p.el.toNat < 2 ^ 6 := by omega
  have hsp : p.spSel.toNat < 2 ^ 1 := p.spSel.toNat_lt
  have hmasks : 512 * p.d.toNat + 256 * p.a.toNat + 128 * p.i.toNat + 64 * p.f.toNat =
      2 ^ 6 * (8 * p.d.toNat + 4 * p.a.toNat + 2 * p.i.toNat + p.f.toNat) := by omega
  have habove : 2 ^ 6 * (8 * p.d.toNat + 4 * p.a.toNat + 2 * p.i.toNat + p.f.toNat) + 4 * p.el.toNat =
      2 ^ 1 * (32 * (8 * p.d.toNat + 4 * p.a.toNat + 2 * p.i.toNat + p.f.toNat) + 2 * p.el.toNat) := by omega
  rw [packPState, daifWord_eq, currentElWord_eq, flagBit_zero, hmasks, ofNat_or_of_lt 6 hel, habove,
    ofNat_or_of_lt 1 hsp]

/-- Settles O35: the four offsets are `classOffset`; packing is a sum of the fields, and `unpack_pack` undoes it. -/
theorem vectorAddressAndSavedState : Obligations.VectorAddressAndSavedState := by
  refine ⟨fun s c off hoff => ?_, fun p => ⟨packPState_eq p, unpack_pack p⟩⟩
  have hclass : BitVec.ofNat 64 off = classOffset c := by
    simp only [List.mem_cons, Prod.mk.injEq, List.not_mem_nil, or_false] at hoff
    obtain ⟨rfl, rfl⟩ | ⟨rfl, rfl⟩ | ⟨rfl, rfl⟩ | ⟨rfl, rfl⟩ := hoff <;> rfl
  rw [hclass]
  exact ⟨takeTrap_of_vectorReady c, takeTrap_of_not_vectorReady c⟩

/-! ## The entry into the interrupt routine (60_exceptions.md R308) -/

theorem irqEnter_of_vectorReady {s : State} (h : vectorReady s) : irqEnter s =
    .ok { s with cpu.curId := hppi s, pe := trapped s.pe s.cfg 0x080#64, seq.disp := .entered .irq } := by
  rw [irqEnter, takeTrap_of_vectorReady .irq h]
  rfl

theorem irqEnter_of_not_vectorReady {s : State} (h : ¬vectorReady s) : irqEnter s = .error .noVector := by
  rw [irqEnter, takeTrap_of_not_vectorReady .irq h]

/-- Outside a trap `DISPATCH` enters the routine where an interrupt is taken, and has no step else. -/
theorem agentStep_dispatch_idle {s : State} (hh : s.halt = none) (hd : s.seq.disp = .idle) :
    agentStep .dispatch s = if takeIrq s then outcomeOf (irqEnter s) else .next s := by
  simp only [agentStep, threadRuns, hh, Option.isNone_none, if_true, dispatchStep, hd]

/-- Settles O47: the two outcomes of the entry, and the idle router where nothing is taken. -/
theorem interruptEntry : Obligations.InterruptEntry := by
  intro s hh hd
  rw [agentStep_dispatch_idle hh hd]
  refine ⟨fun ht hv => ?_, fun ht hv => ?_, fun ht => if_neg (ne_true_of_eq_false ht)⟩
  · rw [if_pos ht, irqEnter_of_vectorReady hv, outcomeOf]
  · rw [if_pos ht, irqEnter_of_not_vectorReady hv, outcomeOf]

end Sys2Proof.Proofs
end

section
/-!
PROOFS. The family of 46_timer_orchestration.md, first part: a transaction that stands inside another command sees neither
which command is in flight nor its own place in it, and no transaction of a transition answers `ERR_PENDING`.
-/

namespace Sys2Proof.Proofs

open Sys2Proof Sys2Proof.Machine Sys2Proof.Claims

/-! ## A transaction that stands in another command -/

/-- What a transaction ends in, with command `i` in flight; the synchronous exception abandons the command. -/
def withCommand (i : Instr) (k : Nat) (h : DWord) : TxOut → TxOut
  | .hold v t => .hold v (inFlight t i k h)
  | .ret st v t => .ret st v (inFlight t i k h)
  | .trap t => .trap t
  | .fault r => .fault r

/-- A transaction that can stand in another command: it does not see which command is in flight, and it does not answer
`ERR_PENDING`, the one failure that is no transition's (46_timer_orchestration.md R267, R276). -/
structure Nests (f : State → TxOut) : Prop where
  unaware : ∀ s i k h, f (inFlight s i k h) = withCommand i k h (f s)
  answers : ∀ s st v t, f s = .ret st v t → st ≠ .errPending

/-- Every transaction of a list can stand in another command. -/
def NestsAll (l : List Tx) : Prop := ∀ tx ∈ l, ∀ h, Nests (tx h)

/-! ### Returns and choices -/

theorem nests_ret {st : Status} (v : DWord) (hst : st ≠ .errPending) : Nests fun s => .ret st v s :=
  ⟨fun _ _ _ _ => rfl, fun _ _ _ _ h => (TxOut.ret.inj h).1 ▸ hst⟩

theorem nests_hold (v : DWord) : Nests fun s => .hold v s := ⟨fun _ _ _ _ => rfl, fun _ _ _ _ h => by cases h⟩

theorem nests_goOn : Nests goOn := nests_hold 0#64

theorem nests_returnOk : Nests returnOk := nests_ret 0#64 (by decide)

theorem nests_ite {c : Prop} [Decidable c] {f g : State → TxOut} (hf : Nests f) (hg : Nests g) :
    Nests fun s => if c then f s else g s := by
  split
  · exact hf
  · exact hg

/-- What a command returns may be passed on. -/
theorem nests_mapReturn {g : Status → DWord → State → TxOut} {f : State → TxOut} (hf : Nests f)
    (hg : ∀ st v, st ≠ .errPending → Nests (g st v)) : Nests fun s => mapReturn g (f s) where
  unaware s i k h := by
    have hanswers := hf.answers s
    rw [hf.unaware]
    cases hx : f s with
    | ret st v t => exact (hg st v (hanswers st v t hx)).unaware t i k h
    | hold v t => rfl
    | trap t => rfl
    | fault r => rfl
  answers s st v t h := by
    cases hx : f s with
    | ret st' v' t' =>
      rw [hx] at h
      exact (hg st' v' (hf.answers s st' v' t' hx)).answers t' st v t h
    | hold v t => rw [hx] at h; cases h
    | trap t => rw [hx] at h; cases h
    | fault r => rw [hx] at h; cases h

theorem nests_goOnAfterOk {st : Status} (v : DWord) (hst : st ≠ .errPending) : Nests (goOnAfterOk st v) :=
  nests_ite nests_goOn (nests_ret v hst)

/-- The end of a transition writes `orch` whatever command is in flight. -/
theorem nests_reach (o : Orch) {st : Status} (v : DWord) (hst : st ≠ .errPending) : Nests (reach o st v) := by
  refine nests_ite ⟨fun _ _ _ _ => rfl, fun s st' w t h => ?_⟩ ⟨fun _ _ _ _ => rfl, fun s st' w t h => ?_⟩
  · obtain ⟨rfl, -, -⟩ := TxOut.ret.inj h
    decide
  · exact (TxOut.ret.inj h).1 ▸ hst

/-! ### Bank transactions -/

theorem nests_bankRead {b : Bank} {off : Nat} {next : Word → State → TxOut} (hn : ∀ v, Nests (next v)) :
    Nests (bankReadTx b off next) where
  unaware s i k h := by
    simp only [bankReadTx, memRead_inFlight]
    cases memRead s b off with
    | ok v => exact (hn v).unaware s i k h
    | error r => rfl
  answers s st v t h := by
    unfold bankReadTx at h
    split at h
    next w _ => exact (hn w).answers s st v t h
    next => cases h

theorem nests_bankWrite {b : Bank} {off : Nat} {w : Word} {next : State → TxOut} (hn : Nests next) :
    Nests (bankWriteTx b off w next) where
  unaware s i k h := by
    simp only [bankWriteTx, memWrite_inFlight]
    cases memWrite s b off w with
    | ok t => exact hn.unaware t i k h
    | error r => rfl
  answers s st v t h := by
    unfold bankWriteTx at h
    split at h
    next u _ => exact hn.answers u st v t h
    next => cases h

theorem nests_readHold (b : Bank) (off : Nat) (h : DWord) : Nests (readHoldTx b off h) :=
  nests_bankRead fun v => nests_hold (v.setWidth 64)

theorem nests_writeHeld (b : Bank) (off : Nat) (f : Word → Word) {next : State → TxOut} (hn : Nests next) (h : DWord) :
    Nests (writeHeldTx b off f next h) :=
  nests_bankWrite hn

/-! ### System-register transactions -/

theorem sysRead_inFlight (s : State) (i : Instr) (k : Nat) (h : DWord) (r : SysReg) :
    sysRead (inFlight s i k h) r = sysRead s r := by
  cases r <;> rfl

theorem sysStore_inFlight (s : State) (i : Instr) (k : Nat) (h : DWord) (r : SysReg) (v : DWord) :
    sysStore (inFlight s i k h) r v = inFlight (sysStore s r v) i k h := by
  cases r with
  | iccSre => cases hs : s.cfg.sreSticks <;> simp [sysStore, inFlight, hs]
  | _ => rfl

theorem sysWrite_inFlight (s : State) (i : Instr) (k : Nat) (h : DWord) (r : SysReg) (v : DWord) :
    sysWrite (inFlight s i k h) r v = (sysWrite s r v).map (inFlight · i k h) := by
  have hawake : awake (inFlight s i k h) = awake s := rfl
  simp only [sysWrite, sysStore_inFlight, inFlight_pe, inFlight_cpu, hawake]
  repeat' split
  all_goals rfl

/-- The synchronous exception abandons the command in flight, whichever it is (60_exceptions.md R313). -/
theorem syncEnter_inFlight (s : State) (i : Instr) (k : Nat) (h : DWord) :
    syncEnter (inFlight s i k h) = syncEnter s := by
  have htrap : takeTrap (inFlight s i k h) .sync = (takeTrap s .sync).map (inFlight · i k h) := by
    by_cases hv : vectorReady s
    · rw [takeTrap_of_vectorReady .sync hv, takeTrap_of_vectorReady (s := inFlight s i k h) .sync hv]
      rfl
    · rw [takeTrap_of_not_vectorReady .sync hv, takeTrap_of_not_vectorReady (s := inFlight s i k h) .sync hv]
      rfl
  rw [syncEnter, syncEnter, fatalEnter, fatalEnter, htrap]
  cases takeTrap s .sync <;> rfl

theorem nests_trap : Nests trapTx where
  unaware s i k h := by
    simp only [trapTx, syncEnter_inFlight]
    cases syncEnter s <;> rfl
  answers s st v t h := by
    unfold trapTx at h
    split at h <;> cases h

theorem nests_sysRead {r : SysReg} {next : DWord → State → TxOut} (hn : ∀ v, Nests (next v)) :
    Nests (sysReadTx r next) where
  unaware s i k h := by
    simp only [sysReadTx, sysRead_inFlight]
    match sysRead s r with
    | .ok v => exact (hn v).unaware s i k h
    | .error (.fault f) => rfl
    | .error (.sysRegTrap _) => exact nests_trap.unaware s i k h
  answers s st v t h := by
    unfold sysReadTx at h
    split at h
    next w _ => exact (hn w).answers s st v t h
    next => cases h
    next => exact nests_trap.answers s st v t h

theorem nests_sysWrite {r : SysReg} {w : DWord} {next : State → TxOut} (hn : Nests next) :
    Nests (sysWriteTx r w next) where
  unaware s i k h := by
    simp only [sysWriteTx, sysWrite_inFlight]
    match sysWrite s r w with
    | .ok t => exact hn.unaware t i k h
    | .error (.fault f) => rfl
    | .error (.sysRegTrap _) => exact nests_trap.unaware s i k h
  answers s st v t h := by
    unfold sysWriteTx at h
    split at h
    next u _ => exact hn.answers u st v t h
    next => cases h
    next => exact nests_trap.answers s st v t h

/-! ### Sequences of transactions -/

theorem NestsAll.nil : NestsAll [] := fun _ h => absurd h List.not_mem_nil

theorem NestsAll.cons {tx : Tx} {l : List Tx} (htx : ∀ h, Nests (tx h)) (hl : NestsAll l) : NestsAll (tx :: l) :=
  List.forall_mem_cons.mpr ⟨htx, hl⟩

theorem NestsAll.inLine {p q : List Tx} (hp : NestsAll p) (hq : NestsAll q) : NestsAll (inLine p q) := by
  intro tx htx
  obtain hin | hin := List.mem_append.mp htx
  · obtain ⟨u, hu, rfl⟩ := List.mem_map.mp hin
    exact fun h => nests_mapReturn (hp u hu h) fun _ v hst => nests_goOnAfterOk v hst
  · exact hq tx hin

theorem NestsAll.progOf {l : List Tx} (hl : NestsAll l) (k : Nat) (h : DWord) : Nests (progOf l k h) := by
  unfold Machine.progOf
  rw [List.getD_eq_getElem?_getD]
  cases hk : l[k]? with
  | none => exact nests_returnOk
  | some tx => exact hl tx (List.mem_of_getElem? hk) h

theorem nestsAll_vInstall (a : DWord) : NestsAll (vInstallTxs a) :=
  .cons (fun _ => nests_sysWrite nests_returnOk) .nil

theorem nestsAll_dInit : NestsAll dInitTxs :=
  .cons (nests_readHold _ _) <| .cons (nests_writeHeld _ _ _ nests_goOn) <|
  .cons (nests_readHold _ _) <| .cons (nests_writeHeld _ _ _ nests_goOn) <|
  .cons (nests_readHold _ _) <| .cons (nests_writeHeld _ _ _ nests_returnOk) .nil

theorem nests_wakePoll (bound : Word) (n : DWord) : Nests (wakePollTx bound n) := by
  unfold wakePollTx
  refine nests_bankRead fun v => ?_
  exact nests_ite (nests_ite (nests_ret (st := .errTimeout) (n + 1#64) (by decide)) (nests_hold (n + 1#64)))
    (nests_ret (st := .ok) n (by decide))

theorem nests_rInit (bound : Word) (k : Nat) (h : DWord) : Nests (rInitProg bound k h) := by
  match k with
  | 0 =>
    rw [rInitProg]
    exact nests_readHold _ _ h
  | 1 =>
    rw [rInitProg]
    exact nests_writeHeld _ _ _ (nests_ite (nests_ret (st := .errTimeout) 0#64 (by decide)) nests_goOn) h
  | _ + 2 =>
    rw [rInitProg]
    exact nests_wakePoll bound h

theorem nestsAll_cSre : NestsAll cSreTxs := by
  refine .cons (fun _ => nests_sysRead nests_hold) <| .cons (fun _ => nests_sysWrite nests_goOn) <|
    .cons (fun _ => nests_sysRead fun v => nests_ret _ ?_) .nil
  split <;> decide

/-- C.UNMASK makes its step whatever command is in flight. -/
theorem nests_unmask : Nests fun s =>
    if s.pe.pstate.el = 0#2 then .fault .el0 else returnOk { s with pe.pstate.i := false } where
  unaware s i k h := by
    by_cases he : s.pe.pstate.el = 0#2
    · simp [he, withCommand]
    · simp [he, withCommand, returnOk, inFlight]
  answers s st v t h := by
    split at h
    · cases h
    · exact (TxOut.ret.inj h).1 ▸ by decide

theorem nestsAll_cInit : NestsAll cInitTxs :=
  nestsAll_cSre.inLine <|
  (NestsAll.cons (fun _ => nests_sysWrite nests_returnOk) .nil).inLine <|
  (NestsAll.cons (fun _ => nests_sysWrite nests_returnOk) .nil).inLine <|
  .cons (fun _ => nests_unmask) .nil

theorem nestsAll_tArm : NestsAll tArmTxs :=
  .cons (fun _ => nests_sysRead fun _ => ⟨fun _ _ _ _ => rfl, fun _ _ _ _ h => by cases h⟩) <|
  .cons (fun _ => nests_sysWrite nests_goOn) <|
  .cons (fun _ => nests_sysRead fun _ => ⟨fun _ _ _ _ => rfl, fun _ _ _ _ h => by cases h⟩) <|
  .cons (fun h => nests_sysWrite (nests_ret h (by decide))) .nil

end Sys2Proof.Proofs
end

section
/-!
PROOFS. The family of 46_timer_orchestration.md, second part: a transition of O.STEP that runs one command is that
command, told as the sequencer's (O40).
-/

namespace Sys2Proof.Proofs

open Sys2Proof Sys2Proof.Machine Sys2Proof.Claims

/-! ## The step of `MAIN` that a transaction makes -/

/-- What the step of `MAIN` ends in whose transaction `k` of command `i` ended in `x` (10_state.md R49). -/
def stepOutcome (i : Instr) (k : Nat) (x : TxOut) : Host.Outcome State Fault Refusal :=
  match x with
  | .hold v t => .next (inMid t i (k + 1) v)
  | .ret st v t => .next (respond t st v)
  | .trap t => .next t
  | .fault r => .fault r

theorem runMain_eq_stepOutcome (i : Instr) (p : Prog) (s : State) :
    runMain i p s = stepOutcome i (mainIndex s) (p (mainIndex s) (mainHeld s) s) := by
  unfold runMain
  cases p (mainIndex s) (mainHeld s) s <;> rfl

theorem runMain_idle {s : State} (i : Instr) (p : Prog) (hm : s.seq.mainCmd = none) :
    runMain i p s = stepOutcome i 0 (p 0 0#64 s) := by
  rw [runMain_eq_stepOutcome, mainIndex_idle hm, mainHeld_idle hm]

/-- A transaction that nests makes the same step whichever command is in flight. -/
theorem runMain_inMid {p : Prog} {k : Nat} {h : DWord} (hp : Nests (p k h)) (i j : Instr) (s : State) :
    runMain i p (inMid s j k h) = stepOutcome i k (p k h s) := by
  have hindex : mainIndex (inMid s j k h) = k := rfl
  have hheld : mainHeld (inMid s j k h) = h := rfl
  rw [runMain_eq_stepOutcome, hindex, hheld, show inMid s j k h = inFlight s j k h from rfl, hp.unaware]
  cases p k h s <;> rfl

/-! ## Transitions that run one command (46_timer_orchestration.md R268) -/

/-- Under the parameters `c` and in orchestration state `q`, O.STEP is a transition to `o` that runs the transactions
`p` of command `i`. -/
structure StepRuns (c : Config) (q : Orch) (i : Instr) (o : Orch) (p : Prog) : Prop where
  command : ∀ u, exec i u = runMain i p u
  sequencer : ∀ u : State, u.cfg = c → u.seq.orch = q → exec .oStep u = runMain .oStep (transition o p) u
  nests : ∀ k h, Nests (p k h)
  frame : ∀ k h s, (p k h s).Sat (fun s t => commandFrame t = commandFrame s) s

theorem stepRuns_vInstall (c : Config) :
    StepRuns c .uninitialized (.vInstall c.vectorBase) .vectorInstalled (progOf (vInstallTxs c.vectorBase)) where
  command _ := rfl
  sequencer u hc hq := by simp only [exec, execOStep, oStepProg, hq, hc]
  nests := (nestsAll_vInstall _).progOf
  frame := progOf_sat commandFrame_keptByMain.refl _ (vInstallTxs_sat commandFrame_keptByMain.toKeptByAccess _)

theorem stepRuns_dInit (c : Config) :
    StepRuns c .vectorInstalled .dInit .distributorConfigured (progOf dInitTxs) where
  command _ := rfl
  sequencer u _ hq := by simp only [exec, execOStep, oStepProg, hq]
  nests := nestsAll_dInit.progOf
  frame := progOf_sat commandFrame_keptByMain.refl _ (dInitTxs_sat commandFrame_keptByMain.toKeptByAccess)

theorem stepRuns_rInit (c : Config) :
    StepRuns c .distributorConfigured (.rInit c.wakeBound) .redistributorAwake (rInitProg c.wakeBound) where
  command _ := rfl
  sequencer u hc hq := by simp only [exec, execOStep, oStepProg, hq, hc]
  nests := nests_rInit _
  frame := rInitProg_sat commandFrame_keptByMain.toKeptByAccess _

theorem stepRuns_cInit (c : Config) :
    StepRuns c .redistributorAwake .cInit .cpuInterfaceReady (progOf cInitTxs) where
  command _ := rfl
  sequencer u _ hq := by simp only [exec, execOStep, oStepProg, hq]
  nests := nestsAll_cInit.progOf
  frame := progOf_sat commandFrame_keptByMain.refl _ (cInitTxs_sat commandFrame_keptByMain.toKeptByAccess)

theorem stepRuns_tArm (c : Config) :
    StepRuns c .timerInterruptConfigured .tArm .timerArmed (progOf tArmTxs) where
  command _ := rfl
  sequencer u _ hq := by simp only [exec, execOStep, oStepProg, hq]
  nests := nestsAll_tArm.progOf
  frame := progOf_sat commandFrame_keptByMain.refl _ (tArmTxs_sat commandFrame_keptByMain.toKeptByAccess)

/-- The five transitions of R267 that run one command. -/
theorem exists_stepRuns {c : Config} {q o : Orch} {i : Instr} {n : DWord} (h : transitionOf c q = some (i, o, n)) :
    n = orchNumber o ∧ ∃ p, StepRuns c q i o p := by
  cases q with
  | uninitialized => cases h; exact ⟨rfl, _, stepRuns_vInstall c⟩
  | vectorInstalled => cases h; exact ⟨rfl, _, stepRuns_dInit c⟩
  | distributorConfigured => cases h; exact ⟨rfl, _, stepRuns_rInit c⟩
  | redistributorAwake => cases h; exact ⟨rfl, _, stepRuns_cInit c⟩
  | timerInterruptConfigured => cases h; exact ⟨rfl, _, stepRuns_tArm c⟩
  | cpuInterfaceReady | timerArmed | running | failed => cases h

/-- A command's answer told as the end of a transition: the state reached and its number, or the failure and the
command's own answer. -/
theorem asTransition_respond {o : Orch} {i : Instr} {k : Nat} {st : Status} {v : DWord} {t : State}
    (hh : t.halt = none) (hst : st ≠ .errPending) :
    asTransition o (orchNumber o) (.next (respond t st v)) = stepOutcome i k (reach o st v t) := by
  cases st with
  | errPending => exact absurd rfl hst
  | _ => simp [asTransition, hh, reach, stepOutcome, failKindOf, respond, Status.code, okRsp, answered]

/-- The step that a transaction of the command makes, told as the sequencer's, is the step the transition makes. -/
theorem asTransition_stepOutcome {o : Orch} {i : Instr} {k : Nat} {x : TxOut} {s : State} (hh : s.halt = none)
    (hframe : x.Sat (fun s t => commandFrame t = commandFrame s) s)
    (hanswers : ∀ st v t, x = .ret st v t → st ≠ .errPending) :
    asTransition o (orchNumber o) (stepOutcome i k x) = stepOutcome .oStep k (mapReturn (reach o) x) := by
  cases x with
  | hold v t => rfl
  | fault r => rfl
  | trap t =>
    obtain ⟨-, rfl⟩ := syncEnter_ok hframe
    rfl
  | ret st v t =>
    have hhalt : t.halt = s.halt := congrArg CommandFrame.halt hframe
    exact asTransition_respond (hhalt.trans hh) (hanswers st v t rfl)

namespace StepRuns

section
variable {c : Config} {q o : Orch} {i : Instr} {p : Prog} {s : State} (hr : StepRuns c q i o p) (hc : s.cfg = c)
  (hq : s.seq.orch = q)
include hr

theorem nests_transition (k : Nat) (h : DWord) : Nests (transition o p k h) :=
  nests_mapReturn (hr.nests k h) fun _ v hst => nests_reach o v hst

theorem exec_command_idle (hm : s.seq.mainCmd = none) : exec i s = stepOutcome i 0 (p 0 0#64 s) :=
  (hr.command s).trans (runMain_idle i p hm)

theorem exec_command_inMid (k : Nat) (h : DWord) : exec i (inMid s i k h) = stepOutcome i k (p k h s) :=
  (hr.command _).trans (runMain_inMid (hr.nests k h) i i s)

include hc hq

theorem exec_oStep_idle (hm : s.seq.mainCmd = none) :
    exec .oStep s = stepOutcome .oStep 0 (mapReturn (reach o) (p 0 0#64 s)) :=
  (hr.sequencer s hc hq).trans (runMain_idle _ _ hm)

theorem exec_oStep_inMid (k : Nat) (h : DWord) :
    exec .oStep (inMid s .oStep k h) = stepOutcome .oStep k (mapReturn (reach o) (p k h s)) :=
  (hr.sequencer (inMid s .oStep k h) hc hq).trans (runMain_inMid (hr.nests_transition k h) _ _ s)

end

end StepRuns

/-- Settles O40: the transaction sees neither which command is in flight nor its own place in it, so both sides are the
one transaction, told two ways. -/
theorem sequencerRunsTheCommand : Obligations.SequencerRunsTheCommand := by
  intro s c o n hh ht
  obtain ⟨rfl, p, hr⟩ := exists_stepRuns ht
  have htold := fun k h => asTransition_stepOutcome (o := o) (i := c) (k := k) hh (hr.frame k h s)
    ((hr.nests k h).answers s)
  constructor
  · intro hm
    rw [hr.exec_oStep_idle rfl rfl hm, hr.exec_command_idle hm, htold]
  · intro k h
    rw [hr.exec_oStep_inMid rfl rfl, hr.exec_command_inMid, htold]

end Sys2Proof.Proofs
end

section
/-!
PROOFS. The family of 46_timer_orchestration.md, third part: O.STEP transition by transition (O39), and O.POLL (O42).
-/

namespace Sys2Proof.Proofs

open Sys2Proof Sys2Proof.Machine Sys2Proof.Claims

/-! ## Commands that issue no transaction -/

theorem runMain_returnTxs {s : State} (i : Instr) (st : Status) (hm : s.seq.mainCmd = none) :
    runMain i (progOf (returnTxs st)) s = .next { s with rsp := answered st.code 0#64 } :=
  (runMain_idle i _ hm).trans (congrArg Host.Outcome.next (respond_idle hm st 0#64))

/-! ## Transitions, from what is known of their commands -/

/-- A step that leaves the command in flight was a transaction that goes on. -/
theorem stepOutcome_goesOn {i j : Instr} {k : Nat} {v : DWord} {x : TxOut} {s t : State}
    (g : Status → DWord → State → TxOut) (hframe : x.Sat (fun s t => commandFrame t = commandFrame s) s)
    (hx : stepOutcome i k x = .next (inMid t i (k + 1) v)) :
    stepOutcome j k (mapReturn g x) = .next (inMid t j (k + 1) v) := by
  cases x with
  | hold w u =>
    have hstate := Host.Outcome.next.inj hx
    obtain rfl : w = v := congrArg mainHeld hstate
    have htold := congrArg (fun y => inMid y j (k + 1) w) hstate
    exact congrArg Host.Outcome.next htold
  | ret st w u => exact absurd (congrArg (·.seq.mainCmd) (Host.Outcome.next.inj hx)) nofun
  | trap u =>
    obtain ⟨-, rfl⟩ := syncEnter_ok hframe
    exact absurd (congrArg (·.seq.mainCmd) (Host.Outcome.next.inj hx)) nofun
  | fault r => cases hx

namespace StepRuns

section
variable {c : Config} {q o : Orch} {i : Instr} {p : Prog} {s t : State} {v : DWord} (hr : StepRuns c q i o p)
include hr

theorem exec_oStep_first (hc : s.cfg = c) (hq : s.seq.orch = q) (hm : s.seq.mainCmd = none)
    (hx : exec i s = .next (inMid t i 1 v)) : exec .oStep s = .next (inMid t .oStep 1 v) := by
  rw [hr.exec_command_idle hm] at hx
  exact (hr.exec_oStep_idle hc hq hm).trans (stepOutcome_goesOn _ (hr.frame 0 0#64 s) hx)

section
variable {s₀ : State} {m k : Nat} {h : DWord} (hprev : execs .oStep m s₀ = .next (inMid s .oStep k h))
include hprev

theorem execs_oStep_goesOn (hx : exec i (inMid s i k h) = .next (inMid t i (k + 1) v)) (hc : s.cfg = c)
    (hq : s.seq.orch = q) : execs .oStep (m + 1) s₀ = .next (inMid t .oStep (k + 1) v) := by
  rw [hr.exec_command_inMid] at hx
  rw [execs_succ_of_next hprev, hr.exec_oStep_inMid hc hq]
  exact stepOutcome_goesOn _ (hr.frame k h s) hx

/-- The last transaction reaches the new state and returns its number. -/
theorem execs_oStep_ends (hx : p k h s = .ret .ok v t) (hm : t.seq.mainCmd = none) (hc : s.cfg = c)
    (hq : s.seq.orch = q) :
    execs .oStep (m + 1) s₀ = .next { t with seq.orch := o, rsp := okRsp (orchNumber o) } := by
  rw [execs_succ_of_next hprev, hr.exec_oStep_inMid hc hq, hx]
  exact congrArg Host.Outcome.next (respond_idle (s := { t with seq.orch := o }) hm .ok (orchNumber o))

/-- A failing command leaves its failure, and its answer is the sequencer's. -/
theorem execs_oStep_fails {st : Status} (hx : p k h s = .ret st v t) (hst : st ≠ .ok) (hm : t.seq.mainCmd = none)
    (hc : s.cfg = c) (hq : s.seq.orch = q) : execs .oStep (m + 1) s₀ =
      .next { t with seq.orch := .failed (failKindOf st), rsp := answered st.code v } := by
  rw [execs_succ_of_next hprev, hr.exec_oStep_inMid hc hq, hx, mapReturn, reach, if_neg hst]
  exact congrArg Host.Outcome.next (respond_idle (s := { t with seq.orch := .failed (failKindOf st) }) hm st v)

end

end

end StepRuns

/-! ## The last transactions of C.INIT and T.ARM -/

theorem cInit_last {s : State} (he : s.pe.pstate.el ≠ 0#2) (h : DWord) :
    progOf cInitTxs 5 h s = .ret .ok 0#64 { s with pe.pstate.i := false } := by
  rw [cInit_unmask]
  exact cUnmask_write he h

theorem tArm_last {s : State} (he : s.pe.pstate.el ≠ 0#2) (h : DWord) :
    progOf tArmTxs 3 h s = .ret .ok h { s with timer := { s.timer with enable := true, imask := false } } :=
  sysWriteTx_ungated (r := .cntpCtl) he rfl 0x1#64 (fun t => .ret .ok h t) rfl rfl

section
variable {s : State} (hm : s.seq.mainCmd = none)
include hm

/-! ## The transitions with all their transactions (46_timer_orchestration.md R269 to R276) -/

theorem exec_oStep_uninitialized (hq : s.seq.orch = .uninitialized) (he : s.pe.pstate.el ≠ 0#2) :
    exec .oStep s = .next { s with
      pe.vbar := s.cfg.vectorBase, pe.vbarValid := true, seq.orch := .vectorInstalled, rsp := okRsp 1#64 } := by
  have hwrite : progOf (vInstallTxs s.cfg.vectorBase) 0 0#64 s = returnOk (sysStore s .vbar s.cfg.vectorBase) :=
    sysWriteTx_ungated he rfl _ returnOk rfl rfl
  rw [(stepRuns_vInstall s.cfg).exec_oStep_idle rfl hq hm, hwrite]
  exact congrArg Host.Outcome.next (respond_idle
    (s := { sysStore s .vbar s.cfg.vectorBase with seq.orch := .vectorInstalled }) hm .ok 1#64)

theorem exec_oStep_timerArmed (hq : s.seq.orch = .timerArmed) :
    exec .oStep s = .next { s with seq.orch := .running, rsp := okRsp 7#64 } := by
  have hstep : exec .oStep s = runMain .oStep (transition .running (progOf (returnTxs .ok))) s := by
    simp only [exec, execOStep, oStepProg, hq]
  rw [hstep, runMain_idle _ _ hm]
  exact congrArg Host.Outcome.next (respond_idle (s := { s with seq.orch := .running }) hm .ok 7#64)

/-- Where no transition leaves the state, O.STEP answers `ERR_STATE` (46_timer_orchestration.md R275, R276). -/
theorem exec_oStep_noTransition (hq : s.seq.orch = .running ∨ ∃ k, s.seq.orch = .failed k) :
    exec .oStep s = .next { s with rsp := answered 5#4 0#64 } := by
  have hstep : exec .oStep s = runMain .oStep (progOf (returnTxs .errState)) s := by
    obtain hq | ⟨k, hq⟩ := hq <;> simp only [exec, execOStep, oStepProg, hq]
  rw [hstep, runMain_returnTxs _ _ hm]
  rfl

theorem exec_oStep_vectorInstalled (hq : s.seq.orch = .vectorInstalled) :
    exec .oStep s = .next (inMid s .oStep 1 ((ctlrWord s.dist.ctlr).setWidth 64)) :=
  (stepRuns_dInit s.cfg).exec_oStep_first rfl hq hm (exec_dInit_read_first hm)

theorem execs_oStep_vectorInstalled (hq : s.seq.orch = .vectorInstalled) : execs .oStep 6 s = .next { s with
    dist.ctlr := { ds := true, enG0 := true, enG1 := true, are := true }
    seq.orch := .distributorConfigured
    rsp := okRsp 2#64 } := by
  have hr := stepRuns_dInit s.cfg
  have hfirst := (execs_one .oStep s).trans (exec_oStep_vectorInstalled hm hq)
  have hds := hr.execs_oStep_goesOn hfirst exec_dInit_write_ds rfl hq
  have hsecond := hr.execs_oStep_goesOn hds (exec_dInit_read_again (.inl rfl) _) rfl hq
  have hgroups := hr.execs_oStep_goesOn hsecond (exec_dInit_write_groups rfl) rfl hq
  have hthird := hr.execs_oStep_goesOn hgroups (exec_dInit_read_again (.inr rfl) _) rfl hq
  exact hr.execs_oStep_ends hthird (writeHeldTx_ctlr (· ||| 0x10#32) returnOk (ctlrWrite_setAre rfl)) hm rfl hq

section
variable (hq : s.seq.orch = .redistributorAwake) (he : s.pe.pstate.el ≠ 0#2) (ha : awake s = true)
include hq he ha

/-- C.INIT's first two transactions, the enable bit written or ignored. -/
theorem execs_oStep_redistributorAwake_write : execs .oStep 2 s =
    .next (inMid (if s.cfg.sreSticks then { s with cpu.sre := true } else s) .oStep 2 0#64) := by
  have hr := stepRuns_cInit s.cfg
  have hread := (execs_one .oStep s).trans (hr.exec_oStep_first rfl hq hm (cInit_beginsWithCSre.exec_read he hm))
  exact hr.execs_oStep_goesOn hread (cInit_beginsWithCSre.exec_write he ha _) rfl hq

theorem execs_oStep_redistributorAwake (hs : s.cfg.sreSticks = true) : execs .oStep 6 s = .next { s with
    cpu := { s.cpu with sre := true, pmr := 0xFF#8, grp1en := true }
    pe.pstate.i := false
    seq.orch := .cpuInterfaceReady
    rsp := okRsp 4#64 } := by
  have hr := stepRuns_cInit s.cfg
  have hwrite := execs_oStep_redistributorAwake_write hm hq he ha
  rw [if_pos hs] at hwrite
  have hsre := hr.execs_oStep_goesOn hwrite (exec_cInit_readBack (s := { s with cpu.sre := true }) he _ rfl) rfl hq
  have hpmr := hr.execs_oStep_goesOn hsre (exec_cInit_pmr (s := { s with cpu.sre := true }) he _ ha rfl) rfl hq
  have hgrp := hr.execs_oStep_goesOn hpmr
    (exec_cInit_grp1en (s := { s with cpu := { s.cpu with sre := true, pmr := 0xFF#8 } }) he _ ha rfl) rfl hq
  exact hr.execs_oStep_ends hgrp (cInit_last (s := { s with
    cpu := { s.cpu with sre := true, pmr := 0xFF#8, grp1en := true } }) he _) hm rfl hq

/-- Where the platform ignores the enable bit the bring-up has failed (46_timer_orchestration.md R272). -/
theorem execs_oStep_redistributorAwake_fails (hs : s.cfg.sreSticks = false) (hsre : s.cpu.sre = false) :
    execs .oStep 3 s = .next { s with seq.orch := .failed .sre, rsp := answered 4#4 0#64 } := by
  have hwrite := execs_oStep_redistributorAwake_write hm hq he ha
  rw [if_neg (by simp [hs])] at hwrite
  have hreadBack (h : DWord) : progOf cInitTxs 2 h s = .ret .errSre 0#64 s := by
    rw [cInitTxs, progOf_inLine_left _ (by decide), mapReturnTx, cSre_readBack he, hsre]
    rfl
  exact (stepRuns_cInit s.cfg).execs_oStep_fails hwrite (hreadBack _) (by decide) hm rfl hq

end

theorem execs_oStep_timerInterruptConfigured (hq : s.seq.orch = .timerInterruptConfigured)
    (he : s.pe.pstate.el ≠ 0#2) (hd : s.cfg.timerDelta.toNat < 2 ^ 31) : execs .oStep 4 s = .next { s with
      seq.tDelta := s.cfg.timerDelta
      seq.tDiag := s.timer.cnt + s.cfg.timerDelta.setWidth 64
      timer := { s.timer with
        cval := s.timer.cnt + s.cfg.timerDelta.setWidth 64, enable := true, imask := false }
      seq.orch := .timerArmed
      rsp := okRsp 6#64 } := by
  have hr := stepRuns_tArm s.cfg
  have hdelta := (execs_one .oStep s).trans (hr.exec_oStep_first rfl hq hm (exec_tArm_delta he hm))
  have hcompare := hr.execs_oStep_goesOn hdelta
    (exec_tArm_compare (s := { s with seq.tDelta := s.cfg.timerDelta }) he _) rfl hq
  rw [setWidth_word, signExtend_of_lt hd] at hcompare
  have hreadBack := hr.execs_oStep_goesOn hcompare (exec_tArm_readBack (s := { s with
    seq.tDelta := s.cfg.timerDelta
    timer.cval := s.timer.cnt + s.cfg.timerDelta.setWidth 64 }) he _) rfl hq
  exact hr.execs_oStep_ends hreadBack
    (tArm_last (s := { s with
      seq.tDelta := s.cfg.timerDelta
      seq.tDiag := s.timer.cnt + s.cfg.timerDelta.setWidth 64
      timer.cval := s.timer.cnt + s.cfg.timerDelta.setWidth 64 }) he _) hm rfl hq

end

/-- Settles O39, one lemma a transition. -/
theorem sequencerTransitions : Obligations.SequencerTransitions := fun _ hm =>
  ⟨exec_oStep_uninitialized hm, exec_oStep_timerArmed hm, exec_oStep_noTransition hm,
    fun hq => ⟨exec_oStep_vectorInstalled hm hq, execs_oStep_vectorInstalled hm hq⟩,
    fun hq he ha => ⟨execs_oStep_redistributorAwake hm hq he ha, execs_oStep_redistributorAwake_fails hm hq he ha⟩,
    execs_oStep_timerInterruptConfigured hm⟩

/-! ## O.POLL (46_timer_orchestration.md R278) -/

/-- The query of O.POLL answers the pending view of interrupt 30 in bank R. -/
theorem rGetPend_timer (h : DWord) (s : State) :
    progOf (rGetPendTxs 30#10) 0 h s = .ret .ok (BitVec.ofNat 64 (pend s .R 30).toNat) s := by
  have hid : 30 < idCount s .R := (by decide : 30 < 32)
  obtain ⟨-, -, -, ⟨-, ha, hr⟩, -⟩ := selects_bitFields hid
  have hview := regRead_setPend_getLsbD s .R (30 / 32) (30 % 32) (by decide)
  have hread : memRead s .R (fieldOff wlogBit 0x10200 30) = .ok (regRead s .R (.setPend (30 / 32))) :=
    memRead_of_reg ha hr
  have hquery : progOf (rGetPendTxs 30#10) 0 h s = bankReadTx .R (fieldOff wlogBit 0x10200 30)
      (fun r t => .ret .ok ((fieldGet wlogBit 30 r).setWidth 64) t) s := by
    rw [rGetPendTxs, rChecked, if_pos (by decide)]
    rfl
  rw [hquery, bankReadTx, hread]
  dsimp only
  rw [fieldGet_bit_setWidth, hview]

theorem exec_oPoll_running {s : State} (hm : s.seq.mainCmd = none) (hq : s.seq.orch = .running) :
    exec .oPoll s = stepOutcome .oPoll 0 (pollAnswer .ok (BitVec.ofNat 64 (pend s .R 30).toNat) s) := by
  have hprog : exec .oPoll s = runMain .oPoll (progOf ((rGetPendTxs 30#10).map (mapReturnTx pollAnswer))) s := by
    rw [exec, execOPoll, oPollTxs, if_pos hq]
  have hfirst : progOf ((rGetPendTxs 30#10).map (mapReturnTx pollAnswer)) 0 =
      mapReturnTx pollAnswer (progOf (rGetPendTxs 30#10) 0) := rfl
  rw [hprog, runMain_idle _ _ hm, hfirst, mapReturnTx, rGetPend_timer, mapReturn]

/-- Settles O42: outside `Running` no transaction is issued; in it the answer is `pollAnswer` of the pending view. -/
theorem steadyStatePoll : Obligations.SteadyStatePoll := by
  intro s hm
  refine ⟨fun hq => ?outside, fun hq hp => ?clear, fun hq hp => ?pending⟩
  case outside =>
    rw [exec, execOPoll, oPollTxs, if_neg hq, runMain_returnTxs _ _ hm]
    rfl
  case clear =>
    rw [exec_oPoll_running hm hq, hp]
    exact congrArg Host.Outcome.next (respond_idle hm .ok 0#64)
  case pending =>
    rw [exec_oPoll_running hm hq, hp]
    exact congrArg Host.Outcome.next (respond_idle (s := { s with seq.orch := .failed .pending }) hm .errPending 1#64)

end Sys2Proof.Proofs
end

section
/-!
PROOFS. The family of 46_timer_orchestration.md, fourth part: transition 4, the eleven commands for interrupt 30 (O41).
-/

namespace Sys2Proof.Proofs

open Sys2Proof Sys2Proof.Machine Sys2Proof.Claims

/-! ## Commands in line, two transactions each -/

/-- Several commands run in line, one after the other. -/
def inLineAll : List (List Tx) → List Tx
  | [] => []
  | [l] => l
  | l :: ls => inLine l (inLineAll ls)

/-- Transaction `k` of commands of two transactions each is transaction `k % 2` of command `k / 2`; all commands but the
last go on with the next. -/
theorem progOf_inLineAll {ls : List (List Tx)} {l : List Tx} {k : Nat} (htwo : ∀ l ∈ ls, l.length = 2)
    (hl : ls[k / 2]? = some l) : progOf (inLineAll ls) k =
      if k / 2 + 1 = ls.length then progOf l (k % 2) else mapReturnTx goOnAfterOk (progOf l (k % 2)) := by
  induction ls generalizing k with
  | nil => cases hl
  | cons x ls ih =>
    obtain ⟨hx, hrest⟩ := List.forall_mem_cons.mp htwo
    cases ls with
    | nil =>
      obtain ⟨hk, rfl⟩ := List.getElem?_eq_some_iff.mp hl
      have hzero : k / 2 = 0 := Nat.lt_one_iff.mp hk
      simp [inLineAll, hzero, Nat.mod_eq_of_lt (show k < 2 by omega)]
    | cons y ls =>
      rw [inLineAll]
      · obtain hk | ⟨m, rfl⟩ : k < 2 ∨ ∃ m, k = 2 + m := by
          rcases Nat.lt_or_ge k 2 with hk | hk
          · exact .inl hk
          · exact .inr ⟨k - 2, by omega⟩
        · have hzero : k / 2 = 0 := by omega
          rw [hzero] at hl
          obtain rfl : x = l := Option.some.inj hl
          rw [progOf_inLine_left _ (hx ▸ hk), Nat.mod_eq_of_lt hk, hzero, if_neg (by simp)]
        · have hdiv : (2 + m) / 2 = m / 2 + 1 := by omega
          have hmod : (2 + m) % 2 = m % 2 := by omega
          have hright := progOf_inLine_right x (inLineAll (y :: ls)) m
          rw [hx] at hright
          rw [hdiv, List.getElem?_cons_succ] at hl
          rw [hright, ih hrest hl, hdiv, hmod]
          simp only [List.length_cons, Nat.add_right_cancel_iff]
      · simp

/-- The transactions are one read-modify-write of a bank register. -/
def IsReadModifyWrite (l : List Tx) : Prop := ∃ b off f, l = rmwTxs b off f

/-- The commands of transition 4 as their transactions (46_timer_orchestration.md R273). -/
def timerParts (c : Config) : List (List Tx) :=
  [dSetGrpTxs c 30#10 1#8, rSetGrpTxs 30#10 1#8, dSetPriTxs c 30#10 0#8, rSetPriTxs 30#10 0#8,
   dSetTgtTxs c 30#10 0#8, dSetCfgTxs c 30#10 0#8, rSetCfgTxs 30#10 0#8, dClrPendTxs c 30#10, rClrPendTxs 30#10,
   dSetEnTxs c 30#10, rSetEnTxs 30#10]

theorem timerIrqTxs_eq (c : Config) : timerIrqTxs c = inLineAll (timerParts c) := rfl

/-- Interrupt 30 is in range whatever `N_IDS` is. -/
theorem dChecked_timer (c : Config) (l : List Tx) : dChecked c 30#10 l = l := by
  obtain ⟨hmin, -, -⟩ := nIds_bounds c
  exact if_pos (Nat.lt_of_lt_of_le (by decide) hmin)

/-- Each of the eleven commands is one read-modify-write. -/
theorem elevenCommands_parts (c : Config) :
    List.Forall₂ (fun x l => RunsAs c x.1 l ∧ IsReadModifyWrite l) elevenCommands (timerParts c) := by
  have hD : ∀ {b off f}, IsReadModifyWrite (dChecked c 30#10 (rmwTxs b off f)) := fun {b off f} =>
    ⟨b, off, f, dChecked_timer c _⟩
  have hR : ∀ {b off f}, IsReadModifyWrite (rChecked 30#10 (rmwTxs b off f)) := fun {b off f} => ⟨b, off, f, rfl⟩
  exact .cons ⟨fun _ hu => hu ▸ rfl, hD⟩ <| .cons ⟨fun _ _ => rfl, hR⟩ <|
    .cons ⟨fun _ hu => hu ▸ rfl, hD⟩ <| .cons ⟨fun _ _ => rfl, hR⟩ <|
    .cons ⟨fun _ hu => hu ▸ rfl, hD⟩ <| .cons ⟨fun _ hu => hu ▸ rfl, hD⟩ <| .cons ⟨fun _ _ => rfl, hR⟩ <|
    .cons ⟨fun _ hu => hu ▸ rfl, hD⟩ <| .cons ⟨fun _ _ => rfl, hR⟩ <|
    .cons ⟨fun _ hu => hu ▸ rfl, hD⟩ <| .cons ⟨fun _ _ => rfl, hR⟩ .nil

theorem exists_part {c : Config} {j n : Nat} {i : Instr} (h : elevenCommands[j]? = some (i, n)) :
    ∃ b off f, (timerParts c)[j]? = some (rmwTxs b off f) ∧ RunsAs c i (rmwTxs b off f) := by
  obtain ⟨hj, hi⟩ := List.getElem?_eq_some_iff.mp h
  have hparts : j < (timerParts c).length := hj
  obtain ⟨hruns, b, off, f, hrmw⟩ := (elevenCommands_parts c).get hj hparts
  simp only [List.get_eq_getElem, hi] at hruns hrmw
  exact ⟨b, off, f, List.getElem?_eq_some_iff.mpr ⟨hparts, hrmw⟩, hrmw ▸ hruns⟩

theorem timerParts_length_two (c : Config) : ∀ l ∈ timerParts c, l.length = 2 := by
  intro l hl
  obtain ⟨j, hj, rfl⟩ := List.getElem_of_mem hl
  obtain ⟨-, b, off, f, hrmw⟩ := (elevenCommands_parts c).get hj hj
  exact (congrArg List.length hrmw).trans rfl

/-! ## One transaction, the command's and the sequencer's -/

/-- The outcome of transaction `k` of a read-modify-write, begun in `s`: it takes no trap, and only the second one ends
the command, with `OK`. -/
def EndsAsPart (k : Nat) (s : State) : TxOut → Prop
  | .hold _ _ => True
  | .ret st _ t => k = 1 ∧ st = .ok ∧ t.rsp = s.rsp
  | .trap _ => False
  | .fault _ => True

section
variable {b : Bank} {off : Nat} {f : Word → Word}

theorem nests_rmw (k : Nat) (h : DWord) : Nests (progOf (rmwTxs b off f) k h) :=
  (NestsAll.cons (nests_readHold b off) <| .cons (nests_writeHeld b off f nests_returnOk) .nil).progOf k h

theorem rmw_endsAsPart {k : Nat} (hk : k < 2) (h : DWord) (s : State) :
    EndsAsPart k s (progOf (rmwTxs b off f) k h s) := by
  match k with
  | 0 =>
    show EndsAsPart 0 s (bankReadTx b off _ s)
    unfold bankReadTx
    split <;> trivial
  | 1 =>
    show EndsAsPart 1 s (bankWriteTx b off _ returnOk s)
    unfold bankWriteTx
    split
    next t ht =>
      obtain ⟨-, -, -, -, -, -, hrsp, -⟩ := memWrite_frame ht
      exact ⟨rfl, rfl, hrsp⟩
    next => trivial

end

/-- The step a transaction of one of the eleven commands makes, told as part of the transition, is the transition's. -/
theorem asPart_stepOutcome {i : Instr} {k : Nat} {s : State} {x : TxOut} (hx : EndsAsPart (k % 2) s x) :
    asPart s.rsp k (stepOutcome i (k % 2) x) = stepOutcome .oStep k
      (mapReturn (reach .timerInterruptConfigured) (if k / 2 + 1 = 11 then x else mapReturn goOnAfterOk x)) := by
  cases x with
  | hold v t => split <;> rfl
  | trap t => exact hx.elim
  | fault r => split <;> rfl
  | ret st v t =>
    obtain ⟨hk, rfl, hrsp⟩ := hx
    have hlast : k / 2 + 1 = 11 ↔ k = 21 := by omega
    rw [← hrsp]
    by_cases h : k = 21
    · rw [if_pos (hlast.mpr h)]
      exact if_pos h
    · rw [if_neg (mt hlast.mp h)]
      exact if_neg h

/-! ## Transition 4 by its commands (46_timer_orchestration.md R273) -/

section
variable {s : State} {i : Instr} {k n : Nat} (hq : s.seq.orch = .cpuInterfaceReady)
  (hi : elevenCommands[k / 2]? = some (i, n))

theorem exec_oStep_timer (u : State) (hc : u.cfg = s.cfg) (hq : u.seq.orch = .cpuInterfaceReady) : exec .oStep u =
    runMain .oStep (transition .timerInterruptConfigured (progOf (timerIrqTxs s.cfg))) u := by
  simp only [exec, execOStep, oStepProg, hq, hc]

/-- Transaction `k` of the transition, as the transaction of the command it belongs to. -/
theorem timerTransition_eq {c : Config} {l : List Tx} (hl : (timerParts c)[k / 2]? = some l) (h : DWord) (u : State) :
    transition .timerInterruptConfigured (progOf (timerIrqTxs c)) k h u =
      mapReturn (reach .timerInterruptConfigured)
        (if k / 2 + 1 = 11 then progOf l (k % 2) h u else mapReturn goOnAfterOk (progOf l (k % 2) h u)) := by
  have hlength : (timerParts c).length = 11 := rfl
  rw [transition, mapReturnTx, timerIrqTxs_eq, progOf_inLineAll (timerParts_length_two c) hl, hlength]
  split <;> rfl

theorem nests_timerTransition {c : Config} {b : Bank} {off : Nat} {f : Word → Word}
    (hl : (timerParts c)[k / 2]? = some (rmwTxs b off f)) (h : DWord) :
    Nests (transition .timerInterruptConfigured (progOf (timerIrqTxs c)) k h) := by
  rw [funext (timerTransition_eq hl h)]
  refine nests_mapReturn (nests_ite (nests_rmw _ h) ?_) fun _ v hst => nests_reach _ v hst
  exact nests_mapReturn (nests_rmw _ h) fun _ v hst => nests_goOnAfterOk v hst

include hq hi

theorem exec_oStep_part (h : DWord) :
    exec .oStep (inMid s .oStep k h) = asPart s.rsp k (exec i (inMid s i (k % 2) h)) := by
  obtain ⟨b, off, f, hl, hruns⟩ := exists_part (c := s.cfg) hi
  rw [exec_oStep_timer (s := s) (inMid s .oStep k h) rfl hq, runMain_inMid (nests_timerTransition hl h),
    hruns (inMid s i (k % 2) h) rfl, runMain_inMid (nests_rmw _ h),
    asPart_stepOutcome (rmw_endsAsPart (Nat.mod_lt k (by decide)) h s), timerTransition_eq hl]

end

section
variable {s : State} (hm : s.seq.mainCmd = none)
include hm

theorem exec_oStep_first (hq : s.seq.orch = .cpuInterfaceReady) :
    exec .oStep s = exec .oStep (inMid s .oStep 0 0#64) := by
  obtain ⟨b, off, f, hl, -⟩ := exists_part (c := s.cfg) (j := 0) rfl
  rw [exec_oStep_timer (s := s) s rfl hq, exec_oStep_timer (s := s) (inMid s .oStep 0 0#64) rfl hq,
    runMain_idle _ _ hm, runMain_inMid (nests_timerTransition (k := 0) hl 0#64)]

theorem exec_part_first {j n : Nat} {i : Instr} (hi : elevenCommands[j]? = some (i, n)) :
    exec i s = exec i (inMid s i 0 0#64) := by
  obtain ⟨b, off, f, -, hruns⟩ := exists_part (c := s.cfg) hi
  rw [hruns s rfl, hruns (inMid s i 0 0#64) rfl, runMain_idle _ _ hm, runMain_inMid (nests_rmw 0 0#64)]

end

/-! ## The response does not show in the banks -/

section
variable (s : State) (r : Rsp) (b : Bank) (off : Nat) (w : Word)

theorem memRead_withRsp : memRead { s with rsp := r } b off = memRead s b off := by
  have hread (x : BankReg) : regRead { s with rsp := r } b x = regRead s b x := by
    cases b <;> cases x <;> rfl
  unfold memRead
  simp only [hread]
  rfl

theorem regWrite_withRsp (x : BankReg) :
    regWrite { s with rsp := r } b x w = (regWrite s b x w).map fun t => { t with rsp := r } := by
  cases x with
  | waker =>
    simp only [regWrite]
    repeat' split
    all_goals rfl
  | _ => cases b <;> rfl

theorem memWrite_withRsp :
    memWrite { s with rsp := r } b off w = (memWrite s b off w).map fun t => { t with rsp := r } := by
  have hids : ({ s with rsp := r } : State).nIds = s.nIds := rfl
  have hawake : awake { s with rsp := r } = awake s := rfl
  unfold memWrite
  rw [hids, hawake]
  split
  · split
    · rfl
    · split
      · rfl
      · exact regWrite_withRsp s r b w _
  · rfl

end

section
variable {s u : State} {i : Instr} {b : Bank} {off : Nat} {f : Word → Word}
  (hruns : RunsAs s.cfg i (rmwTxs b off f)) (hm : s.seq.mainCmd = none)
include hruns hm

/-- A command that is one read-modify-write, in terms of its two accesses. -/
theorem inTwo_iff : InTwo i s u ↔
    ∃ v t, memRead s b off = .ok v ∧ memWrite s b off (f v) = .ok t ∧ u = respond t .ok 0#64 := by
  have hsecond (v : Word) : exec i (inMid s i 1 (v.setWidth 64)) =
      match memWrite s b off (f v) with
      | .ok t => .next (respond t .ok 0#64)
      | .error e => .fault e := (hruns (inMid s i 1 (v.setWidth 64)) rfl).trans (runMain_rmw_write v)
  constructor
  · rintro ⟨h, hread, hwrite⟩
    rw [hruns s rfl] at hread
    cases hv : memRead s b off with
    | error e =>
      rw [runMain_rmw_read_error hm hv] at hread
      cases hread
    | ok v =>
      rw [runMain_rmw_read hm hv] at hread
      obtain rfl : v.setWidth 64 = h := congrArg mainHeld (Host.Outcome.next.inj hread)
      rw [hsecond v] at hwrite
      cases ht : memWrite s b off (f v) with
      | error e =>
        rw [ht] at hwrite
        cases hwrite
      | ok t =>
        rw [ht] at hwrite
        exact ⟨v, t, rfl, ht, (Host.Outcome.next.inj hwrite).symm⟩
  · rintro ⟨v, t, hread, hwrite, rfl⟩
    refine ⟨v.setWidth 64, (hruns s rfl).trans (runMain_rmw_read hm hread), ?_⟩
    rw [hsecond v, hwrite]

theorem inTwo_withRsp (h : InTwo i s u) (r : Rsp) : InTwo i { s with rsp := r } u := by
  obtain ⟨v, t, hread, hwrite, rfl⟩ := (inTwo_iff hruns hm).mp h
  refine (inTwo_iff (s := { s with rsp := r }) hruns hm).mpr ⟨v, { t with rsp := r }, ?_, ?_, rfl⟩
  · rw [memRead_withRsp, hread]
  · rw [memWrite_withRsp, hwrite]
    rfl

end

/-! ## What the eleven commands do to interrupt 30 -/

/-- What a bank stores of interrupt 30, and how transition 4 leaves it. -/
structure TimerEntry where
  group1 : Bool
  priority : BitVec 8
  edge : Bool
  latch : Bool
  enabled : Bool

/-- What the block stores of interrupt 30: an entry in each bank, and whether it is routed to this processing
element. -/
structure TimerSettings where
  dist : TimerEntry
  redist : TimerEntry
  target : Bool

def timerEntry {k : Nat} (a : IrqArrays k) : TimerEntry where
  group1 := bitAt a.grp 30
  priority := byteAt a.pri 30
  edge := (pairAt a.cfg 30).getLsbD 1
  latch := bitAt a.platch 30
  enabled := bitAt a.en 30

def timerSettings (s : State) : TimerSettings where
  dist := timerEntry s.dist.arr
  redist := timerEntry s.redist.arr
  target := (byteAt s.dist.tgt 30).getLsbD 0

/-- A change of the entry in one bank. -/
def inBank (b : Bank) (f : TimerEntry → TimerEntry) (x : TimerSettings) : TimerSettings :=
  match b with
  | .D => { x with dist := f x.dist }
  | .R => { x with redist := f x.redist }

/-- Nothing but the entries of the two banks and the response differs between `s` and `t`. -/
def OnlyEntries (s t : State) : Prop :=
  t = { s with dist.arr := t.dist.arr, dist.tgt := t.dist.tgt, redist.arr := t.redist.arr, rsp := t.rsp }

theorem OnlyEntries.trans {s t u : State} (hst : OnlyEntries s t) (htu : OnlyEntries t u) : OnlyEntries s u := by
  unfold OnlyEntries at hst htu ⊢
  rw [hst] at htu
  exact htu

/-- Command `i` runs to its end in two transactions and changes what is stored of interrupt 30 as `f` says, nothing but
entries and the response besides. -/
def Moves (i : Instr) (f : TimerSettings → TimerSettings) : Prop :=
  ∀ s : State, s.seq.mainCmd = none → awake s = true →
    ∃ u, InTwo i s u ∧ OnlyEntries s u ∧ timerSettings u = f (timerSettings s)

theorem timer_lt_idCount (s : State) : ∀ b, (30#10).toNat < idCount s b
  | .D => by
    obtain ⟨hmin, -, -⟩ := nIds_bounds s.cfg
    exact Nat.lt_of_lt_of_le (by decide) hmin
  | .R => (by decide : 30 < 32)

theorem canWrite_of_awake {s : State} (h : awake s = true) : ∀ b, canWrite s b
  | .D => canWrite_D s
  | .R => canWrite_R h

/-- A command that leaves the arrays `a` in bank `b`. -/
theorem moves_of_arrays {i : Instr} {b : Bank} {f : TimerEntry → TimerEntry}
    (h : ∀ s : State, s.seq.mainCmd = none → awake s = true →
      ∃ a, InTwo i s { s.setArrays b a with rsp := okRsp 0#64 } ∧ timerEntry a = f (timerEntry (s.arrays b))) :
    Moves i (inBank b f) := by
  intro s hm ha
  obtain ⟨a, hrun, hentry⟩ := h s hm ha
  refine ⟨_, hrun, ?_, ?_⟩
  · cases b <;> rfl
  · cases b
    · exact congrArg (fun e => { timerSettings s with dist := e }) hentry
    · exact congrArg (fun e => { timerSettings s with redist := e }) hentry

section
variable {i : Instr} {b : Bank}

theorem moves_setsGroup (h : ∀ c, RunsAs c i
    (bankChecked c b 30#10 (fieldWriteTxs b (winBase b + 0x080) wlogBit 30 ((1#8).setWidth 32)))) :
    Moves i (inBank b fun e => { e with group1 := true }) := by
  refine moves_of_arrays fun s hm ha => ?_
  obtain ⟨g, hrun, hg⟩ := (h s.cfg).setsGroup hm (canWrite_of_awake ha b) (timer_lt_idCount s b)
  exact ⟨_, hrun, congrArg (fun x => { timerEntry (s.arrays b) with group1 := x }) (hg 30)⟩

theorem moves_setsPriority (h : ∀ c, RunsAs c i
    (bankChecked c b 30#10 (fieldWriteTxs b (winBase b + 0x400) wlogByte 30 ((0#8).setWidth 32)))) :
    Moves i (inBank b fun e => { e with priority := 0#8 }) := by
  refine moves_of_arrays fun s hm ha => ?_
  obtain ⟨p, hrun, hp⟩ := (h s.cfg).setsPriority hm (canWrite_of_awake ha b) (timer_lt_idCount s b)
  exact ⟨_, hrun, congrArg (fun x => { timerEntry (s.arrays b) with priority := x }) (hp 30)⟩

theorem moves_setsLevel (h : ∀ c, RunsAs c i
    (bankChecked c b 30#10 (fieldWriteTxs b (winBase b + 0xC00) wlogPair 30 ((0#8).setWidth 32)))) :
    Moves i (inBank b fun e => { e with edge := false }) := by
  refine moves_of_arrays fun s hm ha => ?_
  obtain ⟨c, hrun, hc⟩ := (h s.cfg).setsConfig hm (canWrite_of_awake ha b) (timer_lt_idCount s b)
  have hlevel : (pairAt c 30).getLsbD 1 = false := by rw [hc 30, if_pos (by decide)]; decide
  exact ⟨_, hrun, congrArg (fun x => { timerEntry (s.arrays b) with edge := x }) hlevel⟩

theorem moves_clearsPending (h : ∀ c, RunsAs c i
    (bankChecked c b 30#10 (fieldWriteTxs b (winBase b + 0x280) wlogBit 30 1#32))) :
    Moves i (inBank b fun e => { e with latch := false }) := by
  refine moves_of_arrays fun s hm ha => ?_
  obtain ⟨p, hrun, hp⟩ := (h s.cfg).clearsPending hm (canWrite_of_awake ha b) (timer_lt_idCount s b)
  exact ⟨_, hrun, congrArg (fun x => { timerEntry (s.arrays b) with latch := x }) (hp 30)⟩

theorem moves_setsEnable (h : ∀ c, RunsAs c i
    (bankChecked c b 30#10 (fieldWriteTxs b (winBase b + 0x100) wlogBit 30 1#32))) :
    Moves i (inBank b fun e => { e with enabled := true }) := by
  refine moves_of_arrays fun s hm ha => ?_
  obtain ⟨e, hrun, he⟩ := (h s.cfg).setsEnable hm (canWrite_of_awake ha b) (timer_lt_idCount s b)
  exact ⟨_, hrun, congrArg (fun x => { timerEntry (s.arrays b) with enabled := x }) (he 30)⟩

end

theorem moves_dSetTgt : Moves (.dSetTgt 30#10 0#8) fun x => { x with target := true } := by
  intro s hm ha
  obtain ⟨hrange, -⟩ := distributorAddsATarget s 30#10 0#8 hm
  obtain ⟨g, hrun, hg⟩ := hrange (timer_lt_idCount s .D) (by decide)
  refine ⟨_, hrun, rfl, congrArg (fun x => { timerSettings s with target := x }) ?_⟩
  rw [hg 30]
  simp

/-- The changes the eleven commands make, in order. -/
def timerMoves : List (TimerSettings → TimerSettings) :=
  [inBank .D fun e => { e with group1 := true }, inBank .R fun e => { e with group1 := true },
   inBank .D fun e => { e with priority := 0#8 }, inBank .R fun e => { e with priority := 0#8 },
   fun x => { x with target := true },
   inBank .D fun e => { e with edge := false }, inBank .R fun e => { e with edge := false },
   inBank .D fun e => { e with latch := false }, inBank .R fun e => { e with latch := false },
   inBank .D fun e => { e with enabled := true }, inBank .R fun e => { e with enabled := true }]

theorem elevenCommands_move : List.Forall₂ (fun x f => x.2 = 2 ∧ Moves x.1 f) elevenCommands timerMoves :=
  .cons ⟨rfl, moves_setsGroup fun c => runsAs_dSetGrp c _ (by decide)⟩ <|
  .cons ⟨rfl, moves_setsGroup fun c => runsAs_rSetGrp c _ (by decide)⟩ <|
  .cons ⟨rfl, moves_setsPriority fun c => runsAs_dSetPri c _ _⟩ <|
  .cons ⟨rfl, moves_setsPriority fun c => runsAs_rSetPri c _ _⟩ <|
  .cons ⟨rfl, moves_dSetTgt⟩ <|
  .cons ⟨rfl, moves_setsLevel fun c => runsAs_dSetCfg c _ (by decide)⟩ <|
  .cons ⟨rfl, moves_setsLevel fun c => runsAs_rSetCfg c _ (by decide)⟩ <|
  .cons ⟨rfl, moves_clearsPending fun c => runsAs_dClrPend c _⟩ <|
  .cons ⟨rfl, moves_clearsPending fun c => runsAs_rClrPend c _⟩ <|
  .cons ⟨rfl, moves_setsEnable fun c => runsAs_dSetEn c _⟩ <|
  .cons ⟨rfl, moves_setsEnable fun c => runsAs_rSetEn c _⟩ .nil

/-! ## From one command to the next -/

theorem execAll_cons_of_inTwo {i : Instr} {s u : State} (h : InTwo i s u) (l : List (Instr × Nat)) :
    execAll ((i, 2) :: l) s = execAll l u := by
  obtain ⟨v, hread, hwrite⟩ := h
  rw [execAll, execs, hread]
  dsimp only
  rw [execs, hwrite]
  rfl

/-- Two transactions of O.STEP are the two of command `j` of the list. -/
theorem execs_oStep_two {s u : State} {i : Instr} {j n : Nat} (hm : s.seq.mainCmd = none)
    (hq : s.seq.orch = .cpuInterfaceReady) (hi : elevenCommands[j]? = some (i, n)) (h : InTwo i s u) :
    execs .oStep 2 (inMid s .oStep (2 * j) 0#64) = asPart s.rsp (2 * j + 1) (.next u) := by
  obtain ⟨v, hread, hwrite⟩ := h
  have heven : (2 * j) / 2 = j ∧ (2 * j) % 2 = 0 := by omega
  have hodd : (2 * j + 1) / 2 = j ∧ (2 * j + 1) % 2 = 1 := by omega
  have hfirst := exec_oStep_part (k := 2 * j) hq (by rw [heven.1]; exact hi) 0#64
  have hsecond := exec_oStep_part (k := 2 * j + 1) hq (by rw [hodd.1]; exact hi) v
  rw [heven.2, ← exec_part_first hm hi, hread] at hfirst
  rw [hodd.2, hwrite] at hsecond
  exact (execs_succ_of_next ((execs_one _ _).trans hfirst)).trans hsecond

theorem execs_add_of_next {i : Instr} {m : Nat} {s t : State} (h : execs i m s = .next t) (n : Nat) :
    execs i (m + n) s = execs i n t := by
  induction m generalizing s with
  | zero =>
    obtain rfl : s = t := Host.Outcome.next.inj h
    rw [Nat.zero_add]
  | succ m ih =>
    rw [Nat.add_right_comm, execs]
    rw [execs] at h
    cases hu : exec i s with
    | next u =>
      rw [hu] at h
      exact ih h
    | fault r => rw [hu] at h; contradiction
    | refused r => rw [hu] at h; contradiction

/-- From command `j` on, the transactions of O.STEP leave what the commands leave, whatever the response was: the
commands write `RSP` one after another, O.STEP only at its end. -/
theorem execs_oStep_rest {l : List (Instr × Nat)} {fs : List (TimerSettings → TimerSettings)}
    (hl : List.Forall₂ (fun x f => x.2 = 2 ∧ Moves x.1 f) l fs) {j : Nat} (hj : elevenCommands.drop j = l)
    (hne : l ≠ []) {s : State} (hm : s.seq.mainCmd = none) (hq : s.seq.orch = .cpuInterfaceReady)
    (ha : awake s = true) :
    ∃ t, execAll l s = .next t ∧
      (∀ r, execs .oStep (2 * l.length) (inMid { s with rsp := r } .oStep (2 * j) 0#64) =
        .next { t with seq.orch := .timerInterruptConfigured, rsp := okRsp 5#64 }) ∧
      OnlyEntries s t ∧ timerSettings t = fs.foldl (fun x f => f x) (timerSettings s) := by
  induction hl generalizing j s with
  | nil => exact absurd rfl hne
  | @cons x f l fs hx hl ih =>
    obtain ⟨i, n⟩ := x
    obtain ⟨rfl, hmove⟩ : n = 2 ∧ Moves i f := hx
    obtain ⟨u, hrun, honly, hset⟩ := hmove s hm ha
    have hmu : u.seq.mainCmd = none := by rw [honly]; exact hm
    have hqu : u.seq.orch = .cpuInterfaceReady := by rw [honly]; exact hq
    have hau : awake u = true := by rw [honly]; exact ha
    have hi : elevenCommands[j]? = some (i, 2) := by
      rw [← List.head?_drop, hj, List.head?_cons]
    have hlast : j + l.length + 1 = 11 := by
      have hlength := congrArg List.length hj
      rw [List.length_drop, List.length_cons] at hlength
      have heleven : elevenCommands.length = 11 := rfl
      omega
    have htwo (r : Rsp) : execs .oStep 2 (inMid { s with rsp := r } .oStep (2 * j) 0#64) =
        asPart r (2 * j + 1) (.next u) := by
      obtain ⟨b, off, g, -, hruns⟩ := exists_part (c := s.cfg) hi
      exact execs_oStep_two (s := { s with rsp := r }) hm hq hi (inTwo_withRsp hruns hm hrun r)
    rw [execAll_cons_of_inTwo hrun]
    cases l with
    | nil =>
      cases hl
      refine ⟨u, rfl, fun r => ?_, honly, hset⟩
      have hk : 2 * j + 1 = 21 := by rw [List.length_nil] at hlast; omega
      refine (htwo r).trans ?_
      simp only [asPart, hmu, hk, if_true]
    | cons y l =>
      obtain ⟨t, hall, hsteps, honlyt, hsett⟩ := ih (j := j + 1) (by rw [← List.tail_drop, hj, List.tail_cons])
        (List.cons_ne_nil y l) hmu hqu hau
      refine ⟨t, hall, fun r => ?_, honly.trans honlyt, ?_⟩
      · have hk : 2 * j + 1 ≠ 21 := by rw [List.length_cons] at hlast; omega
        have hgoesOn : asPart r (2 * j + 1) (.next u) =
            .next (inMid { u with rsp := r } .oStep (2 * (j + 1)) 0#64) := by
          simp only [asPart, hmu, hk, if_false]
          rfl
        rw [List.length_cons, Nat.mul_add_one, Nat.add_comm, execs_add_of_next ((htwo r).trans hgoesOn)]
        exact hsteps r
      · rw [hsett, hset, List.foldl_cons]

/-- Settles O41: part by part the transition is its commands; from the first to the last they leave interrupt 30 as the
list says. -/
theorem sequencerConfiguresTheTimerInterrupt : Obligations.SequencerConfiguresTheTimerInterrupt := by
  refine ⟨fun s hq => ⟨fun hm => ?first, fun k h i n hi => exec_oStep_part hq hi h⟩, fun s hm hq ha => ?whole⟩
  case first =>
    rw [exec_oStep_first hm hq, exec_oStep_part (k := 0) hq rfl, exec_part_first (j := 0) hm rfl]
  case whole =>
    obtain ⟨t, hall, hsteps, honly, hset⟩ :=
      execs_oStep_rest elevenCommands_move (j := 0) rfl (List.cons_ne_nil _ _) hm hq ha
    have hstart : execs .oStep 22 s = execs .oStep 22 (inMid s .oStep 0 0#64) := by
      rw [execs, execs, exec_oStep_first hm hq]
    have hentry (b : Bank) : timerEntry (t.arrays b) = ⟨true, 0#8, false, false, true⟩ := by
      cases b
      · exact congrArg TimerSettings.dist hset
      · exact congrArg TimerSettings.redist hset
    exact ⟨t, hall, hstart.trans (hsteps s.rsp), fun b => TimerEntry.mk.inj (hentry b),
      congrArg TimerSettings.target hset, honly⟩

end Sys2Proof.Proofs
end

section
/-!
PROOFS. The family of 60_exceptions.md, first part: the invariant of the dispatch router (O58).
-/

namespace Sys2Proof.Proofs

open Sys2Proof Sys2Proof.Machine

/-! ## The invariant at each place the dispatch router can stand (60_exceptions.md R308 to R314) -/

/-- Outside a trap there is nothing of one, and a halted thread has nothing in flight and all masks set. -/
theorem dispatchInv_idle {s : State} (hd : s.seq.disp = .idle) : DispatchInv s ↔
    s.cpu.curId = none ∧ s.seq.frameValid = false ∧ s.seq.handlerCmd = none ∧ (∀ id, acked s id = false) ∧
      (s.halt ≠ none → s.seq.mainCmd = none ∧ allMasked s) := by
  simp [DispatchInv, hd, Option.eq_none_iff_forall_ne_some]

/-- After the entry an interrupt is recorded and all masks are set; nothing is saved yet. -/
theorem dispatchInv_entered {s : State} (hd : s.seq.disp = .entered .irq) : DispatchInv s ↔
    s.cpu.curId ≠ none ∧ (allMasked s ∧ s.halt = none) ∧ s.seq.frameValid = false ∧ s.seq.handlerCmd = none ∧
      ∀ id, acked s id = false := by
  simp +contextual [DispatchInv, hd, Option.eq_none_iff_forall_ne_some]

/-- Inside the routine the frame is valid, `HANDLER` is in T.HANDLE at place 3 only, and the recorded interrupt is
acknowledged at place 5 only. -/
theorem dispatchInv_inRoutine {s : State} {k : Nat} (hk : k = 3 ∨ k = 4 ∨ k = 5)
    (hd : s.seq.disp = .inRoutine .irq k) : DispatchInv s ↔
    s.cpu.curId ≠ none ∧ (allMasked s ∧ s.halt = none) ∧ s.seq.frameValid = true ∧
      (∀ m, s.seq.handlerCmd = some m → k = 3 ∧ m.cmd = .tHandle ∧ m.index = 1) ∧
      ∀ id, acked s id = true → s.cpu.curId = some id ∧ k = 5 := by
  simp +contextual [DispatchInv, hd, hk]

/-! ## A step of `MAIN` -/

/-- From `s` to `t`, as long as no interrupt is recorded, no interrupt is acknowledged or ended. -/
def KeepsAcked (s t : State) : Prop :=
  s.cpu.curId = none → t.cpu.curId = none ∧ t.cpu.acked = s.cpu.acked

theorem keepsAcked_of_cpu_eq {s t : State} (h : t.cpu = s.cpu) : KeepsAcked s t := fun hc => by
  rw [h]; exact ⟨hc, rfl⟩

/-- Without a recorded interrupt C.EOI ends nothing (44_cpu_interface.md R236). -/
theorem endOfInterrupt_of_none {s : State} (hc : s.cpu.curId = none) : endOfInterrupt s = s := by
  simp only [endOfInterrupt, hc]

theorem keepsAcked_keptByMain : KeptByMain KeepsAcked where
  refl _ := keepsAcked_of_cpu_eq rfl
  trans _ _ _ hst htu hc := by
    obtain ⟨hc', hacked⟩ := hst hc
    obtain ⟨hc'', hacked'⟩ := htu hc'
    exact ⟨hc'', hacked'.trans hacked⟩
  bank _ _ _ _ _ h := by
    obtain ⟨-, hcpu, -⟩ := memWrite_frame h
    exact keepsAcked_of_cpu_eq hcpu
  sys s r v t h hc := by
    obtain ⟨-, -, -, -, rfl⟩ := sysWrite_ok h
    obtain ⟨-, -, -, -, -, -, -, -, -, -, -, -, -, -, hacked, hcur, -⟩ := sysStore_frame s r v
    exact ⟨hcur.trans hc, hacked⟩
  unmask _ := keepsAcked_of_cpu_eq rfl
  ack _ _ hid hc := absurd (hid.symm.trans hc) (Option.some_ne_none _)
  eoi _ hc := keepsAcked_of_cpu_eq (by rw [endOfInterrupt_of_none hc]) hc
  delta _ _ := keepsAcked_of_cpu_eq rfl
  diag _ _ := keepsAcked_of_cpu_eq rfl
  orch _ _ _ := keepsAcked_of_cpu_eq rfl
  respond _ _ _ := keepsAcked_of_cpu_eq rfl
  inFlight _ _ _ _ := keepsAcked_of_cpu_eq rfl

/-- The synchronous exception halts with nothing in flight and all masks set (60_exceptions.md R313). -/
theorem syncEnter_keepsDispatch {s t : State} (hd : s.seq.disp = .idle) (hi : DispatchInv s)
    (h : syncEnter s = .ok t) : DispatchInv t := by
  obtain ⟨hcur, hframe, hhandler, hacked, -⟩ := (dispatchInv_idle hd).mp hi
  obtain ⟨-, rfl⟩ := syncEnter_ok h
  refine (dispatchInv_idle ?_).mpr ⟨hcur, hframe, hhandler, hacked, fun _ => ⟨rfl, rfl, rfl, rfl, rfl⟩⟩
  exact hd

/-- Outside a trap a transaction of `MAIN` starts none: C.ACK and C.EOI find no recorded interrupt. -/
theorem exec_keepsDispatch {i : Instr} {s u : State} (hh : s.halt = none) (hd : s.seq.disp = .idle)
    (hi : DispatchInv s) (h : exec i s = .next u) : DispatchInv u := by
  obtain hkept | htrap := exec_cases keepsAcked_keptByMain h
  · obtain hframe | htrap := exec_cases commandFrame_keptByMain h
    · obtain ⟨hcur, hvalid, hhandler, hacked, -⟩ := (dispatchInv_idle hd).mp hi
      obtain ⟨-, -, -, -, -, -, -, -, -, -, hvalid', hhandler', hdisp, hhalt, -⟩ := CommandFrame.mk.inj hframe
      obtain ⟨hcur', hacked'⟩ := hkept hcur
      refine (dispatchInv_idle (hdisp.trans hd)).mpr
        ⟨hcur', hvalid'.trans hvalid, hhandler'.trans hhandler, fun id => ?_, fun hn => ?_⟩
      · rw [acked, hacked']; exact hacked id
      · exact absurd (hhalt.trans hh) hn
    · exact syncEnter_keepsDispatch hd hi htrap
  · exact syncEnter_keepsDispatch hd hi htrap

theorem mainStep_keepsDispatch {pe : Option PeRegs} {s u : State} (hh : s.halt = none) (hd : s.seq.disp = .idle)
    (hi : DispatchInv s) (h : mainStep pe s = .next u) : DispatchInv u := by
  obtain rfl | ⟨x, pc, cs, ⟨i, hu⟩ | rfl⟩ := mainStep_ok h
  · exact hi
  · exact exec_keepsDispatch (s := { s with pe.x := x, pe.pc := pc, env.cmdIn := cs }) hh hd hi hu
  · obtain ⟨hcur, hvalid, hhandler, hacked, -⟩ := (dispatchInv_idle hd).mp hi
    refine (dispatchInv_idle ?_).mpr ⟨hcur, hvalid, hhandler, hacked, fun hn => absurd hh hn⟩
    exact hd

/-! ## The steps of `HANDLER` (60_exceptions.md R310) -/

/-- The two transactions of T.HANDLE stand at place 3; the second ends the command and moves on to place 4. -/
theorem handleStep_keepsDispatch {s u : State} (hd : s.seq.disp = .inRoutine .irq 3) (hi : DispatchInv s)
    (h : handleStep s = .next u) : DispatchInv u := by
  obtain ⟨hcur, htrap, hvalid, -, hacked⟩ := (dispatchInv_inRoutine (by simp) hd).mp hi
  have hnone (id : Nat) : acked s id ≠ true := fun h => by simpa using (hacked id h).2
  obtain ⟨rfl, -⟩ | ⟨_, _, -, -, rfl⟩ := handleStep_ok h
  · refine (dispatchInv_inRoutine (k := 3) (by simp) ?_).mpr ⟨hcur, htrap, hvalid, ?_, hacked⟩
    · exact hd
    · rintro m ⟨⟩
      exact ⟨rfl, rfl, rfl⟩
  · exact (dispatchInv_inRoutine (k := 4) (by simp) rfl).mpr ⟨hcur, htrap, hvalid,
      fun m hm => absurd hm.symm (Option.some_ne_none m), fun id hid => absurd hid (hnone id)⟩

/-- Step `e4` acknowledges the recorded interrupt and no other. -/
theorem ackStep_keepsDispatch {s : State} (hd : s.seq.disp = .inRoutine .irq 4) (hi : DispatchInv s) :
    DispatchInv (ackStep s) := by
  obtain ⟨hcur, ⟨hmasked, hhalt⟩, hvalid, hhandler, hacked⟩ := (dispatchInv_inRoutine (by simp) hd).mp hi
  obtain ⟨id, hid⟩ := Option.ne_none_iff_exists'.mp hcur
  have hack : ackStep s = { acknowledge s id with seq := { s.seq with disp := .inRoutine .irq 5 } } := by
    simp only [ackStep, hid, acknowledge_seq]
  rw [hack]
  refine (dispatchInv_inRoutine (k := 5) (by simp) rfl).mpr ⟨?_, ⟨?_, ?_⟩, hvalid, ?_, fun j hj => ⟨?_, rfl⟩⟩
  · simpa using hcur
  · simpa [allMasked] using hmasked
  · simpa using hhalt
  · intro m hm
    simpa using (hhandler m hm).1
  · have hj' : acked (acknowledge s id) j = true := hj
    rw [acked_acknowledge] at hj'
    split at hj'
    next heq => simpa [heq.1] using hid
    next => simpa using (hacked j hj').2

theorem handlerStep_keepsDispatch {s u : State} (hi : DispatchInv s) (h : handlerStep s = .next u) :
    DispatchInv u := by
  obtain ⟨rfl, -, -⟩ | ⟨hd, hu⟩ | ⟨hd, rfl⟩ := handlerStep_ok h
  · exact hi
  · exact handleStep_keepsDispatch hd hi hu
  · exact ackStep_keepsDispatch hd hi

/-! ## The steps of `DISPATCH` (60_exceptions.md R308, R309, R312) -/

/-- An interrupt that is taken is one that is found. -/
theorem hppi_of_takeIrq {s : State} (h : takeIrq s = true) : hppi s ≠ none := by
  intro hn
  simp [takeIrq, irqSignal, hn] at h

theorem irqEnter_keepsDispatch {s u : State} (hh : s.halt = none) (hd : s.seq.disp = .idle) (ht : takeIrq s = true)
    (hi : DispatchInv s) (h : irqEnter s = .ok u) : DispatchInv u := by
  obtain ⟨-, hvalid, hhandler, hacked, -⟩ := (dispatchInv_idle hd).mp hi
  obtain ⟨-, rfl⟩ := irqEnter_ok h
  exact (dispatchInv_entered rfl).mpr
    ⟨hppi_of_takeIrq ht, ⟨⟨rfl, rfl, rfl, rfl⟩, hh⟩, hvalid, hhandler, hacked⟩

theorem frameSave_keepsDispatch {s : State} (hd : s.seq.disp = .entered .irq) (hi : DispatchInv s) :
    DispatchInv (frameSave s) := by
  obtain ⟨hcur, htrap, -, hhandler, hacked⟩ := (dispatchInv_entered hd).mp hi
  exact (dispatchInv_inRoutine (k := 3) (by simp) rfl).mpr ⟨hcur, htrap, rfl,
    fun m hm => absurd (hm.symm.trans hhandler) (Option.some_ne_none m),
    fun id hid => absurd ((hacked id).symm.trans hid) Bool.false_ne_true⟩

/-- The return ends the recorded interrupt, the only one acknowledged. -/
theorem irqReturn_keepsDispatch {s : State} (hd : s.seq.disp = .inRoutine .irq 5) (hi : DispatchInv s) :
    DispatchInv (irqReturn s) := by
  obtain ⟨hcur, ⟨-, hhalt⟩, -, hhandler, hacked⟩ := (dispatchInv_inRoutine (by simp) hd).mp hi
  obtain ⟨id, hid⟩ := Option.ne_none_iff_exists'.mp hcur
  have hnone : s.seq.handlerCmd = none :=
    Option.eq_none_iff_forall_ne_some.mpr fun m hm => by simpa using (hhandler m hm).1
  refine (dispatchInv_idle rfl).mpr ⟨rfl, rfl, ?_, fun j => ?_, fun hn => absurd ?_ hn⟩
  · simpa [irqReturn] using hnone
  · have hend : acked (irqReturn s) j = acked (endOfInterrupt s) j := rfl
    rw [hend, acked_endOfInterrupt, hid]
    dsimp only
    split
    next => rfl
    next hne =>
      refine Bool.eq_false_of_not_eq_true fun hj => hne ?_
      obtain rfl : id = j := Option.some.inj (hid.symm.trans (hacked j hj).1)
      exact ⟨rfl, acked_range s id hj⟩
  · simpa [irqReturn] using hhalt

theorem dispatchStep_keepsDispatch {s u : State} (hh : s.halt = none) (hi : DispatchInv s)
    (h : dispatchStep s = .next u) : DispatchInv u := by
  obtain ⟨rfl, -⟩ | ⟨hd, ht, hu⟩ | ⟨hd, rfl⟩ | ⟨hd, rfl⟩ := dispatchStep_ok h
  · exact hi
  · exact irqEnter_keepsDispatch hh hd ht hi hu
  · exact frameSave_keepsDispatch hd hi
  · exact irqReturn_keepsDispatch hd hi

/-! ## Every step -/

theorem agentStep_keepsDispatch {e : Event} {s u : State} (hi : DispatchInv s) (h : agentStep e s = .next u) :
    DispatchInv u := by
  obtain rfl | ⟨_, -, hh, hd, hu⟩ | ⟨-, -, hu⟩ | ⟨-, hh, hu⟩ | ⟨-, rfl⟩ | ⟨-, -, -, rfl⟩ | ⟨-, rfl⟩ := agentStep_ok h
  · exact hi
  · exact mainStep_keepsDispatch hh hd hi hu
  · exact handlerStep_keepsDispatch hi hu
  · exact dispatchStep_keepsDispatch hh hi hu
  · exact hi
  · exact hi
  · exact resetWith_dispatchInv _ _ _ _

theorem edgeCapture_keepsDispatch (a : State) {s : State} (hi : DispatchInv s) : DispatchInv (edgeCapture a s) := by
  simpa [DispatchInv, allMasked, acked] using hi

/-- Settles O58: each agent's step keeps the invariant, and neither the schedule nor edge capture is part of it. -/
theorem everyStepKeepsDispatchConsistent : Obligations.EveryStepKeepsDispatchConsistent := by
  intro s t hi h
  obtain ⟨-, u, hu, rfl, -⟩ := step_ok h
  exact edgeCapture_keepsDispatch _ (agentStep_keepsDispatch (s := beginStep s) hi hu)

end Sys2Proof.Proofs
end

section
/-!
PROOFS. The family of 60_exceptions.md, second part: the chain from source to core (O44), edge capture (O45), the
Group 0 check (O46), and the frame save and the return (O48).
-/

namespace Sys2Proof.Proofs

open Sys2Proof Sys2Proof.Machine

/-! ## The chain from source to core (60_exceptions.md R304, R306) -/

/-- R57: the interrupt in the delivery position is taken if it is of Group 1 and the interface and the core are open. -/
theorem takeIrq_iff (s : State) : takeIrq s = true ↔ ∃ id, hppi s = some id ∧ group1 s (bankOf s id) id = true ∧
    s.cpu.sre = true ∧ s.cpu.grp1en = true ∧ s.pe.pstate.i = false := by
  cases hp : hppi s with
  | none => simp [takeIrq, irqSignal, hp]
  | some id => simp [takeIrq, irqSignal, hp, and_assoc, and_comm, and_left_comm]

theorem grpEn_iff (s : State) (id : Nat) : grpEn s id = true ↔ s.dist.ctlr.ds = true ∧
    (if group1 s (bankOf s id) id then s.dist.ctlr.enG1 = true else s.dist.ctlr.enG0 = true) := by
  cases hg : group1 s (bankOf s id) id <;> simp [grpEn, hg]

theorem routed_iff (s : State) (id : Nat) : routed s id = true ↔
    s.dist.ctlr.are = true ∨ (byteAt s.dist.tgt id).getLsbD 0 = true := by
  simp only [routed, Bool.or_eq_true]

/-- The links of the chain, as R56 has them. -/
theorem cand_iff (s : State) (id : Nat) : cand s id = true ↔
    enabled s (bankOf s id) id = true ∧ pend s (bankOf s id) id = true ∧ acked s id = false ∧ grpEn s id = true ∧
      routed s id = true ∧ awake s = true ∧ (priority s (bankOf s id) id).toNat < s.cpu.pmr.toNat := by
  simp only [cand, fwd, Bool.and_eq_true, Bool.not_eq_true', decide_eq_true_eq, BitVec.lt_def, and_assoc]

theorem priority_lt_pmr_of_cand {s : State} {id : Nat} (h : cand s id = true) :
    (priority s (bankOf s id) id).toNat < s.cpu.pmr.toNat := by
  obtain ⟨-, -, -, -, -, -, hpri⟩ := (cand_iff s id).mp h
  exact hpri

/-- R306: a mask of 0 passes nothing. -/
theorem hppi_of_pmr_zero {s : State} (h : s.cpu.pmr = 0#8) : hppi s = none := by
  refine bestBelow_eq_none (fun id => Bool.eq_false_of_not_eq_true fun hc => ?_) s.nIds
  simpa [h] using priority_lt_pmr_of_cand hc

/-- R306: the mask is at most `0xFF` and is compared strictly, so priority `0xFF` never passes. -/
theorem priority_ne_of_hppi {s : State} {id : Nat} (h : hppi s = some id) : priority s (bankOf s id) id ≠ 0xFF#8 := by
  obtain ⟨-, hc, -⟩ := isBest_of_bestBelow h
  have hlt := priority_lt_pmr_of_cand hc
  intro hpri
  simp only [hpri, BitVec.reduceToNat] at hlt
  omega

/-- Settles O44: the links are `cand_iff`, told in the order of R304. -/
theorem interruptChain : Obligations.InterruptChain := by
  refine ⟨takeIrq_iff, fun s id => ?_, fun s => hppi_of_pmr_zero, fun s id => priority_ne_of_hppi⟩
  rw [cand_iff, grpEn_iff, routed_iff, awake_iff]
  simp only [and_assoc, and_left_comm]

/-! ## Edge capture and the Group 0 check (60_exceptions.md R303, R305) -/

/-- Settles O45: the step ends with edge capture, and counting the step does not move the timer line. -/
theorem risingEdgeIsLatched : Obligations.RisingEdgeIsLatched := by
  intro s t _ h
  obtain ⟨-, u, hu, ht, -⟩ := step_ok h
  refine ⟨u, hu, fun b id => ?_, ?_⟩
  · have hline : timerLine (beginStep s) = timerLine s := rfl
    rw [ht, latch_edgeCapture, hline, timerId]
    ac_rfl
  · obtain ⟨d, r, hframe⟩ := edgeCapture_frame (beginStep s) u
    rw [ht, hframe]

theorem group0InDelivery_of_hppi {s : State} {id : Nat} (h : hppi s = some id) :
    group0InDelivery s = !group1 s (bankOf s id) id := by
  simp only [group0InDelivery, h]

theorem settle_of_group0InDelivery {a s : State} (h : group0InDelivery (edgeCapture a s) = true) :
    settle a s = .fault .group0Delivery := if_pos h

/-- Settles O46: what a step that goes on ends in has passed the check, and what does not pass it faults. -/
theorem groupZeroIsNeverDelivered : Obligations.GroupZeroIsNeverDelivered := by
  refine ⟨fun s t h id hid => ?_, fun s u id hf hu hid hgroup => ?_⟩
  · obtain ⟨-, _, -, -, hpassed⟩ := step_ok h
    simpa [group0InDelivery_of_hppi hid] using hpassed
  · have hcheck : group0InDelivery (edgeCapture (beginStep s) u) = true := by
      rw [group0InDelivery_of_hppi hid, hgroup]; rfl
    rw [step_of_fault_none hf, hu]
    exact settle_of_group0InDelivery hcheck

/-! ## The frame save and the return (60_exceptions.md R309, R312) -/

/-- While the thread runs a step of `DISPATCH` is the router's. -/
theorem agentStep_dispatch {s : State} (hh : s.halt = none) : agentStep .dispatch s = dispatchStep s := by
  simp only [agentStep, threadRuns, hh, Option.isNone_none, if_true]

/-- Step `e2`. -/
theorem agentStep_dispatch_save {s : State} (hh : s.halt = none) (hd : s.seq.disp = .entered .irq) :
    agentStep .dispatch s = .next (frameSave s) := by
  simp only [agentStep_dispatch hh, dispatchStep, hd]

/-- Step `e5`. -/
theorem agentStep_dispatch_return {s : State} (hh : s.halt = none) (hd : s.seq.disp = .inRoutine .irq 5) :
    agentStep .dispatch s = .next (irqReturn s) := by
  simp only [agentStep_dispatch hh, dispatchStep, hd]

/-- Slots 0 to 30 of a frame are those of the general registers taken from it (45_vector_dispatch.md R254). -/
theorem frameRegs_getElem? (ctx : Vector DWord 33) {k : Nat} (hk : k < 31) : (frameRegs ctx)[k]? = ctx[k]? := by
  have hslot : (frameRegs ctx)[k] = ctx[k] := by
    unfold frameRegs
    exact (Vector.getElem_extract (by omega)).trans (by simp only [Nat.zero_add])
  rw [Vector.getElem?_eq_getElem hk, Vector.getElem?_eq_getElem (by omega : k < 33), hslot]

/-- The return with its recorded interrupt: one `ACKED` bit is cleared, the frame goes back into the registers. -/
theorem irqReturn_of_some {s : State} {id : Nat} (hc : s.cpu.curId = some id) : irqReturn s = { s with
    pe := { s.pe with
      x := frameRegs s.seq.ctx, elr := frameElr s.seq.ctx, spsr := frameSpsr s.seq.ctx, pc := frameElr s.seq.ctx
      pstate := unpackPState (frameSpsr s.seq.ctx) }
    cpu := { s.cpu with acked := putBit s.cpu.acked id false, curId := none }
    seq.frameValid := false
    seq.disp := .idle } := by
  simp only [irqReturn, endOfInterrupt_of_some hc]

/-- Settles O48: the frame saved holds the context slot by slot, and the return reads the same slots. -/
theorem frameSaveAndInterruptReturn : Obligations.FrameSaveAndInterruptReturn := by
  refine ⟨fun s hh hd => ?_, fun s id hh hd hc hid => ?_⟩
  · obtain ⟨hx, helr, hspsr⟩ := frame_of s.pe
    refine ⟨frameOf s.pe, agentStep_dispatch_save hh hd, fun k hk => ?_, helr, hspsr⟩
    rw [← frameRegs_getElem? _ hk, hx]
  · obtain ⟨-, hmax, -⟩ := nIds_bounds s.cfg
    refine ⟨frameRegs s.seq.ctx, putBit s.cpu.acked id false, ?_, fun k hk => frameRegs_getElem? _ hk,
      fun k => bitAt_putBit _ id k false (Nat.lt_of_lt_of_le hid hmax)⟩
    rw [agentStep_dispatch_return hh hd, irqReturn_of_some hc]
    rfl

end Sys2Proof.Proofs
end

section
/-!
PROOFS. The family of 60_exceptions.md, third part: the routine comes to its end (O50), within five rounds of its agents
(O60).
-/

namespace Sys2Proof.Proofs

open Sys2Proof Sys2Proof.Machine

/-! ## The steps a trap in progress still takes -/

/-- The steps of `DISPATCH` and `HANDLER` that the trap in progress still takes, in their order: `e2`, `h1`, `h2`, `e4`,
`e5` from the entry on (60_exceptions.md R309, R310, R312). -/
def stepsLeft (s : State) : List Event :=
  match s.seq.disp with
  | .entered .irq => [.dispatch, .handler, .handler, .handler, .dispatch]
  | .inRoutine .irq 3 =>
    if s.seq.handlerCmd.isSome then [.handler, .handler, .dispatch] else [.handler, .handler, .handler, .dispatch]
  | .inRoutine .irq 4 => [.handler, .dispatch]
  | .inRoutine .irq 5 => [.dispatch]
  | _ => []

theorem stepsLeft_entered {s : State} (hd : s.seq.disp = .entered .irq) :
    stepsLeft s = [.dispatch, .handler, .handler, .handler, .dispatch] := by
  simp only [stepsLeft, hd]

theorem stepsLeft_handle_first {s : State} (hd : s.seq.disp = .inRoutine .irq 3) (hc : s.seq.handlerCmd = none) :
    stepsLeft s = [.handler, .handler, .handler, .dispatch] := by
  simp [stepsLeft, hd, hc]

theorem stepsLeft_handle_second {s : State} {m : InFlight} (hd : s.seq.disp = .inRoutine .irq 3)
    (hc : s.seq.handlerCmd = some m) : stepsLeft s = [.handler, .handler, .dispatch] := by
  simp [stepsLeft, hd, hc]

theorem stepsLeft_acknowledge {s : State} (hd : s.seq.disp = .inRoutine .irq 4) :
    stepsLeft s = [.handler, .dispatch] := by
  simp only [stepsLeft, hd]

theorem stepsLeft_return {s : State} (hd : s.seq.disp = .inRoutine .irq 5) : stepsLeft s = [.dispatch] := by
  simp only [stepsLeft, hd]

theorem stepsLeft_idle {s : State} (hd : s.seq.disp = .idle) : stepsLeft s = [] := by
  simp only [stepsLeft, hd]

theorem stepsLeft_congr {s t : State} (h : t.seq = s.seq) : stepsLeft t = stepsLeft s := by
  simp only [stepsLeft, h]

/-- The places of a trap in progress, with the position of `HANDLER` at place 3. -/
theorem trap_places {s : State} (hi : DispatchInv s) (hd : s.seq.disp ≠ .idle) :
    (s.seq.disp = .entered .irq ∧ s.seq.handlerCmd = none) ∨
    (s.seq.disp = .inRoutine .irq 3 ∧ s.seq.handlerCmd = none) ∨
    (s.seq.disp = .inRoutine .irq 3 ∧ ∃ m, s.seq.handlerCmd = some m ∧ m.index ≠ 0) ∨
    s.seq.disp = .inRoutine .irq 4 ∨ s.seq.disp = .inRoutine .irq 5 := by
  have ⟨hplace, _, _, _, hhandler, _⟩ := hi
  obtain hd' | hd' | hd' | hd' | hd' := hplace
  · exact absurd hd' hd
  · obtain ⟨-, -, -, hc, -⟩ := (dispatchInv_entered hd').mp hi
    exact Or.inl ⟨hd', hc⟩
  · cases hc : s.seq.handlerCmd with
    | none => exact Or.inr (Or.inl ⟨hd', rfl⟩)
    | some m =>
      obtain ⟨-, -, hindex⟩ := hhandler m hc
      exact Or.inr (Or.inr (Or.inl ⟨hd', m, rfl, by rw [hindex]; exact Nat.one_ne_zero⟩))
  · exact Or.inr (Or.inr (Or.inr (Or.inl hd')))
  · exact Or.inr (Or.inr (Or.inr (Or.inr hd')))

theorem halt_none_of_trap {s : State} (hi : DispatchInv s) (hd : s.seq.disp ≠ .idle) : s.halt = none := by
  obtain ⟨-, -, htrap, -⟩ := hi
  obtain ⟨-, hhalt⟩ := htrap hd
  exact hhalt

/-- The measure of the statements is the number of those steps. -/
theorem length_stepsLeft {s : State} (hi : DispatchInv s) : (stepsLeft s).length = routineLeft s := by
  by_cases hd : s.seq.disp = .idle
  · simp [stepsLeft_idle hd, routineLeft, hd]
  · obtain ⟨hd', -⟩ | ⟨hd', hc⟩ | ⟨hd', m, hc, -⟩ | hd' | hd' := trap_places hi hd
    · simp [stepsLeft_entered hd', routineLeft, hd']
    · simp [stepsLeft_handle_first hd' hc, routineLeft, hd', hc]
    · simp [stepsLeft_handle_second hd' hc, routineLeft, hd', hc]
    · simp [stepsLeft_acknowledge hd', routineLeft, hd']
    · simp [stepsLeft_return hd', routineLeft, hd']

/-! ## The agent whose step is next -/

/-- In a trap exactly one of the two agents is enabled, and its step is the next one left. -/
theorem head_stepsLeft {s : State} (hi : DispatchInv s) (hd : s.seq.disp ≠ .idle) :
    (stepsLeft s).head? = some (if agentEnabled .dispatch s then .dispatch else .handler) ∧
      agentEnabled .handler s = !agentEnabled .dispatch s := by
  have hhalt := halt_none_of_trap hi hd
  obtain ⟨hd', -⟩ | ⟨hd', hc⟩ | ⟨hd', m, hc, -⟩ | hd' | hd' := trap_places hi hd
  · simp [stepsLeft_entered hd', agentEnabled, threadRuns, hhalt, hd']
  · simp [stepsLeft_handle_first hd' hc, agentEnabled, threadRuns, hhalt, hd']
  · simp [stepsLeft_handle_second hd' hc, agentEnabled, threadRuns, hhalt, hd']
  · simp [stepsLeft_acknowledge hd', agentEnabled, threadRuns, hhalt, hd']
  · simp [stepsLeft_return hd', agentEnabled, threadRuns, hhalt, hd']

theorem head_stepsLeft_iff {s : State} (hi : DispatchInv s) (hd : s.seq.disp ≠ .idle) (e : Event) :
    (stepsLeft s).head? = some e ↔ (e = .dispatch ∨ e = .handler) ∧ agentEnabled e s = true := by
  obtain ⟨hhead, hone⟩ := head_stepsLeft hi hd
  rw [hhead, Option.some.injEq]
  cases hen : agentEnabled .dispatch s with
  | true =>
    refine ⟨fun h => h ▸ ⟨Or.inl rfl, hen⟩, ?_⟩
    rintro ⟨rfl | rfl, h⟩
    · rfl
    · simp [hone, hen] at h
  | false =>
    refine ⟨fun h => h ▸ ⟨Or.inr rfl, by simp [hone, hen]⟩, ?_⟩
    rintro ⟨rfl | rfl, h⟩
    · simp [hen] at h
    · rfl

/-! ## A step of the routine (60_exceptions.md R309, R310, R312) -/

theorem ackStep_disp (s : State) : (ackStep s).seq.disp = .inRoutine .irq 5 := by
  unfold ackStep
  split <;> rfl

/-- The agent whose step is next takes it: what is left after it is the rest. -/
theorem agentStep_stepsLeft {e : Event} {s u : State} (hi : DispatchInv s) (hd : s.seq.disp ≠ .idle)
    (he : (stepsLeft s).head? = some e) (h : agentStep e s = .next u) : stepsLeft s = e :: stepsLeft u := by
  have hhalt := halt_none_of_trap hi hd
  obtain ⟨hd', hc⟩ | ⟨hd', hc⟩ | ⟨hd', m, hc, hindex⟩ | hd' | hd' := trap_places hi hd
  · rw [stepsLeft_entered hd'] at he ⊢
    obtain rfl := Option.some.inj he
    obtain rfl := Host.Outcome.next.inj ((agentStep_dispatch_save hhalt hd').symm.trans h)
    rw [stepsLeft_handle_first (frameSave_seq_disp s) hc]
  · rw [stepsLeft_handle_first hd' hc] at he ⊢
    obtain rfl := Option.some.inj he
    rw [agentStep_handler hhalt, handlerStep, hd'] at h
    obtain ⟨hu, -⟩ | ⟨_, m, hm, -⟩ := handleStep_ok h
    · have hdu : u.seq.disp = .inRoutine .irq 3 := by rw [hu]; exact hd'
      have hcu : u.seq.handlerCmd = some { cmd := .tHandle, index := 1, held := 0#64 } := by rw [hu]
      rw [stepsLeft_handle_second hdu hcu]
    · exact absurd (hm.symm.trans hc) (Option.some_ne_none m)
  · rw [stepsLeft_handle_second hd' hc] at he ⊢
    obtain rfl := Option.some.inj he
    rw [agentStep_handler hhalt, handlerStep, hd'] at h
    obtain ⟨-, hfirst⟩ | ⟨_, _, -, -, rfl⟩ := handleStep_ok h
    · exact absurd (hfirst m hc) hindex
    · rw [stepsLeft_acknowledge rfl]
  · rw [stepsLeft_acknowledge hd'] at he ⊢
    obtain rfl := Option.some.inj he
    rw [agentStep_handler hhalt, handlerStep, hd'] at h
    obtain rfl := Host.Outcome.next.inj h
    rw [stepsLeft_return (ackStep_disp s)]
  · rw [stepsLeft_return hd'] at he ⊢
    obtain rfl := Option.some.inj he
    obtain rfl := Host.Outcome.next.inj ((agentStep_dispatch_return hhalt hd').symm.trans h)
    rw [stepsLeft_idle (s := irqReturn s) rfl]

/-! ## The turns that pass -/

/-- An agent that is not enabled leaves the state as it is (entry 2 of the assumptions). -/
theorem agentStep_of_not_enabled {e : Event} {s : State} (h : agentEnabled e s = false) :
    agentStep e s = .next s := by
  cases e with
  | main pe =>
    rw [agentStep]
    split
    next hc =>
      rw [agentEnabled, hc, Bool.true_and, Bool.or_eq_false_iff] at h
      obtain ⟨hm, hin⟩ := h
      have hm' : s.seq.mainCmd = none := by simpa using hm
      have hin' : s.env.cmdIn = [] := by simpa using hin
      simp only [mainStep, hm', hin']
    next => rfl
  | handler =>
    rw [agentStep]
    split
    next hc =>
      rw [agentEnabled, hc, Bool.true_and, Bool.or_eq_false_iff] at h
      obtain ⟨h3, h4⟩ := h
      unfold handlerStep
      split
      next hd => simp [hd] at h3
      next hd => simp [hd] at h4
      next => rfl
    next => rfl
  | dispatch =>
    rw [agentStep]
    split
    next hc =>
      rw [agentEnabled, hc, Bool.true_and, Bool.or_eq_false_iff, Bool.or_eq_false_iff] at h
      obtain ⟨⟨hentry, hsave⟩, hreturn⟩ := h
      unfold dispatchStep
      split
      next hd => rw [if_neg]; simpa [hd] using hentry
      next hd => simp [hd] at hsave
      next hd => simp [hd] at hreturn
      next => rfl
    next => rfl
  | tick => cases h
  | wake => rw [agentStep, wakeStep, if_neg]; simpa [agentEnabled] using h
  | reset => cases h

/-- Neither the schedule nor the count of the steps is part of the interrupt's way to the core. -/
theorem hppi_beginStep (s : State) : hppi (beginStep s) = hppi s := by
  have hbest (n : Nat) : bestBelow (beginStep s) n = bestBelow s n := by
    induction n with
    | zero => rfl
    | succ n ih => rw [bestBelow, bestBelow, ih]; rfl
  exact hbest s.nIds

theorem takeIrq_beginStep (s : State) : takeIrq (beginStep s) = takeIrq s := by
  rw [takeIrq, takeIrq, irqSignal, irqSignal, hppi_beginStep]
  rfl

theorem agentEnabled_beginStep (e : Event) (s : State) : agentEnabled e (beginStep s) = agentEnabled e s := by
  cases e with
  | dispatch => rw [agentEnabled, agentEnabled, takeIrq_beginStep]; rfl
  | _ => rfl

/-- A turn that passes moves the schedule on, and nothing else: no line rises in it. -/
theorem step_of_not_enabled {s t : State} (he : agentEnabled (nextEvent s) s = false) (h : step s = .next t) :
    t = beginStep s := by
  obtain ⟨-, u, hu, rfl, -⟩ := step_ok h
  rw [agentStep_of_not_enabled ((agentEnabled_beginStep _ s).trans he)] at hu
  obtain rfl := Host.Outcome.next.inj hu
  exact edgeCapture_of_line rfl

theorem step_seq_of_tick_or_wake {s t : State} (he : nextEvent s = .tick ∨ nextEvent s = .wake)
    (h : step s = .next t) : t.seq = s.seq := by
  obtain ⟨-, u, hu, rfl, -⟩ := step_ok h
  rw [edgeCapture_seq]
  obtain he | he := he <;> rw [he] at hu <;> obtain rfl := Host.Outcome.next.inj hu
  · exact tickStep_seq _
  · exact wakeStep_seq _

/-- `MAIN` has no step while a trap is in progress. -/
theorem main_not_enabled {s : State} (pe : Option PeRegs) (hd : s.seq.disp ≠ .idle) :
    agentEnabled (.main pe) s = false := by
  simp [agentEnabled, hd]

/-! ## A step while a trap is in progress -/

theorem step_stepsLeft {s t : State} (hi : DispatchInv s) (hd : s.seq.disp ≠ .idle)
    (he : (stepsLeft s).head? = some (nextEvent s)) (h : step s = .next t) :
    stepsLeft s = nextEvent s :: stepsLeft t := by
  obtain ⟨-, u, hu, rfl, -⟩ := step_ok h
  rw [stepsLeft_congr (edgeCapture_seq _ u)]
  exact agentStep_stepsLeft (s := beginStep s) hi hd he hu

/-- Settles O50: the measure is the length of `stepsLeft`, whose head is the enabled agent's step. -/
theorem routineComesToItsEnd : Obligations.RoutineComesToItsEnd := by
  intro s t hi hd h
  have hlength := length_stepsLeft hi
  have hlength' := length_stepsLeft (everyStepKeepsDispatchConsistent s t hi h)
  refine ⟨fun hagent hen => ?_, fun hpass => ?_, fun pe he => ?_, ?_⟩
  · have hnext := (head_stepsLeft_iff hi hd _).mpr ⟨hagent, hen⟩
    rw [← hlength, ← hlength', step_stepsLeft hi hd hnext h, List.length_cons]
  · have hseq : t.seq = s.seq := by
      obtain hen | hother := hpass
      · rw [step_of_not_enabled hen h, beginStep_seq]
      · exact step_seq_of_tick_or_wake hother h
    rw [← hlength, ← hlength', stepsLeft_congr hseq]
  · exact step_of_not_enabled (he ▸ main_not_enabled pe hd) h
  · obtain ⟨-, hone⟩ := head_stepsLeft hi hd
    cases hen : agentEnabled .dispatch s with
    | true => exact Or.inl rfl
    | false => exact Or.inr (by rw [hone, hen]; rfl)

/-- In a trap a step is a reset, the next step of the routine, or none of the routine's. -/
theorem step_in_trap {s t : State} (hi : DispatchInv s) (hd : s.seq.disp ≠ .idle) (h : step s = .next t) :
    t.seq.disp = .idle ∨ stepsLeft s = nextEvent s :: stepsLeft t ∨
      ((stepsLeft s).head? ≠ some (nextEvent s) ∧ stepsLeft t = stepsLeft s) := by
  by_cases hnext : (stepsLeft s).head? = some (nextEvent s)
  · exact Or.inr (Or.inl (step_stepsLeft hi hd hnext h))
  · cases hen : agentEnabled (nextEvent s) s with
    | false => exact Or.inr (Or.inr ⟨hnext, by rw [step_of_not_enabled hen h]; rfl⟩)
    | true =>
      have hagent : ¬(nextEvent s = .dispatch ∨ nextEvent s = .handler) := fun hagent =>
        hnext ((head_stepsLeft_iff hi hd _).mpr ⟨hagent, hen⟩)
      cases he : nextEvent s with
      | main pe => rw [he, main_not_enabled pe hd] at hen; contradiction
      | handler => exact absurd (Or.inr he) hagent
      | dispatch => exact absurd (Or.inl he) hagent
      | tick => exact Or.inr (Or.inr ⟨he ▸ hnext, stepsLeft_congr (step_seq_of_tick_or_wake (Or.inl he) h)⟩)
      | wake => exact Or.inr (Or.inr ⟨he ▸ hnext, stepsLeft_congr (step_seq_of_tick_or_wake (Or.inr he) h)⟩)
      | reset =>
        obtain ⟨hf, -⟩ := step_ok h
        obtain rfl := Host.Outcome.next.inj ((step_reset hf he).symm.trans h)
        exact Or.inl rfl

theorem step_sched_in_trap {s t : State} (hd : s.seq.disp ≠ .idle) (h : step s = .next t) :
    t.env.sched = s.env.sched.tail := by
  by_cases hmain : ∃ pe, nextEvent s = .main pe
  · obtain ⟨pe, he⟩ := hmain
    rw [step_of_not_enabled (he ▸ main_not_enabled pe hd) h, beginStep_env_sched]
  · exact step_sched h fun pe he => hmain ⟨pe, he⟩

/-! ## Along a schedule -/

/-- The steps left after one step stand in the rest of a schedule that the steps left before it stand in. -/
theorem stepsLeft_sublist_tail {s t : State} {es : List Event}
    (hsub : (stepsLeft s).Sublist (nextEvent s :: es))
    (hstep : stepsLeft s = nextEvent s :: stepsLeft t ∨
      ((stepsLeft s).head? ≠ some (nextEvent s) ∧ stepsLeft t = stepsLeft s)) :
    (stepsLeft t).Sublist es := by
  obtain hcons | ⟨hhead, hsame⟩ := hstep
  · rw [hcons] at hsub
    exact List.cons_sublist_cons.mp hsub
  · rw [hsame]
    obtain hskip | ⟨l, hl, -⟩ := List.sublist_cons_iff.mp hsub
    · exact hskip
    · exact absurd (by rw [hl]; rfl) hhead

/-- A schedule in which the steps left stand in their order brings the trap in progress to its end. -/
theorem steps_reach_idle {s t : State} {es rest : List Event} (hi : DispatchInv s) (hs : s.env.sched = es ++ rest)
    (hsub : (stepsLeft s).Sublist es) (h : steps es.length s = .next t) :
    ∃ k u, k ≤ es.length ∧ steps k s = .next u ∧ u.seq.disp = .idle := by
  induction es generalizing s with
  | nil =>
    refine ⟨0, s, Nat.le_refl 0, rfl, Decidable.not_not.mp fun hd => ?_⟩
    obtain ⟨hhead, -⟩ := head_stepsLeft hi hd
    rw [List.sublist_nil.mp hsub] at hhead
    contradiction
  | cons e es ih =>
    by_cases hd : s.seq.disp = .idle
    · exact ⟨0, s, Nat.zero_le _, rfl, hd⟩
    · obtain ⟨u, hstep, hrest⟩ := steps_succ_ok h
      have hsucc (k : Nat) : steps (k + 1) s = steps k u := by simp only [steps, hstep]
      obtain hidle | hleft := step_in_trap hi hd hstep
      · exact ⟨1, u, Nat.succ_le_succ (Nat.zero_le _), hsucc 0, hidle⟩
      · have hsched : u.env.sched = es ++ rest := by
          rw [step_sched_in_trap hd hstep, hs, List.cons_append, List.tail_cons]
        have hsub' : (stepsLeft u).Sublist es :=
          stepsLeft_sublist_tail (by rw [nextEvent_of_sched hs]; exact hsub) hleft
        obtain ⟨k, v, hk, hv, hidle⟩ :=
          ih (everyStepKeepsDispatchConsistent s u hi hstep) hsched hsub' hrest
        exact ⟨k + 1, v, Nat.succ_le_succ hk, (hsucc k).trans hv, hidle⟩

/-- Wherever the trap in progress stands, five rounds hold the steps it still takes. -/
theorem stepsLeft_sublist_fiveRounds {s : State} (hi : DispatchInv s) :
    (stepsLeft s).Sublist (List.replicate 5 [Event.handler, .dispatch]).flatten := by
  by_cases hd : s.seq.disp = .idle
  · rw [stepsLeft_idle hd]
    exact List.nil_sublist _
  · obtain ⟨hd', -⟩ | ⟨hd', hc⟩ | ⟨hd', m, hc, -⟩ | hd' | hd' := trap_places hi hd
    · rw [stepsLeft_entered hd']; decide
    · rw [stepsLeft_handle_first hd' hc]; decide
    · rw [stepsLeft_handle_second hd' hc]; decide
    · rw [stepsLeft_acknowledge hd']; decide
    · rw [stepsLeft_return hd']; decide

/-- Settles O60: five rounds hold the steps left, and these end the trap. -/
theorem routineEndsInFiveRounds : Obligations.RoutineEndsInFiveRounds :=
  fun _ _ _ _ hi hs hrounds h => steps_reach_idle hi hs ((stepsLeft_sublist_fiveRounds hi).trans hrounds) h

end Sys2Proof.Proofs
end
